-- ==== Sys2Proof/Word.lean ====
section
/-!
DEFINITION. The word types of ruffman CORE (10_state.md sections 2 to 5). All numbers of the block are unsigned
(00_scope.md rule R5).
-/

namespace Sys2Proof

/-- One bit of a bit stream (R5); true is 1. -/
abbrev Bit := Bool

/-- One byte, bits 7 down to 0 (R5). Also a Symbol (R4: `SYM_BITS` = 8). -/
abbrev Byte := BitVec 8

/-- `LEN_BITS` = 64 bits: the length field, every frequency and every byte counter (R4). -/
abbrev Word64 := BitVec 64

/-- A node index or `NIL`, 9 bits (R16, R20). -/
abbrev NodeIx := BitVec 9

/-- A code, left-aligned in 255 bits (R22). -/
abbrev CodeWord := BitVec 255

end Sys2Proof
end

