-- ==== Sys2Proof/Config.lean ====
section
/-!
DEFINITION. What the spec leaves as an argument of the model (00_scope.md rule R4, 92_eei_decisions.md section 4)
and the free values ("any value", 93_implementation_defined.md).
-/

namespace Sys2Proof

/-- `SRC_CAP` after reset: "the model may take 2^64 - 1" (92_eei_decisions.md section 4). DESIGN CHOICE, log 6. -/
def Config.resetSrcCap : Nat := 2 ^ 64 - 1

/-- `DST_CAP` after reset: the largest capacity whose every length fits `DST_LEN`. DESIGN CHOICE, log 6 and log 18. -/
def Config.resetDstCap : Nat := 2 ^ 64 - 1

/-- A byte of DST that is "any value" (U22), for the k-th free read. No body: nothing can be proved of it. Log 9. -/
opaque Config.freeByte : Nat → Byte

/-- A byte of SRC that the host has not placed since reset (R25), for the k-th free read. No body. Log 8. -/
opaque Config.freeSrcByte : Nat → Byte

/-- `left` or `right` of a Leaf entry of `NODE`, "any value" (R20, U24), for the k-th free read. No body. Log 12. -/
opaque Config.freeChild : Nat → NodeIx

/-- The value of a read of `DST_LEN` while BUSY, "any value" (R14, U17), for the k-th free read. No body. Log 9. -/
opaque Config.freeLen : Nat → Word64

end Sys2Proof
end

