-- ==== Sys2Proof/Syntax.lean ====
section
/-!
DEFINITION. The operations of the block: one constructor per row of spec/opcode_table.json (30_encoding.md rule R75).
-/

namespace Sys2Proof

/-- The three formats of R75: host commands, micro-operations, syntactic elements of the container. -/
inductive Format where
  | cmd
  | uop
  | container
  deriving DecidableEq, Repr

/-- Every operation of the block. Operands of micro-operations are "passed by the sequencer" (the table's notes);
operands of container elements are their field bits. -/
inductive Instr where
  -- host commands (46_host_commands.md)
  /-- COMPRESS, R200. -/
  | compress
  /-- DECOMPRESS, R201. -/
  | decompress
  -- frequency_counter (40_frequency_counter.md)
  /-- FC_CLEAR, R90. -/
  | fcClear
  /-- FC_COUNT(b), R91. -/
  | fcCount (b : Byte)
  /-- FC_SCAN, R92. -/
  | fcScan
  -- tree_builder (41_tree_builder.md)
  /-- TB_INIT, R101. -/
  | tbInit
  /-- TB_MERGE, R102. -/
  | tbMerge
  /-- TB_BUILD, R103. -/
  | tbBuild
  /-- TB_SER, R107. -/
  | tbSer
  /-- TB_DES, R109. -/
  | tbDes
  -- canonical_codebook_generator (42_codebook_generator.md)
  /-- CB_GEN, R130. -/
  | cbGen
  -- bitstream_packer (43_bitstream_packer_unpacker.md)
  /-- BW_RESET, R140. -/
  | bwReset
  /-- BW_PUT(b), R141. -/
  | bwPut (b : Bit)
  /-- BW_PUTN(n, v), R142: `n` in 1..255, `v` an unsigned value of `n` bits. -/
  | bwPutn (n : BitVec 8) (v : CodeWord)
  /-- BW_ALIGN, R143. -/
  | bwAlign
  /-- BW_FLUSH, R144. -/
  | bwFlush
  /-- BW_PUTBYTE(v), R145. -/
  | bwPutbyte (v : Byte)
  -- bitstream_unpacker (43_bitstream_packer_unpacker.md)
  /-- BR_RESET, R150. -/
  | brReset
  /-- BR_GET, R151. -/
  | brGet
  /-- BR_GETN(n), R152: `n` in 1..64. -/
  | brGetn (n : BitVec 7)
  /-- BR_ALIGN, R153. -/
  | brAlign
  /-- BR_GETBYTE, R154. -/
  | brGetbyte
  -- huffman_encoder (44_huffman_encoder.md)
  /-- ENC_COUNT, R161. -/
  | encCount
  /-- ENC_BUILD, R162. -/
  | encBuild
  /-- ENC_CODEBOOK, R164. -/
  | encCodebook
  /-- ENC_TREE, R165. -/
  | encTree
  /-- ENC_LEN, R166. -/
  | encLen
  /-- ENC_CODES, R167. -/
  | encCodes
  /-- ENC_FLUSH, R168. -/
  | encFlush
  -- huffman_decoder (45_huffman_decoder.md)
  /-- DEC_TREE, R181. -/
  | decTree
  /-- DEC_LEN, R182. -/
  | decLen
  /-- DEC_SYMBOL, R184. -/
  | decSymbol
  /-- DEC_SYMBOLS, R185. -/
  | decSymbols
  -- container elements (30_encoding.md)
  /-- T_EMPTY, presence bit 0, R62. -/
  | tEmpty
  /-- T_PRESENT, presence bit 1, R62. -/
  | tPresent
  /-- N_LEAF, Leaf marker 1 and the symbol, R63, R64. -/
  | nLeaf (sym : Byte)
  /-- N_INTERNAL, Internal marker 0, R63. -/
  | nInternal
  /-- F_LENGTH, the 64-bit length field, R67. -/
  | fLength (len : Word64)
  /-- F_CODE, the code of one input byte, 1 to 255 bits, R68. -/
  | fCode (bits : List Bit)
  /-- F_PAD, 0 to 7 pad bits, R66, R69. -/
  | fPad (bits : List Bit)
  deriving DecidableEq, Repr

/-- The format of an operation (R75). -/
def Instr.format : Instr → Format
  | .compress | .decompress => .cmd
  | .fcClear | .fcCount _ | .fcScan => .uop
  | .tbInit | .tbMerge | .tbBuild | .tbSer | .tbDes => .uop
  | .cbGen => .uop
  | .bwReset | .bwPut _ | .bwPutn _ _ | .bwAlign | .bwFlush | .bwPutbyte _ => .uop
  | .brReset | .brGet | .brGetn _ | .brAlign | .brGetbyte => .uop
  | .encCount | .encBuild | .encCodebook | .encTree | .encLen | .encCodes | .encFlush => .uop
  | .decTree | .decLen | .decSymbol | .decSymbols => .uop
  | .tEmpty | .tPresent | .nLeaf _ | .nInternal | .fLength _ | .fCode _ | .fPad _ => .container

end Sys2Proof
end

