-- ==== Sys2Proof/Machine/State.lean ====
section
/-!
DEFINITION. The architectural state of the block (10_state.md), plain data, and its value after reset (R25, R250).
INVENTORY.md, heading State, lists every field with its width, its rule and its reset value.
-/

namespace Sys2Proof.Machine

/-- `PHASE`, the sequencer's register (R15): "a model should use an enumeration". -/
inductive Phase where
  | idle
  | eCount
  | eBuild
  | eCodebook
  | eTree
  | eLen
  | eCodes
  | eFlush
  | dTree
  | dLen
  | dSymbols
  | done
  | error
  deriving DecidableEq, Repr

/-- `STATUS.ERRKIND` (R12, R220). -/
inductive ErrKind where
  | none
  | malformedContainer
  | truncatedBitstream
  | unreachableSymbol
  deriving DecidableEq, Repr

/-- `DSTATE` (R18): 0 = AT_ROOT, 1 = DESCENDING. -/
inductive DState where
  | atRoot
  | descending
  deriving DecidableEq, Repr

/-- An entry of `NODE` (R20) as the variant type of R21. The fields that R20 leaves unspecified are not stored: `sym` of
an Internal entry is read by no rule, and a read of `left` or `right` of a Leaf gives a free value (U24, log 12). `right` = `NIL` is the absent child of the N = 1 root. -/
inductive NodeEntry where
  | leaf (sym : Byte) (freq : Word64)
  | internal (freq : Word64) (left right : NodeIx)
  deriving DecidableEq, Repr

/-- What the host does (46_host_commands.md R205, 30_encoding.md R76). Registers are numbered 0 `CMD`, 1 `STATUS`,
2 `SRC_LEN`, 3 `DST_LEN` (R11 to R14). -/
inductive HostAction where
  /-- Assert reset (R250). -/
  | reset
  /-- Write one byte of SRC. -/
  | writeSrc (a : Word64) (v : Byte)
  /-- Read one byte of SRC. -/
  | readSrc (a : Word64)
  /-- Write one byte of DST. -/
  | writeDst (a : Word64) (v : Byte)
  /-- Read one byte of DST. -/
  | readDst (a : Word64)
  /-- Write register `r`; of the value, `CMD` takes the low 8 bits. -/
  | writeReg (r : Nat) (v : Word64)
  /-- Read register `r`. -/
  | readReg (r : Nat)
  /-- `WAIT`: read `STATUS` until `STATE` is DONE or ERROR (R76). -/
  | wait
  /-- The host does nothing for one step of the block (the model's own, log 4). -/
  | pass
  deriving DecidableEq, Repr

/-- A table memory: (index, entry) pairs, indices strictly rising. An index not listed holds nothing (R25). -/
abbrev Table (α : Type) := List (Nat × α)

/-- A byte space: (address, byte) pairs, addresses strictly rising. An address not listed holds nothing (R25). -/
abbrev Memory := List Host.Cell

/-- The machine. -/
structure State where
  /-- `STATUS.ERRKIND` (R12). -/
  errKind : ErrKind
  /-- `SRC_LEN` (R13). -/
  srcLen : Word64
  /-- `DST_LEN` (R14, R17). -/
  dstLen : Word64
  /-- `PHASE` (R15); `STATUS.STATE` is a function of it (R12). -/
  phase : Phase
  /-- `N` (R16). -/
  n : BitVec 9
  /-- `ROOT` (R16). -/
  root : NodeIx
  /-- `NINT` (R16). -/
  nint : BitVec 9
  /-- `NALLOC` (R16). -/
  nalloc : BitVec 10
  /-- `ACTIVE` (R16): the indices whose bit is 1, strictly rising (log 15). -/
  active : List Nat
  /-- `ACC` (R17). -/
  acc : BitVec 8
  /-- `NBITS` (R17). -/
  nbits : BitVec 3
  /-- `BP` (R17). -/
  bp : BitVec 67
  /-- `EPOS` (R18). -/
  epos : Word64
  /-- `COUNT` (R18). -/
  count : Word64
  /-- `EMITTED` (R18). -/
  emitted : Word64
  /-- `DNODE` (R18). -/
  dnode : NodeIx
  /-- `DSTATE` (R18). -/
  dstate : DState
  /-- `FREQ[0..255]` (R19). -/
  freq : Table Word64
  /-- `NODE[0..510]` (R20). -/
  node : Table NodeEntry
  /-- `CODE_LEN[0..255]` (R22). -/
  codeLen : Table (BitVec 8)
  /-- `CODE_BITS[0..255]` (R22). -/
  codeBits : Table CodeWord
  /-- SRC (R40). -/
  src : Memory
  /-- DST (R40). -/
  dst : Memory
  /-- `SRC_CAP`, an argument of the model (R4); no step changes it (log 6). -/
  srcCap : Nat
  /-- `DST_CAP`, an argument of the model (R4); no step changes it (log 6). -/
  dstCap : Nat
  /-- The model's own: the host's next actions, earliest first (log 4). -/
  host : List HostAction
  /-- The model's own: operations set on the sequencer's select lines from outside, issued one a step (log 3). -/
  issue : List Instr
  /-- The model's own: what the last separately issued reading micro-operation returned (log 5). -/
  ret : Word64
  /-- The model's own: what the host's last read returned (log 5). -/
  reply : Word64
  /-- The model's own: how many free values have been read (logs 8, 9, 12). -/
  freeNext : Nat
  deriving DecidableEq, Repr

/-- Why the machine stops: storage that the spec says does not exist or holds nothing. All are safe: the hardware, if it
ever came there, might go on. -/
inductive Fault where
  /-- A read, by the block, of a byte of SRC that the host has not placed since reset (R25, R41). Raised by every
  operation that reads SRC. Safe. -/
  | srcUnwritten
  /-- An access of SRC where it does not exist: the block's read at an index not below `SRC_LEN` (R41, R156), BR_GETBYTE
  past the end (R154), a host's access at an index not below `SRC_CAP`. Safe. -/
  | srcOutOfRange
  /-- A host's access of DST at an index not below `DST_CAP` (R40). Safe. -/
  | dstOutOfRange
  /-- A read of an entry of `FREQ` that holds nothing (R25, U23). Raised by FC_COUNT and TB_INIT. Safe. -/
  | freqUnwritten
  /-- A read of an entry of `NODE` that holds nothing (R25, U23). Raised by the tree operations and the descent. Safe. -/
  | nodeUnwritten
  /-- An access of `NODE` at an index above 510 (R20). Raised by the tree operations and the descent. Safe. -/
  | nodeOutOfRange
  /-- A read of an entry of `CODE_LEN` or `CODE_BITS` that holds nothing (R25, U23). Raised by ENC_CODES. Safe. -/
  | codeUnwritten
  deriving DecidableEq, Repr

/-- Why an operation has no meaning. All are safe. -/
inductive Refusal where
  /-- An instruction rejected by name because it has no meaning yet. Raised by exec only. Safe. -/
  | notModelled (mnemonic : String)
  /-- A run would write DST at an index not below `DST_CAP` (R42, U9). Raised by every write of DST by the block. Safe. -/
  | dstFull
  /-- `SRC_LEN` greater than `SRC_CAP` (R13, U18). Raised by the write of `SRC_LEN` and by the two commands. Safe. -/
  | srcLenOverCap
  /-- A host access while BUSY to which the spec gives no meaning (R49 item 4, R205, U17). Safe. -/
  | hostAccessWhileBusy
  /-- A byte without a code in pass 2 (R167, U8). Raised by ENC_CODES. Safe. -/
  | noCode
  /-- TB_MERGE with fewer than two active nodes, or "the only" active node of TB_BUILD where there is not exactly one:
  the rule names a node that does not exist (R102, R103). Safe. -/
  | noSuchActiveNode
  /-- `NODE` does not hold a tree below `ROOT`: a traversal goes deeper than `NODE` has entries, or a path is longer than
  a code can be (R20, R22, R113). Raised by TB_SER and CB_GEN. Safe. -/
  | notATree
  /-- F_CODE with bits that are no path from the root to a Leaf: not an F_CODE of this tree (R68). Safe. -/
  | notACode
  /-- A register number other than 0 to 3 (R11 to R14). Raised by the host's register accesses. Safe. -/
  | noSuchRegister
  deriving DecidableEq, Repr

/-- `NIL`, the absent-node index (R4). -/
def NIL : NodeIx := 511#9

/-- The machine right after reset (R25): the table memories and the byte spaces hold nothing. -/
def State.reset : State where
  errKind := .none
  srcLen := 0
  dstLen := 0
  phase := .idle
  n := 0
  root := NIL
  nint := 0
  nalloc := 0
  active := []
  acc := 0
  nbits := 0
  bp := 0
  epos := 0
  count := 0
  emitted := 0
  dnode := 0
  dstate := .atRoot
  freq := []
  node := []
  codeLen := []
  codeBits := []
  src := []
  dst := []
  srcCap := Config.resetSrcCap
  dstCap := Config.resetDstCap
  host := []
  issue := []
  ret := 0
  reply := 0
  freeNext := 0

end Sys2Proof.Machine
end

