-- ==== Sys2Proof/Machine/Ops.lean ====
section
/-!
DEFINITION. Named operations: tables and byte spaces in canonical form, the result of an operation, reads and writes of
registers, memories and byte spaces, the start of a run (run_init, R252), taking an error (raise, R226) and reset (R250).
-/

namespace Sys2Proof.Machine

/-! ### Tables in canonical form -/

/-- The entry at index `i`; nothing where no entry is listed. -/
def Table.get {α : Type} : Table α → Nat → Option α
  | [], _ => none
  | (k, v) :: t, i => if i = k then some v else Table.get t i

/-- The table with the entry `v` at index `i`, indices still rising. -/
def Table.set {α : Type} : Table α → Nat → α → Table α
  | [], i, v => [(i, v)]
  | (k, w) :: t, i, v =>
    if i < k then (i, v) :: (k, w) :: t
    else if i = k then (i, v) :: t
    else (k, w) :: Table.set t i v

/-- Every index is at least `lo` and the indices rise strictly. -/
def Table.risesFrom {α : Type} : Nat → Table α → Bool
  | _, [] => true
  | lo, (k, _) :: t => decide (lo ≤ k) && Table.risesFrom (k + 1) t

/-- The canonical form: indices strictly rising. No entry is excluded, since an unlisted index holds nothing (R25). -/
def Table.wf {α : Type} (t : Table α) : Bool := Table.risesFrom 0 t

/-- The canonical form of a byte space. -/
def Memory.wf (m : Memory) : Bool := Table.wf m

/-- The table that holds `v` at every index from 0 to `n - 1` and nothing else. -/
def Table.fill {α : Type} (n : Nat) (v : α) : Table α := (List.range n).map fun i => (i, v)

/-! ### Sets of node indices (`ACTIVE`) -/

/-- The rising list with the index `i` in it: `ACTIVE[i] <- 1`. -/
def insertIx : List Nat → Nat → List Nat
  | [], i => [i]
  | k :: t, i => if i < k then i :: k :: t else if i = k then k :: t else k :: insertIx t i

/-- The list without the index `i`: `ACTIVE[i] <- 0`. -/
def eraseIx (l : List Nat) (i : Nat) : List Nat := l.filter fun k => k != i

/-- Indices at least `lo`, strictly rising. -/
def risesFromIx : Nat → List Nat → Bool
  | _, [] => true
  | lo, k :: t => decide (lo ≤ k) && risesFromIx (k + 1) t

/-! ### The result of an operation -/

/-- What an operation answers: a value and a state; the state after an error was raised (R226), with which the run has
ended; or a stop. -/
inductive Res (α : Type) where
  | ok (a : α) (s : State)
  | raised (s : State)
  | fault (f : Fault)
  | refused (r : Refusal)
  deriving DecidableEq, Repr

/-- An operation of the block: what it answers in a state. -/
abbrev Op (α : Type) := State → Res α

/-- Sequence: the next operation runs only where the first one ended without an error or a stop (R6, R226). -/
def Res.andThen {α β : Type} (r : Res α) (k : α → Op β) : Res β :=
  match r with
  | .ok a s => k a s
  | .raised s => .raised s
  | .fault f => .fault f
  | .refused e => .refused e

/-- An operation's result as the outcome of a step: a raised error is a next state (R226). -/
def Res.outcome {α : Type} (r : Res α) : Host.Outcome State Fault Refusal :=
  match r with
  | .ok _ s => .next s
  | .raised s => .next s
  | .fault f => .fault f
  | .refused e => .refused e

/-- `f` for every element, in order. -/
def forEach {β : Type} (f : β → Op Unit) : List β → Op Unit
  | [], s => .ok () s
  | x :: xs, s => (f x s).andThen fun _ s => forEach f xs s

/-- `f`, `k` times. -/
def repeatOp (f : Op Unit) : Nat → Op Unit
  | 0, s => .ok () s
  | k + 1, s => (f s).andThen fun _ s => repeatOp f k s

/-- The value an optional read gives, or the fault that names what holds nothing. -/
def orFault {α : Type} (o : Option α) (f : Fault) (s : State) : Res α :=
  match o with
  | some a => .ok a s
  | none => .fault f

/-! ### Errors: entry (R226) and what leaves them (R227) -/

/-- `raise Kind`: ERRKIND <- code, DST_LEN <- 0, PHASE <- ERROR, and no further micro-operation is issued (R226). -/
def State.raised (s : State) (k : ErrKind) : State :=
  { s with errKind := k, dstLen := 0, phase := .error, issue := [] }

/-- `raise` as an operation: it ends the run (R6, R226). -/
def raise {α : Type} (k : ErrKind) : Op α := fun s => .raised (s.raised k)

/-- run_init (R252). It is also what leaves ERROR and DONE: nothing is restored (R227). -/
def State.runInit (s : State) : State :=
  { s with
    errKind := .none
    acc := 0, nbits := 0, dstLen := 0
    bp := 0
    epos := 0, count := 0, emitted := 0, dnode := 0, dstate := .atRoot
    n := 0, nint := 0, nalloc := 0, root := NIL, active := [] }

/-- The start of a run (R200, R201): run_init, then the first phase, which makes STATE = BUSY (R12). -/
def State.started (s : State) (p : Phase) : State := { s.runInit with phase := p }

/-- Reset asserted in any state (R250, R251, R206): every register and memory as after reset. The platform's
capacities, the host's own list and the count of free values are not the block's. Log 20. -/
def State.resetInput (s : State) : State :=
  { State.reset with srcCap := s.srcCap, dstCap := s.dstCap, host := s.host, freeNext := s.freeNext }

/-- A free value has been read: the next one is another (logs 8, 9, 12). -/
def State.freeRead (s : State) : State := { s with freeNext := s.freeNext + 1 }

/-! ### Byte spaces -/

/-- `MemRead(SRC + a, 1)` by the block: only below `SRC_LEN` (R41, R156). -/
def readSrc (a : Nat) : Op Byte := fun s =>
  if a < s.srcLen.toNat then orFault (Table.get s.src a) .srcUnwritten s else .fault .srcOutOfRange

/-- `MemWrite(DST + DST_LEN, 1, v)`, then `DST_LEN <- DST_LEN + 1` (R42, R141, R145, R184). -/
def pushDst (v : Byte) : Op Unit := fun s =>
  if s.dstLen.toNat < s.dstCap then
    .ok () { s with dst := Table.set s.dst s.dstLen.toNat v, dstLen := s.dstLen + 1 }
  else .refused .dstFull

/-! ### Table memories -/

/-- `FREQ[b]` (R19). -/
def readFreq (b : Nat) : Op Word64 := fun s => orFault (Table.get s.freq b) .freqUnwritten s

/-- `FREQ[b] <- v` (R19). -/
def writeFreq (b : Nat) (v : Word64) : Op Unit := fun s => .ok () { s with freq := Table.set s.freq b v }

/-- The entry `NODE[i]` (R20); `NODE[511]` and above do not exist. -/
def readNode (i : Nat) : Op NodeEntry := fun s =>
  if i < 511 then orFault (Table.get s.node i) .nodeUnwritten s else .fault .nodeOutOfRange

/-- `NODE[i] <- e` (R20). -/
def writeNode (i : Nat) (e : NodeEntry) : Op Unit := fun s =>
  if i < 511 then .ok () { s with node := Table.set s.node i e } else .fault .nodeOutOfRange

/-- `CODE_LEN[b]` (R22). -/
def readCodeLen (b : Nat) : Op (BitVec 8) := fun s => orFault (Table.get s.codeLen b) .codeUnwritten s

/-- `CODE_BITS[b]` (R22). -/
def readCodeBits (b : Nat) : Op CodeWord := fun s => orFault (Table.get s.codeBits b) .codeUnwritten s

/-- `CODE_LEN[b] <- l`, `CODE_BITS[b] <- w` (R130). -/
def writeCode (b : Nat) (l : BitVec 8) (w : CodeWord) : Op Unit := fun s =>
  .ok () { s with codeLen := Table.set s.codeLen b l, codeBits := Table.set s.codeBits b w }

end Sys2Proof.Machine
end

