-- ==== Sys2Proof/Machine/Flags.lean ====
section
/-!
DEFINITION. Flags and conditions (10_state.md rules R12, R23; 30_encoding.md rule R73): pure functions of registers.
-/

namespace Sys2Proof.Machine

/-- `STATUS.STATE` as a function of `PHASE` (R12, R15): 0 IDLE, 1 BUSY, 2 DONE, 3 ERROR. -/
def stateCode : Phase → BitVec 2
  | .idle => 0
  | .eCount | .eBuild | .eCodebook | .eTree | .eLen | .eCodes | .eFlush => 1
  | .dTree | .dLen | .dSymbols => 1
  | .done => 2
  | .error => 3

/-- The code of `STATUS.ERRKIND` (R12, R220). -/
def errCode : ErrKind → BitVec 2
  | .none => 0
  | .malformedContainer => 1
  | .truncatedBitstream => 2
  | .unreachableSymbol => 3

/-- The `STATUS` byte (R12, R73): `STATE` in [1:0], `ERRKIND` in [3:2], [7:4] zero. -/
def statusByte (s : State) : Byte := (0#4) ++ errCode s.errKind ++ stateCode s.phase

/-- `STATUS.STATE` = BUSY: PHASE is an encoder's or decoder's phase (R12). -/
def Phase.isBusy (p : Phase) : Bool := stateCode p == 1

/-- A run is in progress. -/
def busy (s : State) : Bool := s.phase.isBusy

/-- The number of bits SRC holds for the run: `8 · SRC_LEN` (R150). -/
def srcBits (s : State) : Nat := 8 * s.srcLen.toNat

/-- `EXHAUSTED`: `BP = 8 · SRC_LEN` (R23). -/
def exhausted (s : State) : Bool := s.bp.toNat == srcBits s

/-- `8 · SRC_LEN − BP < k`: fewer than `k` bits remain (R110, R182). -/
def fewerThan (k : Nat) (s : State) : Bool := decide (srcBits s < s.bp.toNat + k)

/-- `ALIGNED` of the packer: `NBITS = 0` (R23). -/
def packerAligned (s : State) : Bool := s.nbits == 0

/-- `ALIGNED` of the unpacker: `BP[2:0] = 0` (R23). -/
def unpackerAligned (s : State) : Bool := s.bp.toNat % 8 == 0

/-- `TREE_IS_EMPTY`: `ROOT = NIL` (R23). -/
def treeIsEmpty (s : State) : Bool := s.root == NIL

end Sys2Proof.Machine
end

