-- ==== Sys2Proof/Machine/Commands.lean ====
section
/-!
DEFINITION. The host commands COMPRESS and DECOMPRESS (46_host_commands.md rules R200 to R203).
-/

namespace Sys2Proof.Machine

/-- A command that names the first phase `p` of its run: ignored while BUSY (R202), else the run starts (R200, R201).
`SRC_LEN` greater than `SRC_CAP` has no meaning (R13, U18). The run itself is the sequencer's, phase by phase (log 1). -/
def command (p : Phase) : Op Unit := fun s =>
  if busy s then .ok () s
  else if s.srcLen.toNat ≤ s.srcCap then .ok () (s.started p)
  else .refused .srcLenOverCap

/-- COMPRESS (R200): the run begins with phase E_COUNT (R160). -/
def execCompress (s : State) : Host.Outcome State Fault Refusal := (command .eCount s).outcome

/-- DECOMPRESS (R201): the run begins with phase D_TREE (R180). -/
def execDecompress (s : State) : Host.Outcome State Fault Refusal := (command .dTree s).outcome

end Sys2Proof.Machine
end

