-- ==== Sys2Proof/WellFormed.lean ====
section
/-!
DEFINITION. The ranges the spec gives the operands (opcode_table.json "source_fields" and "repeat"; R68, R69, R142,
R152). Every operand not named here is legal at every value of its type.
-/

namespace Sys2Proof

/-- BW_PUTN: `n` from 1 to 255, `v` an unsigned value of `n` bits (R142). -/
def Instr.putnOk (n : BitVec 8) (v : CodeWord) : Bool :=
  decide (1 ≤ n.toNat) && decide (v.toNat < 2 ^ n.toNat)

/-- BR_GETN: `n` from 1 to 64 (R152). -/
def Instr.getnOk (n : BitVec 7) : Bool :=
  decide (1 ≤ n.toNat) && decide (n.toNat ≤ 64)

/-- F_CODE: 1 to 255 bits (R68). -/
def Instr.codeOk (bits : List Bit) : Bool :=
  decide (1 ≤ bits.length) && decide (bits.length ≤ 255)

/-- F_PAD: 0 to 7 bits (R66, R69). -/
def Instr.padOk (bits : List Bit) : Bool :=
  decide (bits.length ≤ 7)

/-- An operation whose operands are in the spec's ranges. -/
def Instr.wellFormed : Instr → Bool
  | .bwPutn n v => Instr.putnOk n v
  | .brGetn n => Instr.getnOk n
  | .fCode bits => Instr.codeOk bits
  | .fPad bits => Instr.padOk bits
  | .compress | .decompress => true
  | .fcClear | .fcCount _ | .fcScan => true
  | .tbInit | .tbMerge | .tbBuild | .tbSer | .tbDes => true
  | .cbGen => true
  | .bwReset | .bwPut _ | .bwAlign | .bwFlush | .bwPutbyte _ => true
  | .brReset | .brGet | .brAlign | .brGetbyte => true
  | .encCount | .encBuild | .encCodebook | .encTree | .encLen | .encCodes | .encFlush => true
  | .decTree | .decLen | .decSymbol | .decSymbols => true
  | .tEmpty | .tPresent | .nLeaf _ | .nInternal | .fLength _ => true

end Sys2Proof
end

