-- ==== Sys2Proof/Decode.lean ====
section
/-!
DEFINITION. The encodings of the three formats (30_encoding.md rules R60 to R75): bit sequences, the decoder (total,
rejecting by name), the encoder, and the decoder applied to the opcode table's words.
-/

namespace Sys2Proof

/-- `bits_N(v)`: the `n` bits of `v`, most significant first (R5). -/
def bitsOf (n v : Nat) : List Bit :=
  (List.range n).map fun j => v.testBit (n - 1 - j)

/-- The unsigned number whose bits, most significant first, are `bs`, after the value `acc`. -/
def natOfFrom (acc : Nat) : List Bit → Nat
  | [] => acc
  | b :: bs => natOfFrom (2 * acc + b.toNat) bs

/-- The unsigned number whose bits, most significant first, are `bs`: the inverse of `bitsOf`. -/
def natOf (bs : List Bit) : Nat := natOfFrom 0 bs

/-- The first `n` bits and the rest, or nothing where fewer are there. -/
def splitBits : Nat → List Bit → Option (List Bit × List Bit)
  | 0, bs => some ([], bs)
  | _ + 1, [] => none
  | n + 1, b :: bs =>
    match splitBits n bs with
    | some (x, rest) => some (b :: x, rest)
    | none => none

/-- The Leaf marker (R63). -/
def markLeaf : Bit := true

/-- The Internal marker (R63). -/
def markInternal : Bit := false

/-- The presence bit of a container with a tree (R62). -/
def treePresent : Bit := true

/-- The presence bit of the empty tree (R62). -/
def treeEmpty : Bit := false

/-- Where a bit sequence is decoded: the `CMD` register, the sequencer's select lines, or a place of the container's
grammar (R60, R61). The length of a code is what the tree says (R68), that of a pad what the alignment says (R66). -/
inductive Channel where
  | cmd
  | uop
  | presence
  | node
  | length
  | code (n : Nat)
  | pad (n : Nat)
  deriving DecidableEq, Repr

/-- Why the decoder rejects a bit sequence. -/
inductive DecodeError where
  /-- Fewer bits than the encoding has. -/
  | tooShort
  /-- A `CMD` value other than 0x01 and 0x02: reserved (R72, R74). -/
  | reservedCommand
  /-- `UOPSEL` 31: no micro-operation (R75). -/
  | noSuchOperation
  /-- A bit count outside the range of R142, R152, R68 or R66. -/
  | countOutOfRange
  /-- BW_PUTN with a value of more than `n` bits (R142). -/
  | valueTooWide
  deriving DecidableEq, Repr

/-- The next `n` bits as a number, and the rest. -/
def takeNat (n : Nat) (bs : List Bit) : Except DecodeError (Nat × List Bit) :=
  match splitBits n bs with
  | some (x, rest) => .ok (natOf x, rest)
  | none => .error .tooShort

/-- The host command of a `CMD` value (R72). -/
def decodeCmd (v : Nat) : Except DecodeError Instr :=
  if v = 1 then .ok .compress
  else if v = 2 then .ok .decompress
  else .error .reservedCommand

/-- BW_PUTN's operand bits: `n - 1` in 8 bits, then `v` in 255 (log 14). -/
def decodePutn (bs : List Bit) : Except DecodeError (Instr × List Bit) :=
  match takeNat 8 bs with
  | .error e => .error e
  | .ok (m, bs) =>
    match takeNat 255 bs with
    | .error e => .error e
    | .ok (v, rest) =>
      if m = 255 then .error .countOutOfRange
      else if v < 2 ^ (m + 1) then .ok (.bwPutn (BitVec.ofNat 8 (m + 1)) (BitVec.ofNat 255 v), rest)
      else .error .valueTooWide

/-- BR_GETN's operand bits: `n - 1` in 7 bits (log 14). -/
def decodeGetn (bs : List Bit) : Except DecodeError (Instr × List Bit) :=
  match takeNat 7 bs with
  | .error e => .error e
  | .ok (m, rest) =>
    if m < 64 then .ok (.brGetn (BitVec.ofNat 7 (m + 1)), rest) else .error .countOutOfRange

/-- An operation with one operand of `w` bits. -/
def decodeWith (w : Nat) (f : Nat → Instr) (bs : List Bit) : Except DecodeError (Instr × List Bit) :=
  match takeNat w bs with
  | .error e => .error e
  | .ok (v, rest) => .ok (f v, rest)

/-- The micro-operation whose `UOPSEL` is `sel` (R75), its operand bits taken from `bs` (log 14). -/
def decodeUop (sel : Nat) (bs : List Bit) : Except DecodeError (Instr × List Bit) :=
  match sel with
  | 0 => .ok (.fcClear, bs)
  | 1 => decodeWith 8 (fun v => .fcCount (BitVec.ofNat 8 v)) bs
  | 2 => .ok (.fcScan, bs)
  | 3 => .ok (.tbInit, bs)
  | 4 => .ok (.tbMerge, bs)
  | 5 => .ok (.tbBuild, bs)
  | 6 => .ok (.tbSer, bs)
  | 7 => .ok (.tbDes, bs)
  | 8 => .ok (.cbGen, bs)
  | 9 => .ok (.bwReset, bs)
  | 10 => decodeWith 1 (fun v => .bwPut (v == 1)) bs
  | 11 => decodePutn bs
  | 12 => .ok (.bwAlign, bs)
  | 13 => .ok (.bwFlush, bs)
  | 14 => decodeWith 8 (fun v => .bwPutbyte (BitVec.ofNat 8 v)) bs
  | 15 => .ok (.brReset, bs)
  | 16 => .ok (.brGet, bs)
  | 17 => decodeGetn bs
  | 18 => .ok (.brAlign, bs)
  | 19 => .ok (.brGetbyte, bs)
  | 20 => .ok (.encCount, bs)
  | 21 => .ok (.encBuild, bs)
  | 22 => .ok (.encCodebook, bs)
  | 23 => .ok (.encTree, bs)
  | 24 => .ok (.encLen, bs)
  | 25 => .ok (.encCodes, bs)
  | 26 => .ok (.encFlush, bs)
  | 27 => .ok (.decTree, bs)
  | 28 => .ok (.decLen, bs)
  | 29 => .ok (.decSymbol, bs)
  | 30 => .ok (.decSymbols, bs)
  | _ => .error .noSuchOperation

/-- The presence bit (R62). -/
def decodePresence : List Bit → Except DecodeError (Instr × List Bit)
  | [] => .error .tooShort
  | b :: rest => .ok (if b = treePresent then .tPresent else .tEmpty, rest)

/-- A node of the tree field: `1ssssssss` or `0` (R61, R63, R64). -/
def decodeNode : List Bit → Except DecodeError (Instr × List Bit)
  | [] => .error .tooShort
  | b :: rest =>
    if b = markLeaf then decodeWith 8 (fun v => .nLeaf (BitVec.ofNat 8 v)) rest else .ok (.nInternal, rest)

/-- A run of `n` field bits, `n` in `lo..hi` (R66, R68). -/
def decodeRun (lo hi n : Nat) (f : List Bit → Instr) (bs : List Bit) : Except DecodeError (Instr × List Bit) :=
  if n < lo ∨ hi < n then .error .countOutOfRange
  else
    match splitBits n bs with
    | some (x, rest) => .ok (f x, rest)
    | none => .error .tooShort

/-- The decoder: the operation that the bits `bs` begin with at a channel, and the bits after it. -/
def decode (c : Channel) (bs : List Bit) : Except DecodeError (Instr × List Bit) :=
  match c with
  | .cmd =>
    match takeNat 8 bs with
    | .error e => .error e
    | .ok (v, rest) =>
      match decodeCmd v with
      | .error e => .error e
      | .ok i => .ok (i, rest)
  | .uop =>
    match takeNat 5 bs with
    | .error e => .error e
    | .ok (sel, rest) => decodeUop sel rest
  | .presence => decodePresence bs
  | .node => decodeNode bs
  | .length => decodeWith 64 (fun v => .fLength (BitVec.ofNat 64 v)) bs
  | .code n => decodeRun 1 255 n .fCode bs
  | .pad n => decodeRun 0 7 n .fPad bs

/-- The channel an operation is decoded at. -/
def channel : Instr → Channel
  | .compress | .decompress => .cmd
  | .fcClear | .fcCount _ | .fcScan => .uop
  | .tbInit | .tbMerge | .tbBuild | .tbSer | .tbDes => .uop
  | .cbGen => .uop
  | .bwReset | .bwPut _ | .bwPutn _ _ | .bwAlign | .bwFlush | .bwPutbyte _ => .uop
  | .brReset | .brGet | .brGetn _ | .brAlign | .brGetbyte => .uop
  | .encCount | .encBuild | .encCodebook | .encTree | .encLen | .encCodes | .encFlush => .uop
  | .decTree | .decLen | .decSymbol | .decSymbols => .uop
  | .tEmpty | .tPresent => .presence
  | .nLeaf _ | .nInternal => .node
  | .fLength _ => .length
  | .fCode bits => .code bits.length
  | .fPad bits => .pad bits.length

/-- The bits of an operation at its channel (R60 to R75; operand bits of micro-operations: log 14). -/
def encode : Instr → List Bit
  | .compress => bitsOf 8 1
  | .decompress => bitsOf 8 2
  | .fcClear => bitsOf 5 0
  | .fcCount b => bitsOf 5 1 ++ bitsOf 8 b.toNat
  | .fcScan => bitsOf 5 2
  | .tbInit => bitsOf 5 3
  | .tbMerge => bitsOf 5 4
  | .tbBuild => bitsOf 5 5
  | .tbSer => bitsOf 5 6
  | .tbDes => bitsOf 5 7
  | .cbGen => bitsOf 5 8
  | .bwReset => bitsOf 5 9
  | .bwPut b => bitsOf 5 10 ++ [b]
  | .bwPutn n v => bitsOf 5 11 ++ (bitsOf 8 (n.toNat - 1) ++ bitsOf 255 v.toNat)
  | .bwAlign => bitsOf 5 12
  | .bwFlush => bitsOf 5 13
  | .bwPutbyte v => bitsOf 5 14 ++ bitsOf 8 v.toNat
  | .brReset => bitsOf 5 15
  | .brGet => bitsOf 5 16
  | .brGetn n => bitsOf 5 17 ++ bitsOf 7 (n.toNat - 1)
  | .brAlign => bitsOf 5 18
  | .brGetbyte => bitsOf 5 19
  | .encCount => bitsOf 5 20
  | .encBuild => bitsOf 5 21
  | .encCodebook => bitsOf 5 22
  | .encTree => bitsOf 5 23
  | .encLen => bitsOf 5 24
  | .encCodes => bitsOf 5 25
  | .encFlush => bitsOf 5 26
  | .decTree => bitsOf 5 27
  | .decLen => bitsOf 5 28
  | .decSymbol => bitsOf 5 29
  | .decSymbols => bitsOf 5 30
  | .tEmpty => [treeEmpty]
  | .tPresent => [treePresent]
  | .nLeaf sym => markLeaf :: bitsOf 8 sym.toNat
  | .nInternal => [markInternal]
  | .fLength len => bitsOf 64 len.toNat
  | .fCode bits => bits
  | .fPad bits => bits

/-- What the decoder gives, without the rest. -/
def decoded (r : Except DecodeError (Instr × List Bit)) : Option Instr :=
  match r with
  | .ok (i, _) => some i
  | .error _ => none

/-- The micro-operation whose `UOPSEL` is `w`, its operand bits zero (no operand has more than 263 bits). -/
def decodeSelector (w : Nat) : Option Instr :=
  if w < 32 then decoded (decode .uop (bitsOf 5 w ++ List.replicate 263 false)) else none

/-- The operation of a word of spec/opcode_table.json, `nbits` the row's width in whole bytes (its width in bits is
understood too). 8 bits: a `CMD` value where it is one (R72), else a `UOPSEL` (R75): the table gives COMPRESS and FC_COUNT,
DECOMPRESS and FC_SCAN the same number (log 14). 1 bit: a presence bit; 9 bits: a node with its symbol; 64 bits: a length. -/
def decodeTableWord (nbits w : Nat) : Option Instr :=
  if nbits = 8 then
    match decoded (decode .cmd (bitsOf 8 w)) with
    | some i => some i
    | none => decodeSelector w
  else if nbits = 5 then decodeSelector w
  else if nbits = 1 then decoded (decode .presence (bitsOf 1 w))
  else if nbits = 9 ∨ nbits = 16 then
    if w < 512 then decoded (decode .node (bitsOf 9 w)) else none
  else if nbits = 64 then decoded (decode .length (bitsOf 64 w))
  else none

end Sys2Proof
end

