-- ==== Sys2Proof/Machine/Operands.lean ====
section
/-!
DEFINITION. Operand forms: bits of bytes and registers, node keys and children, codes (R5, R22, R100, R130, R131).
-/

namespace Sys2Proof.Machine

/-- Bit `7 − k` of a byte: the k-th bit of the stream that the byte carries (R43). -/
def streamBit (v : Byte) (k : Nat) : Bit := v.getLsbD (7 - k)

/-- The byte with bit `7 − k` replaced by `b` (R141: `ACC[7 − NBITS] <- b`). -/
def setStreamBit (v : Byte) (k : Nat) (b : Bit) : Byte :=
  (v &&& ~~~(1#8 <<< (7 - k))) ||| (if b then 1#8 <<< (7 - k) else 0#8)

/-- How many zero bits lie between a position of `k` bits and the next byte boundary (R143). -/
def padLen (k : Nat) : Nat := (8 - k % 8) % 8

/-- `BP` moved up to the next byte boundary: `8 · ceil(BP / 8)` (R153). -/
def alignUp (bp : BitVec 67) : BitVec 67 := BitVec.ofNat 67 (8 * ((bp.toNat + 7) / 8))

/-- Byte `k` of the length field: `SRC_LEN[63 − 8k : 56 − 8k]` (R166). -/
def lenByte (v : Word64) (k : Nat) : Byte := (v >>> (56 - 8 * k)).setWidth 8

/-- The bits of `path` left-aligned in 255 bits, zero below (R22, R130). -/
def leftAligned (path : List Bit) : CodeWord :=
  BitVec.ofNat 255 (natOf path * 2 ^ (255 - path.length))

/-- `CODE_BITS[s][254 : 255 − n]`, the `n` bits of a code as a value (R142, R167). -/
def codeValue (n : Nat) (w : CodeWord) : CodeWord := w >>> (255 - n)

/-- `NODE[i].freq`, which both kinds hold (R20). -/
def NodeEntry.freq : NodeEntry → Word64
  | .leaf _ f => f
  | .internal f _ _ => f

/-- The child of an entry that a bit selects: 0 = `left`, 1 = `right` (R131, R184). A Leaf's is any value (R20, U24): a
free value (log 12). -/
def readChild (b : Bit) (e : NodeEntry) : Op NodeIx := fun s =>
  match e with
  | .leaf _ _ => .ok (Config.freeChild s.freeNext) s.freeRead
  | .internal _ l r => .ok (if b then r else l) s

/-- `key(i) < key(j)`: frequency first, then node index, lexicographically (R5, R100). -/
def keyLt (f : Word64) (i : Nat) (g : Word64) (j : Nat) : Bool :=
  decide (f.toNat < g.toNat) || (decide (f.toNat = g.toNat) && decide (i < j))

/-- The least of the nodes of a list by key, with its frequency, or nothing for the empty list (R100). -/
def leastOf : List Nat → Op (Option (Nat × Word64))
  | [], s => .ok none s
  | i :: is, s =>
    (readNode i s).andThen fun e s =>
      (leastOf is s).andThen fun m s =>
        match m with
        | none => .ok (some (i, e.freq)) s
        | some (j, g) => .ok (some (if keyLt e.freq i g j then (i, e.freq) else (j, g))) s

/-- Remove the least active node: the `i` with `ACTIVE[i] = 1` and `key(i)` least, `ACTIVE[i] <- 0` (R102). -/
def removeLeast : Op (Nat × Word64) := fun s =>
  (leastOf s.active s).andThen fun m s =>
    match m with
    | none => .refused .noSuchActiveNode
    | some (i, f) => .ok (i, f) { s with active := eraseIx s.active i }

/-- "the only i with ACTIVE[i] = 1" (R103). -/
def onlyActive : Op Nat := fun s =>
  match s.active with
  | [i] => .ok i s
  | _ => .refused .noSuchActiveNode

end Sys2Proof.Machine
end

