-- ==== Sys2Proof/Machine/Packer.lean ====
section
/-!
DEFINITION. bitstream_packer: BW_RESET, BW_PUT, BW_PUTN, BW_ALIGN, BW_FLUSH, BW_PUTBYTE
(43_bitstream_packer_unpacker.md rules R140 to R146).
-/

namespace Sys2Proof.Machine

/-- BW_RESET: `ACC <- 0; NBITS <- 0; DST_LEN <- 0` (R140). -/
def bwReset : Op Unit := fun s => .ok () { s with acc := 0, nbits := 0, dstLen := 0 }

/-- BW_PUT(b) (R141). -/
def bwPut (b : Bit) : Op Unit := fun s =>
  let acc := setStreamBit s.acc s.nbits.toNat b
  if s.nbits.toNat = 7 then
    (pushDst acc s).andThen fun _ s => .ok () { s with acc := 0, nbits := 0 }
  else .ok () { s with acc := acc, nbits := s.nbits + 1 }

/-- BW_PUT of every bit of a sequence, in order. -/
def putBits (bs : List Bit) : Op Unit := forEach bwPut bs

/-- BW_PUTN(n, v): the `n` low bits of `v`, most significant first (R142). -/
def bwPutn (n : Nat) (v : CodeWord) : Op Unit := putBits (bitsOf n v.toNat)

/-- BW_ALIGN: `while NBITS != 0: BW_PUT(0)` (R143). -/
def bwAlign : Op Unit := fun s => putBits (List.replicate (padLen s.nbits.toNat) false) s

/-- BW_FLUSH: its effect is that of BW_ALIGN (R144). -/
def bwFlush : Op Unit := bwAlign

/-- BW_PUTBYTE(v) (R145). Its precondition `NBITS = 0` is the sequencer's and is not tested (log 11). -/
def bwPutbyte (v : Byte) : Op Unit := pushDst v

/-- BW_RESET (R140). -/
def execBwReset (s : State) : Host.Outcome State Fault Refusal := (bwReset s).outcome

/-- BW_PUT(b) (R141). -/
def execBwPut (b : Bit) (s : State) : Host.Outcome State Fault Refusal := (bwPut b s).outcome

/-- BW_PUTN(n, v) (R142). -/
def execBwPutn (n : BitVec 8) (v : CodeWord) (s : State) : Host.Outcome State Fault Refusal :=
  (bwPutn n.toNat v s).outcome

/-- BW_ALIGN (R143). -/
def execBwAlign (s : State) : Host.Outcome State Fault Refusal := (bwAlign s).outcome

/-- BW_FLUSH (R144). -/
def execBwFlush (s : State) : Host.Outcome State Fault Refusal := (bwFlush s).outcome

/-- BW_PUTBYTE(v) (R145). -/
def execBwPutbyte (v : Byte) (s : State) : Host.Outcome State Fault Refusal := (bwPutbyte v s).outcome

end Sys2Proof.Machine
end

