-- ==== Sys2Proof/Machine/Unpacker.lean ====
section
/-!
DEFINITION. bitstream_unpacker: BR_RESET, BR_GET, BR_GETN, BR_ALIGN, BR_GETBYTE
(43_bitstream_packer_unpacker.md rules R150 to R156).
-/

namespace Sys2Proof.Machine

/-- BR_RESET: `BP <- 0` (R150). -/
def brReset : Op Unit := fun s => .ok () { s with bp := 0 }

/-- BR_GET: bit `7 − BP[2:0]` of `SRC[BP[66:3]]`, then `BP <- BP + 1` (R151). Past the end the byte does not exist (R41). -/
def brGet : Op Bit := fun s =>
  (readSrc (s.bp.toNat / 8) s).andThen fun v s =>
    .ok (streamBit v (s.bp.toNat % 8)) { s with bp := s.bp + 1 }

/-- The loop of BR_GETN: `v <- (v << 1) | BR_GET` (R152). -/
def getLoop : Nat → Word64 → Op Word64
  | 0, v, s => .ok v s
  | k + 1, v, s => (brGet s).andThen fun b s => getLoop k ((v <<< 1) ||| (BitVec.ofBool b).setWidth 64) s

/-- BR_GETN(n), the first bit read the most significant (R152). -/
def brGetn (n : Nat) : Op Word64 := getLoop n 0

/-- BR_ALIGN: `BP <- 8 · ceil(BP / 8)`, the skipped bits not examined (R153). -/
def brAlign : Op Unit := fun s => .ok () { s with bp := alignUp s.bp }

/-- BR_GETBYTE (R154). That `BP` is aligned is the sequencer's duty and is not tested. With fewer than 8 bits left it
stops, also where `BP` stands unaligned inside the last byte, which exists: R154 gives it no effect there, and the model
takes its second precondition whole (DESIGN CHOICE, log 11). -/
def brGetbyte : Op Byte := fun s =>
  if fewerThan 8 s then .fault .srcOutOfRange
  else (readSrc (s.bp.toNat / 8) s).andThen fun v s => .ok v { s with bp := s.bp + 8 }

/-- What a separately issued reading micro-operation returns to the sequencer is kept in `ret` (log 5). -/
def keepRet (v : Word64) : Op Unit := fun s => .ok () { s with ret := v }

/-- BR_RESET (R150). -/
def execBrReset (s : State) : Host.Outcome State Fault Refusal := (brReset s).outcome

/-- BR_GET (R151), "returns one bit". -/
def execBrGet (s : State) : Host.Outcome State Fault Refusal :=
  ((brGet s).andThen fun b s => keepRet ((BitVec.ofBool b).setWidth 64) s).outcome

/-- BR_GETN(n) (R152), "returns an unsigned value of n bits". -/
def execBrGetn (n : BitVec 7) (s : State) : Host.Outcome State Fault Refusal :=
  ((brGetn n.toNat s).andThen fun v s => keepRet v s).outcome

/-- BR_ALIGN (R153). -/
def execBrAlign (s : State) : Host.Outcome State Fault Refusal := (brAlign s).outcome

/-- BR_GETBYTE (R154), "returns one byte". -/
def execBrGetbyte (s : State) : Host.Outcome State Fault Refusal :=
  ((brGetbyte s).andThen fun v s => keepRet (v.setWidth 64) s).outcome

end Sys2Proof.Machine
end

