-- ==== Sys2Proof/Machine/TreeBuilder.lean ====
section
/-!
DEFINITION. tree_builder: TB_INIT, TB_MERGE, TB_BUILD, TB_SER, TB_DES (41_tree_builder.md rules R100 to R113).
-/

namespace Sys2Proof.Machine

/-! ### Construction -/

/-- `ACTIVE[i] <- 1`. -/
def activate (i : Nat) : Op Unit := fun s => .ok () { s with active := insertIx s.active i }

/-- One round of TB_INIT: a symbol with `FREQ[b] > 0` gets its Leaf `NODE[b]` (R101). -/
def initLeaf (b : Nat) : Op Unit := fun s =>
  (readFreq b s).andThen fun f s =>
    if f = 0 then .ok () s
    else
      (writeNode b (.leaf (BitVec.ofNat 8 b) f) s).andThen fun _ s =>
        (activate b s).andThen fun _ s => .ok () { s with n := s.n + 1 }

/-- TB_INIT (R101). -/
def tbInit : Op Unit := fun s =>
  forEach initLeaf (List.range 256) { s with n := 0, nint := 0, nalloc := 0, root := NIL, active := [] }

/-- TB_MERGE (R102): first removed = left. -/
def tbMerge : Op Unit := fun s =>
  (removeLeast s).andThen fun a s =>
    (removeLeast s).andThen fun b s =>
      let k := 256 + s.nint.toNat
      (writeNode k (.internal (a.2 + b.2) (BitVec.ofNat 9 a.1) (BitVec.ofNat 9 b.1)) s).andThen fun _ s =>
        (activate k s).andThen fun _ s => .ok () { s with nint := s.nint + 1 }

/-- The case N = 1 of TB_BUILD (R103, R104): the sole Leaf is the left child, the right child is absent. -/
def buildOne : Op Unit := fun s =>
  (onlyActive s).andThen fun a s =>
    (readNode a s).andThen fun e s =>
      (writeNode 256 (.internal e.freq (BitVec.ofNat 9 a) NIL) s).andThen fun _ s =>
        .ok () { s with active := insertIx (eraseIx s.active a) 256, nint := 1, root := 256#9 }

/-- The case N ≥ 2 of TB_BUILD (R103): N − 1 merges. -/
def buildMany : Op Unit := fun s =>
  (repeatOp tbMerge (s.n.toNat - 1) s).andThen fun _ s =>
    (onlyActive s).andThen fun r s => .ok () { s with root := BitVec.ofNat 9 r }

/-- TB_BUILD (R103). -/
def tbBuild : Op Unit := fun s =>
  (tbInit s).andThen fun _ s =>
    if s.n = 0 then .ok () { s with root := NIL }
    else if s.n = 1 then buildOne s
    else buildMany s

/-! ### Serialization -/

/-- No path of a tree passes more nodes than `NODE` has entries (R20, R113). -/
def pathBound : Nat := 511

/-- ser_node(i) (R108); the first argument bounds the depth. -/
def serNode : Nat → Nat → Op Unit
  | 0, _, _ => .refused .notATree
  | d + 1, i, s =>
    (readNode i s).andThen fun e s =>
      match e with
      | .leaf sym _ =>
        (bwPut markLeaf s).andThen fun _ s => putBits (bitsOf 8 sym.toNat) s
      | .internal _ l r =>
        (bwPut markInternal s).andThen fun _ s =>
          (serNode d l.toNat s).andThen fun _ s => serNode d r.toNat s

/-- TB_SER (R107); TB_DES inverts it (R112). -/
def tbSer : Op Unit := fun s =>
  if s.root = NIL then bwPut treeEmpty s
  else
    (bwPut treePresent s).andThen fun _ s =>
      (readNode s.root.toNat s).andThen fun e s =>
        (readChild true e s).andThen fun r s =>
          if r = NIL then (readChild false e s).andThen fun l s => serNode pathBound l.toNat s
          else serNode pathBound s.root.toNat s

/-! ### Deserialization -/

/-- `i <- NALLOC; NALLOC <- NALLOC + 1`, after the capacity check of case M3 (R110, R111). -/
def allocNode : Op Nat := fun s =>
  if 511 ≤ s.nalloc.toNat then raise .malformedContainer s
  else .ok s.nalloc.toNat { s with nalloc := s.nalloc + 1 }

/-- des_node() (R110); the first argument bounds the depth, and the capacity check comes first whenever it is 512. -/
def desNode : Nat → Op Nat
  | 0, s => raise .malformedContainer s
  | d + 1, s =>
    (allocNode s).andThen fun i s =>
      if exhausted s then raise .malformedContainer s
      else
        (brGet s).andThen fun m s =>
          if m = markLeaf then
            if fewerThan 8 s then raise .malformedContainer s
            else
              (brGetn 8 s).andThen fun v s =>
                (writeNode i (.leaf (v.setWidth 8) 0) s).andThen fun _ s => .ok i s
          else
            (desNode d s).andThen fun l s =>
              (desNode d s).andThen fun r s =>
                (writeNode i (.internal 0 (BitVec.ofNat 9 l) (BitVec.ofNat 9 r)) s).andThen fun _ s => .ok i s

/-- What TB_DES does with the root it parsed: a Leaf gets the synthesized root of the N = 1 tree (R109). -/
def setParsedRoot (r : Nat) : Op Unit := fun s =>
  (readNode r s).andThen fun e s =>
    match e with
    | .leaf _ _ =>
      let j := s.nalloc.toNat
      (writeNode j (.internal 0 (BitVec.ofNat 9 r) NIL) s).andThen fun _ s =>
        .ok () { s with nalloc := s.nalloc + 1, root := BitVec.ofNat 9 j }
    | .internal _ _ _ => .ok () { s with root := BitVec.ofNat 9 r }

/-- The greatest depth of des_node's recursion and one (R113). -/
def desBound : Nat := 512

/-- TB_DES (R109), the inverse of TB_SER (R112). -/
def tbDes : Op Unit := fun s =>
  let s := { s with nalloc := 0, n := 0, nint := 0, root := NIL }
  if exhausted s then raise .malformedContainer s
  else
    (brGet s).andThen fun p s =>
      if p = treePresent then (desNode desBound s).andThen fun r s => setParsedRoot r s
      else .ok () { s with root := NIL }

/-- TB_INIT (R101). -/
def execTbInit (s : State) : Host.Outcome State Fault Refusal := (tbInit s).outcome

/-- TB_MERGE (R102). -/
def execTbMerge (s : State) : Host.Outcome State Fault Refusal := (tbMerge s).outcome

/-- TB_BUILD (R103). -/
def execTbBuild (s : State) : Host.Outcome State Fault Refusal := (tbBuild s).outcome

/-- TB_SER (R107). -/
def execTbSer (s : State) : Host.Outcome State Fault Refusal := (tbSer s).outcome

/-- TB_DES (R109). -/
def execTbDes (s : State) : Host.Outcome State Fault Refusal := (tbDes s).outcome

end Sys2Proof.Machine
end

