-- ==== Sys2Proof/Machine/Decoder.lean ====
section
/-!
DEFINITION. huffman_decoder: the operations of a DECOMPRESS run (45_huffman_decoder.md rules R181 to R187).
-/

namespace Sys2Proof.Machine

/-- DEC_TREE: TB_DES, BR_ALIGN (R181). -/
def decTree : Op Unit := fun s => (tbDes s).andThen fun _ s => brAlign s

/-- `COUNT <- COUNT · 256 + BR_GETBYTE` (R182). -/
def countByte : Op Unit := fun s =>
  (brGetbyte s).andThen fun v s => .ok () { s with count := s.count * 256 + v.setWidth 64 }

/-- The last test of DEC_LEN, case M5: an empty tree with a count that is not zero (R182, R221). -/
def checkCount : Op Unit := fun s =>
  if s.root = NIL ∧ s.count ≠ 0 then raise .malformedContainer s else .ok () s

/-- DEC_LEN (R182), case M4 first. -/
def decLen : Op Unit := fun s =>
  if fewerThan 64 s then raise .malformedContainer s
  else (repeatOp countByte 8 { s with count := 0 }).andThen fun _ s => checkCount s

/-- `DNODE <- ROOT; DSTATE <- AT_ROOT` (R184). -/
def atRoot (s : State) : State := { s with dnode := s.root, dstate := .atRoot }

/-- One step down by the bit `b` (R184): the child becomes `DNODE`; an absent child is UnreachableSymbol. A Leaf answers
its symbol; an Internal node makes `DSTATE` DESCENDING. -/
def descendBit (b : Bit) : Op (Option Byte) := fun s =>
  (readNode s.dnode.toNat s).andThen fun e s =>
    (readChild b e s).andThen fun c s =>
      if c = NIL then raise .unreachableSymbol s
      else
        (readNode c.toNat s).andThen fun e s =>
          match e with
          | .leaf sym _ => .ok (some sym) { s with dnode := c }
          | .internal _ _ _ => .ok none { s with dnode := c, dstate := .descending }

/-- "emit that Leaf's Symbol": the byte to DST, `DST_LEN + 1`, `EMITTED + 1`, `DSTATE <- AT_ROOT` (R184). -/
def emitSymbol (sym : Byte) : Op Unit := fun s =>
  (pushDst sym s).andThen fun _ s => .ok () { s with emitted := s.emitted + 1, dstate := .atRoot }

/-- The loop of DEC_SYMBOL (R184). Every round consumes a bit, so the rounds are bounded by the bits left. -/
def symbolLoop : Nat → Op Unit
  | 0, s => raise .truncatedBitstream s
  | k + 1, s =>
    if exhausted s then raise .truncatedBitstream s
    else
      (brGet s).andThen fun b s =>
        (descendBit b s).andThen fun m s =>
          match m with
          | some sym => emitSymbol sym s
          | none => symbolLoop k s

/-- One more round than SRC has bits left: the last one finds `EXHAUSTED` (R185, R260). -/
def roundsLeft (s : State) : Nat := srcBits s - s.bp.toNat + 1

/-- DEC_SYMBOL (R184). -/
def decSymbol : Op Unit := fun s => symbolLoop (roundsLeft s) (atRoot s)

/-- The loop of DEC_SYMBOLS: `while EMITTED < COUNT: DEC_SYMBOL` (R185). Every symbol consumes a bit. -/
def symbolsLoop : Nat → Op Unit
  | 0, s => raise .truncatedBitstream s
  | k + 1, s =>
    if s.emitted.toNat < s.count.toNat then (decSymbol s).andThen fun _ s => symbolsLoop k s
    else .ok () s

/-- DEC_SYMBOLS (R185). -/
def decSymbols : Op Unit := fun s => symbolsLoop (roundsLeft s) { s with emitted := 0 }

/-- DEC_TREE (R181). -/
def execDecTree (s : State) : Host.Outcome State Fault Refusal := (decTree s).outcome

/-- DEC_LEN (R182). -/
def execDecLen (s : State) : Host.Outcome State Fault Refusal := (decLen s).outcome

/-- DEC_SYMBOL (R184). -/
def execDecSymbol (s : State) : Host.Outcome State Fault Refusal := (decSymbol s).outcome

/-- DEC_SYMBOLS (R185). -/
def execDecSymbols (s : State) : Host.Outcome State Fault Refusal := (decSymbols s).outcome

end Sys2Proof.Machine
end

