-- ==== Sys2Proof/Machine/Container.lean ====
section
/-!
DEFINITION. The container's elements (30_encoding.md rules R61 to R69, R75): what the decoder does once it has recognised
the element at `BP`. The element's bits are its operand, so they are not read again; where SRC ends before they do, the
decoder raises the error of that place (R221, R222). Log 13.
-/

namespace Sys2Proof.Machine

/-- `k` recognised bits are consumed: `BP <- BP + k`; where fewer are left, the error of the place. -/
def consume (k : Nat) (err : ErrKind) : Op Unit := fun s =>
  if fewerThan k s then raise err s else .ok () { s with bp := s.bp + BitVec.ofNat 67 k }

/-- The presence bit 0: `ROOT <- NIL` (R62, R109). -/
def tEmpty : Op Unit := fun s =>
  (consume 1 .malformedContainer s).andThen fun _ s => .ok () { s with root := NIL }

/-- The presence bit 1: a node follows (R62, R109). -/
def tPresent : Op Unit := consume 1 .malformedContainer

/-- A Leaf: an entry is allocated, the marker and the symbol are consumed, the entry is written (R63, R64, R110). -/
def nLeaf (sym : Byte) : Op Unit := fun s =>
  (allocNode s).andThen fun i s =>
    (consume 1 .malformedContainer s).andThen fun _ s =>
      (consume 8 .malformedContainer s).andThen fun _ s => writeNode i (.leaf sym 0) s

/-- An Internal marker: an entry is allocated and the marker consumed; the entry is written when both subtrees have
been read (R63, R110). -/
def nInternal : Op Unit := fun s =>
  (allocNode s).andThen fun _ s => consume 1 .malformedContainer s

/-- The length field: `COUNT`, with the tests of cases M4 and M5 (R67, R182). -/
def fLength (len : Word64) : Op Unit := fun s =>
  (consume 64 .malformedContainer s).andThen fun _ s => checkCount { s with count := len }

/-- The descent along the bits of a code: it must end, with the last bit, at a Leaf (R68, R184). -/
def followCode : List Bit → Op Unit
  | [], _ => .refused .notACode
  | b :: bs, s =>
    (consume 1 .truncatedBitstream s).andThen fun _ s =>
      (descendBit b s).andThen fun m s =>
        match m with
        | some sym => if bs = [] then emitSymbol sym s else .refused .notACode
        | none => followCode bs s

/-- The code of one input byte: one symbol is decoded (R68, R184). -/
def fCode (bits : List Bit) : Op Unit := fun s => followCode bits (atRoot s)

/-- Pad bits: after the tree field the unpacker moves to the byte boundary (R66, R153); after the last code bit nothing is
examined (R69, R186). The bits themselves are ignored. The spec gives the element an effect in the phases of the decoder
only: that it moves `BP` in IDLE, ERROR and the encoder's phases too is the model's (DESIGN CHOICE, log 13). -/
def fPad : Op Unit := fun s =>
  if s.phase = .dSymbols ∨ s.phase = .done then .ok () s else brAlign s

/-- T_EMPTY (R62). -/
def execTEmpty (s : State) : Host.Outcome State Fault Refusal := (tEmpty s).outcome

/-- T_PRESENT (R62). -/
def execTPresent (s : State) : Host.Outcome State Fault Refusal := (tPresent s).outcome

/-- N_LEAF (R63, R64). -/
def execNLeaf (sym : Byte) (s : State) : Host.Outcome State Fault Refusal := (nLeaf sym s).outcome

/-- N_INTERNAL (R63). -/
def execNInternal (s : State) : Host.Outcome State Fault Refusal := (nInternal s).outcome

/-- F_LENGTH (R67). -/
def execFLength (len : Word64) (s : State) : Host.Outcome State Fault Refusal := (fLength len s).outcome

/-- F_CODE (R68). -/
def execFCode (bits : List Bit) (s : State) : Host.Outcome State Fault Refusal := (fCode bits s).outcome

/-- F_PAD (R66, R69). -/
def execFPad (_bits : List Bit) (s : State) : Host.Outcome State Fault Refusal := (fPad s).outcome

end Sys2Proof.Machine
end

