-- ==== Sys2Proof/Machine/Codebook.lean ====
section
/-!
DEFINITION. canonical_codebook_generator: CB_GEN (42_codebook_generator.md rules R130, R131).
-/

namespace Sys2Proof.Machine

/-- walk(i, path) (R130): a left edge is the bit 0, a right edge the bit 1 (R131). The first argument bounds the depth. -/
def walk : Nat → Nat → List Bit → Op Unit
  | 0, _, _, _ => .refused .notATree
  | d + 1, i, path, s =>
    (readNode i s).andThen fun e s =>
      match e with
      | .leaf sym _ =>
        if path.length ≤ 255 then
          writeCode sym.toNat (BitVec.ofNat 8 path.length) (leftAligned path) s
        else .refused .notATree
      | .internal _ l r =>
        (walk d l.toNat (path ++ [false]) s).andThen fun _ s =>
          if r = NIL then .ok () s else walk d r.toNat (path ++ [true]) s

/-- CB_GEN (R130). -/
def cbGen : Op Unit := fun s =>
  let s := { s with codeLen := Table.fill 256 0 }
  if s.root = NIL then .ok () s else walk pathBound s.root.toNat [] s

/-- CB_GEN (R130). -/
def execCbGen (s : State) : Host.Outcome State Fault Refusal := (cbGen s).outcome

end Sys2Proof.Machine
end

