-- ==== Sys2Proof/Machine/FrequencyCounter.lean ====
section
/-!
DEFINITION. frequency_counter: FC_CLEAR, FC_COUNT, FC_SCAN (40_frequency_counter.md rules R90 to R92).
-/

namespace Sys2Proof.Machine

/-- FC_CLEAR: every entry of `FREQ` 0 (R90). -/
def fcClear : Op Unit := fun s => .ok () { s with freq := Table.fill 256 0 }

/-- FC_COUNT(b): `FREQ[b] <- FREQ[b] + 1` (R91). -/
def fcCount (b : Byte) : Op Unit := fun s =>
  (readFreq b.toNat s).andThen fun v s => writeFreq b.toNat (v + 1) s

/-- The loop of FC_SCAN: `while EPOS < SRC_LEN` (R92). From `EPOS = 0` it makes `SRC_LEN` rounds. -/
def scanLoop : Nat → Op Unit
  | 0, s => .ok () s
  | k + 1, s =>
    if s.epos.toNat < s.srcLen.toNat then
      (readSrc s.epos.toNat s).andThen fun v s =>
        (fcCount v s).andThen fun _ s => scanLoop k { s with epos := s.epos + 1 }
    else .ok () s

/-- FC_SCAN (R92). -/
def fcScan : Op Unit := fun s =>
  (fcClear s).andThen fun _ s => scanLoop s.srcLen.toNat { s with epos := 0 }

/-- FC_CLEAR (R90). -/
def execFcClear (s : State) : Host.Outcome State Fault Refusal := (fcClear s).outcome

/-- FC_COUNT(b) (R91). -/
def execFcCount (b : Byte) (s : State) : Host.Outcome State Fault Refusal := (fcCount b s).outcome

/-- FC_SCAN (R92). -/
def execFcScan (s : State) : Host.Outcome State Fault Refusal := (fcScan s).outcome

end Sys2Proof.Machine
end

