-- ==== Sys2Proof/Machine/Encoder.lean ====
section
/-!
DEFINITION. huffman_encoder: the phase operations of a COMPRESS run (44_huffman_encoder.md rules R161 to R168).
-/

namespace Sys2Proof.Machine

/-- ENC_TREE: the tree field, padded to a byte boundary (R165). -/
def encTree : Op Unit := fun s => (tbSer s).andThen fun _ s => bwAlign s

/-- ENC_LEN: the 8 bytes of `SRC_LEN`, most significant first (R166). -/
def encLen : Op Unit := fun s => forEach (fun k => bwPutbyte (lenByte s.srcLen k)) (List.range 8) s

/-- The code of the byte `b` put through the packer; a byte without a code has no meaning (R167, U8). -/
def putCode (b : Nat) : Op Unit := fun s =>
  (readCodeLen b s).andThen fun l s =>
    if l = 0 then .refused .noCode
    else (readCodeBits b s).andThen fun w s => bwPutn l.toNat (codeValue l.toNat w) s

/-- The loop of ENC_CODES: `while EPOS < SRC_LEN` (R167). From `EPOS = 0` it makes `SRC_LEN` rounds. -/
def codesLoop : Nat → Op Unit
  | 0, s => .ok () s
  | k + 1, s =>
    if s.epos.toNat < s.srcLen.toNat then
      (readSrc s.epos.toNat s).andThen fun v s =>
        (putCode v.toNat s).andThen fun _ s => codesLoop k { s with epos := s.epos + 1 }
    else .ok () s

/-- ENC_CODES: the second pass over SRC (R167). -/
def encCodes : Op Unit := fun s => codesLoop s.srcLen.toNat { s with epos := 0 }

/-- ENC_COUNT: FC_SCAN (R161). -/
def execEncCount (s : State) : Host.Outcome State Fault Refusal := (fcScan s).outcome

/-- ENC_BUILD: TB_BUILD (R162). -/
def execEncBuild (s : State) : Host.Outcome State Fault Refusal := (tbBuild s).outcome

/-- ENC_CODEBOOK: CB_GEN (R164). -/
def execEncCodebook (s : State) : Host.Outcome State Fault Refusal := (cbGen s).outcome

/-- ENC_TREE: TB_SER, BW_ALIGN (R165). -/
def execEncTree (s : State) : Host.Outcome State Fault Refusal := (encTree s).outcome

/-- ENC_LEN (R166). -/
def execEncLen (s : State) : Host.Outcome State Fault Refusal := (encLen s).outcome

/-- ENC_CODES (R167). -/
def execEncCodes (s : State) : Host.Outcome State Fault Refusal := (encCodes s).outcome

/-- ENC_FLUSH: BW_FLUSH (R168). -/
def execEncFlush (s : State) : Host.Outcome State Fault Refusal := (bwFlush s).outcome

end Sys2Proof.Machine
end

