-- ==== Sys2Proof/Machine/Dispatch.lean ====
section
/-!
DEFINITION. One arm per operation of the block (30_encoding.md rule R75).
-/

namespace Sys2Proof.Machine

def exec (i : Instr) (s : State) : Host.Outcome State Fault Refusal :=
  match i with
  -- host commands
  | .compress => Sys2Proof.Machine.execCompress s
  | .decompress => Sys2Proof.Machine.execDecompress s
  -- frequency_counter
  | .fcClear => Sys2Proof.Machine.execFcClear s
  | .fcCount b => Sys2Proof.Machine.execFcCount b s
  | .fcScan => Sys2Proof.Machine.execFcScan s
  -- tree_builder
  | .tbInit => Sys2Proof.Machine.execTbInit s
  | .tbMerge => Sys2Proof.Machine.execTbMerge s
  | .tbBuild => Sys2Proof.Machine.execTbBuild s
  | .tbSer => Sys2Proof.Machine.execTbSer s
  | .tbDes => Sys2Proof.Machine.execTbDes s
  -- canonical_codebook_generator
  | .cbGen => Sys2Proof.Machine.execCbGen s
  -- bitstream_packer
  | .bwReset => Sys2Proof.Machine.execBwReset s
  | .bwPut b => Sys2Proof.Machine.execBwPut b s
  | .bwPutn n v => Sys2Proof.Machine.execBwPutn n v s
  | .bwAlign => Sys2Proof.Machine.execBwAlign s
  | .bwFlush => Sys2Proof.Machine.execBwFlush s
  | .bwPutbyte v => Sys2Proof.Machine.execBwPutbyte v s
  -- bitstream_unpacker
  | .brReset => Sys2Proof.Machine.execBrReset s
  | .brGet => Sys2Proof.Machine.execBrGet s
  | .brGetn n => Sys2Proof.Machine.execBrGetn n s
  | .brAlign => Sys2Proof.Machine.execBrAlign s
  | .brGetbyte => Sys2Proof.Machine.execBrGetbyte s
  -- huffman_encoder
  | .encCount => Sys2Proof.Machine.execEncCount s
  | .encBuild => Sys2Proof.Machine.execEncBuild s
  | .encCodebook => Sys2Proof.Machine.execEncCodebook s
  | .encTree => Sys2Proof.Machine.execEncTree s
  | .encLen => Sys2Proof.Machine.execEncLen s
  | .encCodes => Sys2Proof.Machine.execEncCodes s
  | .encFlush => Sys2Proof.Machine.execEncFlush s
  -- huffman_decoder
  | .decTree => Sys2Proof.Machine.execDecTree s
  | .decLen => Sys2Proof.Machine.execDecLen s
  | .decSymbol => Sys2Proof.Machine.execDecSymbol s
  | .decSymbols => Sys2Proof.Machine.execDecSymbols s
  -- container elements
  | .tEmpty => Sys2Proof.Machine.execTEmpty s
  | .tPresent => Sys2Proof.Machine.execTPresent s
  | .nLeaf sym => Sys2Proof.Machine.execNLeaf sym s
  | .nInternal => Sys2Proof.Machine.execNInternal s
  | .fLength len => Sys2Proof.Machine.execFLength len s
  | .fCode bits => Sys2Proof.Machine.execFCode bits s
  | .fPad bits => Sys2Proof.Machine.execFPad bits s

end Sys2Proof.Machine
end

