-- ==== Sys2Proof/Machine/HostPort.lean ====
section
/-!
DEFINITION. What the host may do and what it gets (46_host_commands.md rules R200 to R208; 20_memory.md rule R49;
10_state.md rules R11 to R14).
-/

namespace Sys2Proof.Machine

/-- The host reads the value `v`. -/
def State.replied (s : State) (v : Word64) : State := { s with reply := v }

/-- The host reads a byte of DST that is any value (U22). Log 9. -/
def State.repliedFreeByte (s : State) : State :=
  s.freeRead.replied ((Config.freeByte s.freeNext).setWidth 64)

/-- The host reads a byte of SRC that it has not placed since reset: unspecified (R25). Log 8. -/
def State.repliedFreeSrcByte (s : State) : State :=
  s.freeRead.replied ((Config.freeSrcByte s.freeNext).setWidth 64)

/-- The host reads `DST_LEN` while BUSY: any value (R14). Log 9. -/
def State.repliedFreeLen (s : State) : State :=
  s.freeRead.replied (Config.freeLen s.freeNext)

/-- A write of the 8-bit value `v` to `CMD` (R11, R72): a command, or no change of state (R203). -/
def writeCmd (v : Byte) (s : State) : Host.Outcome State Fault Refusal :=
  match decoded (decode .cmd (bitsOf 8 v.toNat)) with
  | some i => exec i s
  | none => .next s

/-- A write of `SRC_LEN` (R13): no meaning while BUSY (R254), nor beyond `SRC_CAP` (U18). -/
def writeSrcLen (v : Word64) (s : State) : Host.Outcome State Fault Refusal :=
  if busy s then .refused .hostAccessWhileBusy
  else if v.toNat ≤ s.srcCap then .next { s with srcLen := v }
  else .refused .srcLenOverCap

/-- A write of `DST_LEN` changes no state (R14); while BUSY it has no meaning (R49 item 4, U17). -/
def writeDstLen (s : State) : Host.Outcome State Fault Refusal :=
  if busy s then .refused .hostAccessWhileBusy else .next s

/-- A register write (R11 to R14). A write of `STATUS` changes no state (R12). -/
def writeReg (r : Nat) (v : Word64) (s : State) : Host.Outcome State Fault Refusal :=
  match r with
  | 0 => writeCmd (v.setWidth 8) s
  | 1 => .next s
  | 2 => writeSrcLen v s
  | 3 => writeDstLen s
  | _ => .refused .noSuchRegister

/-- A register read, without side effects (R204): `CMD` reads 0x00 (R11); `DST_LEN` while BUSY is any value (R14). -/
def readReg (r : Nat) (s : State) : Host.Outcome State Fault Refusal :=
  match r with
  | 0 => .next (s.replied 0)
  | 1 => .next (s.replied ((statusByte s).setWidth 64))
  | 2 => .next (s.replied s.srcLen)
  | 3 => .next (if busy s then s.repliedFreeLen else s.replied s.dstLen)
  | _ => .refused .noSuchRegister

/-- The host writes a byte of SRC: not while BUSY (R205, R254). -/
def hostWriteSrc (a : Word64) (v : Byte) (s : State) : Host.Outcome State Fault Refusal :=
  if busy s then .refused .hostAccessWhileBusy
  else if a.toNat < s.srcCap then .next { s with src := Table.set s.src a.toNat v }
  else .fault .srcOutOfRange

/-- The host reads a byte of SRC, in any state (R205); one it has not placed since reset is unspecified (R25, log 8). -/
def hostReadSrc (a : Word64) (s : State) : Host.Outcome State Fault Refusal :=
  if a.toNat < s.srcCap then
    match Table.get s.src a.toNat with
    | some v => .next (s.replied (v.setWidth 64))
    | none => .next s.repliedFreeSrcByte
  else .fault .srcOutOfRange

/-- The host writes a byte of DST: not while BUSY (R205). -/
def hostWriteDst (a : Word64) (v : Byte) (s : State) : Host.Outcome State Fault Refusal :=
  if busy s then .refused .hostAccessWhileBusy
  else if a.toNat < s.dstCap then .next { s with dst := Table.set s.dst a.toNat v }
  else .fault .dstOutOfRange

/-- The byte of a result that DST holds at `a`: in DONE and below `DST_LEN` (R205, R256); elsewhere any value (U22). -/
def resultByte (a : Nat) (s : State) : Option Byte :=
  if s.phase = .done ∧ a < s.dstLen.toNat then Table.get s.dst a else none

/-- The host reads a byte of DST: not while BUSY (R205). -/
def hostReadDst (a : Word64) (s : State) : Host.Outcome State Fault Refusal :=
  if busy s then .refused .hostAccessWhileBusy
  else if a.toNat < s.dstCap then
    match resultByte a.toNat s with
    | some v => .next (s.replied (v.setWidth 64))
    | none => .next s.repliedFreeByte
  else .fault .dstOutOfRange

/-- `WAIT` has ended: the host has read DONE or ERROR in `STATUS` (R76). -/
def waitOver (s : State) : Bool := s.phase == .done || s.phase == .error

/-- One action of the host (R205). `wait` and `pass` leave the step to the block (Sequencer.lean), so that here they are
what is left of them when it is over: the `STATUS` byte that the last read of WAIT gave. -/
def hostAct (h : HostAction) (s : State) : Host.Outcome State Fault Refusal :=
  match h with
  | .reset => .next s.resetInput
  | .writeSrc a v => hostWriteSrc a v s
  | .readSrc a => hostReadSrc a s
  | .writeDst a v => hostWriteDst a v s
  | .readDst a => hostReadDst a s
  | .writeReg r v => writeReg r v s
  | .readReg r => readReg r s
  | .wait => .next (s.replied ((statusByte s).setWidth 64))
  | .pass => .next s

end Sys2Proof.Machine
end

