-- ==== Sys2Proof/Machine/Sequencer.lean ====
section
/-!
DEFINITION. The hardwired sequencer (10_state.md rule R15; 44_huffman_encoder.md rule R160; 45_huffman_decoder.md rule
R180): which operation a phase issues, which phase comes next, one step of the block, and one step of the whole.
-/

namespace Sys2Proof.Machine

/-- The operation a phase issues (R160, R180); none in IDLE, DONE and ERROR, where the block is quiescent (R235). -/
def phaseOp : Phase → Option Instr
  | .eCount => some .encCount
  | .eBuild => some .encBuild
  | .eCodebook => some .encCodebook
  | .eTree => some .encTree
  | .eLen => some .encLen
  | .eCodes => some .encCodes
  | .eFlush => some .encFlush
  | .dTree => some .decTree
  | .dLen => some .decLen
  | .dSymbols => some .decSymbols
  | .idle | .done | .error => none

/-- The arrow of R15 that leaves the phase of a state whose operation has ended; ERROR is not left. -/
def nextPhase (s : State) : Phase :=
  match s.phase with
  | .eCount => .eBuild
  | .eBuild => if s.n = 0 then .eTree else .eCodebook
  | .eCodebook => .eTree
  | .eTree => .eLen
  | .eLen => if s.n = 0 then .done else .eCodes
  | .eCodes => .eFlush
  | .eFlush => .done
  | .dTree => .dLen
  | .dLen => if s.root = NIL then .done else .dSymbols
  | .dSymbols => .done
  | .idle => .idle
  | .done => .done
  | .error => .error

/-- `PHASE <- target` (R6, R15). -/
def State.advanced (s : State) : State := { s with phase := nextPhase s }

/-- The state of a next outcome changed, a stop kept. -/
def onNext (f : State → State) (o : Host.Outcome State Fault Refusal) : Host.Outcome State Fault Refusal :=
  match o with
  | .next s => .next (f s)
  | .fault e => .fault e
  | .refused e => .refused e

/-- One step of the block. An operation set on the select lines is issued alone, and `PHASE` does not move for it (log 3).
Else the phase's operation is issued and `PHASE` moves (R15, R160, R180). Else the block is quiescent (R235). -/
def blockStep (s : State) : Host.Outcome State Fault Refusal :=
  match s.issue with
  | i :: rest => exec i { s with issue := rest }
  | [] =>
    match phaseOp s.phase with
    | some i => onNext State.advanced (exec i s)
    | none => .next s

/-- One step of the whole: the host's next action where it has one, else a step of the block. `pass` and `wait` let the
block make its step; `wait` stays until `STATUS` shows DONE or ERROR (R76). Log 4. -/
def machineStep (s : State) : Host.Outcome State Fault Refusal :=
  match s.host with
  | [] => blockStep s
  | .pass :: rest => blockStep { s with host := rest }
  | .wait :: rest => if waitOver s then hostAct .wait { s with host := rest } else blockStep s
  | h :: rest => hostAct h { s with host := rest }

/-- The host's byte that a command is written as (R72). -/
def commandWord : Instr → Option Word64
  | .compress => some 1
  | .decompress => some 2
  | _ => none

/-- The state whose next step runs `i`: a command as the host's next action, anything else on the select lines (log 2). -/
def placeInstr (i : Instr) (s : State) : State :=
  match commandWord i with
  | some v => { s with host := [.writeReg 0 v] }
  | none => { s with host := [], issue := [i] }

end Sys2Proof.Machine
end

