-- ==== Sys2Proof/Machine/Step.lean ====
section
/-!
DEFINITION. The step of the machine, and a state made ready to run one word of the opcode table (log 2).
-/

namespace Sys2Proof.Machine

/-- One step. -/
def step (s : State) : Host.Outcome State Fault Refusal := machineStep s

/-- `s` with the operation of a word of spec/opcode_table.json placed where the next step takes it from: the host's write
of `CMD` for a command, the sequencer's select lines for a micro-operation or a container element (log 2). A word that
the decoder refuses is a reserved value written to `CMD`, which changes no state (R203). -/
def State.withFetchWord (s : State) (nbits w : Nat) : State :=
  match decodeTableWord nbits w with
  | some i => placeInstr i s
  | none => { s with host := [.writeReg 0 0] }

end Sys2Proof.Machine
end

