-- ==== Sys2Proof/Safety.lean ====
section
/-!
DEFINITION. The terms claims are stated in: what SRC holds, what the packer has accepted, room in DST, the abstract tree
(10_state.md rule R21, 30_encoding.md rule R61), runs, and the invariant of the machine.
-/

namespace Sys2Proof.Machine

/-! ### SRC -/

/-- Every byte of the input `SRC[0..SRC_LEN]` has been placed by the host (R41). -/
def SrcPlaced (s : State) : Prop := ∀ a, a < s.srcLen.toNat → (Table.get s.src a).isSome = true

/-- Stream bit `p` of SRC: bit `7 − (p mod 8)` of byte `p / 8` (R5, R43). -/
def srcBitAt (s : State) (p : Nat) : Option Bit := (Table.get s.src (p / 8)).map fun v => streamBit v (p % 8)

/-- The stream bits of SRC from position `p` on are `bs`, all of them below `8 · SRC_LEN`. -/
def HoldsBits (s : State) (p : Nat) (bs : List Bit) : Prop :=
  p + bs.length ≤ srcBits s ∧ ∀ j, j < bs.length → srcBitAt s (p + j) = bs[j]?

/-- The number of indices `a` below `SRC_LEN` with `SRC[a] = b` (R19, R92). -/
def occurrences (s : State) (b : Byte) : Nat :=
  (List.range s.srcLen.toNat).countP fun a => Table.get s.src a == some b

/-- `FREQ[b]` as a number, 0 where nothing is held. -/
def freqAt (s : State) (b : Nat) : Nat := ((Table.get s.freq b).map BitVec.toNat).getD 0

/-- Every entry of `FREQ` has been written. -/
def FreqWritten (s : State) : Prop := ∀ b, b < 256 → (Table.get s.freq b).isSome = true

/-- The symbols with a count that is not zero, ascending. -/
def present (s : State) : List Nat := (List.range 256).filter fun b => freqAt s b != 0

/-- The sum over all symbols of `FREQ` (R19, R93). -/
def freqSum (s : State) : Nat := ((List.range 256).map (freqAt s)).sum

/-! ### The packer and DST -/

/-- The bits of `DST[0..DST_LEN]`. -/
def dstBits (s : State) : List Bit :=
  (List.range s.dstLen.toNat).flatMap fun a => bitsOf 8 ((Table.get s.dst a).getD 0).toNat

/-- The top `NBITS` bits of `ACC`. -/
def accBits (s : State) : List Bit := (List.range s.nbits.toNat).map (streamBit s.acc)

/-- The bits accepted so far, in order (R17, invariant of the packer). -/
def packedBits (s : State) : List Bit := dstBits s ++ accBits s

/-- "bits `ACC[7−NBITS : 0]` are 0" (R17). -/
def AccClean (s : State) : Prop := ∀ j, s.nbits.toNat ≤ j → j < 8 → streamBit s.acc j = false

/-- DST has room for the whole bytes that `k` more bits complete (R42), and its lengths fit `DST_LEN` (R9). -/
def RoomFor (s : State) (k : Nat) : Prop :=
  s.dstLen.toNat + (s.nbits.toNat + k) / 8 ≤ s.dstCap ∧ s.dstCap < 2 ^ 64

/-- DST has room for `k` more bytes (R42), and its lengths fit `DST_LEN` (R9). -/
def RoomBytes (s : State) (k : Nat) : Prop := s.dstLen.toNat + k ≤ s.dstCap ∧ s.dstCap < 2 ^ 64

/-- `pad8(bs)` (R5). -/
def pad8 (bs : List Bit) : List Bit := bs ++ List.replicate (padLen bs.length) false

/-- DST differs, from one state to a later one, only at the indices from `DST_LEN` before to `DST_LEN` after. -/
def DstOnlyAppended (s t : State) : Prop :=
  ∀ a, a < s.dstLen.toNat ∨ t.dstLen.toNat ≤ a → Table.get t.dst a = Table.get s.dst a

/-- The code of a byte as `CODE_LEN` and `CODE_BITS` hold it: `code(b)` of R22. -/
def codeBitsOf (s : State) (b : Nat) : List Bit :=
  (List.range (((Table.get s.codeLen b).map BitVec.toNat).getD 0)).map fun j =>
    ((Table.get s.codeBits b).getD 0).getLsbD (254 - j)

/-- A byte has a code: both entries are written and the length is not zero (R22). -/
def HasCode (s : State) (b : Nat) : Prop :=
  (∃ l, Table.get s.codeLen b = some l ∧ l ≠ 0) ∧ (Table.get s.codeBits b).isSome = true

/-- The code stream of SRC: the codes of its bytes in order (R60, R68). -/
def codeStream (s : State) : List Bit :=
  (List.range s.srcLen.toNat).flatMap fun a => codeBitsOf s ((Table.get s.src a).getD 0).toNat

/-! ### The abstract tree -/

/-- A node of the tree field's grammar (R61): a Leaf with its symbol, or an Internal node with two subtrees. The tree of
N = 1 is the bare Leaf (R65). -/
inductive HTree where
  | leaf (sym : Byte)
  | node (l r : HTree)
  deriving DecidableEq, Repr

/-- The bits of a node (R61, R108). -/
def HTree.bits : HTree → List Bit
  | .leaf sym => markLeaf :: bitsOf 8 sym.toNat
  | .node l r => markInternal :: (l.bits ++ r.bits)

/-- The tree field (R61, R62); `none` is the empty tree. -/
def treeField : Option HTree → List Bit
  | none => [treeEmpty]
  | some t => treePresent :: t.bits

/-- The number of nodes. -/
def HTree.size : HTree → Nat
  | .leaf _ => 1
  | .node l r => l.size + r.size + 1

/-- The greatest depth of a Leaf. -/
def HTree.depth : HTree → Nat
  | .leaf _ => 0
  | .node l r => max l.depth r.depth + 1

/-- The symbols of the Leaves, left to right. -/
def HTree.syms : HTree → List Byte
  | .leaf sym => [sym]
  | .node l r => l.syms ++ r.syms

/-- The symbol of the Leaf that a path from the node ends at (0 = left, 1 = right, R131). -/
def HTree.at : HTree → List Bit → Option Byte
  | .leaf sym, [] => some sym
  | .leaf _, _ :: _ => none
  | .node _ _, [] => none
  | .node l r, b :: bs => if b then r.at bs else l.at bs

/-- The symbol whose code is a bit sequence: its Leaf's path from the root; the one symbol of the N = 1 tree has the code 0
(R104, R130). -/
def HTree.codeAt : HTree → List Bit → Option Byte
  | .leaf sym, bs => if bs = [false] then some sym else none
  | .node l r, bs => (HTree.node l r).at bs

/-- The nodes below index `i` of a node memory are the tree (R20, R21). -/
def IsTree (nodes : Table NodeEntry) : Nat → HTree → Prop
  | i, .leaf sym => i < 511 ∧ ∃ f, Table.get nodes i = some (.leaf sym f)
  | i, .node a b =>
    i < 511 ∧ ∃ f l r, Table.get nodes i = some (.internal f l r) ∧ IsTree nodes l.toNat a ∧ IsTree nodes r.toNat b

/-- The tree that `ROOT` and `NODE` hold (R21): empty; the N = 1 tree, whose root has an absent right child (R104); or a
tree with an Internal root. -/
def RootIs (s : State) : Option HTree → Prop
  | none => s.root = NIL
  | some (.leaf sym) =>
    s.root ≠ NIL ∧ ∃ f l, Table.get s.node s.root.toNat = some (.internal f l NIL) ∧ IsTree s.node l.toNat (.leaf sym)
  | some (.node a b) => IsTree s.node s.root.toNat (.node a b)

/-- `NODE[i].freq` as a number (R100). -/
def nodeFreq (s : State) (i : Nat) : Nat := ((Table.get s.node i).map fun e => e.freq.toNat).getD 0

/-- Node `a` comes before node `i` in the priority collection (R100). -/
def KeyBefore (s : State) (a i : Nat) : Prop :=
  nodeFreq s a < nodeFreq s i ∨ (nodeFreq s a = nodeFreq s i ∧ a < i)

/-! ### Runs -/

/-- Several operations, one after another. -/
def execAll : List Instr → State → Host.Outcome State Fault Refusal
  | [], s => .next s
  | i :: is, s =>
    match exec i s with
    | .next t => execAll is t
    | .fault f => .fault f
    | .refused r => .refused r

/-- Steps until no run is in progress, at most `k`. -/
def runToEnd : Nat → State → Host.Outcome State Fault Refusal
  | 0, s => .next s
  | k + 1, s =>
    if busy s then
      match step s with
      | .next t => runToEnd k t
      | .fault f => .fault f
      | .refused r => .refused r
    else .next s

/-- A command given, and its whole run (R160, R180, R207: at most seven phases). -/
def commandRun (i : Instr) (s : State) : Host.Outcome State Fault Refusal :=
  match exec i s with
  | .next t => runToEnd 8 t
  | .fault f => .fault f
  | .refused r => .refused r

/-- Nothing but the sequencer acts: the host has no action pending and no operation stands on the select lines. -/
def Alone (s : State) : Prop := s.host = [] ∧ s.issue = []

/-! ### The invariant -/

/-- What every step keeps (10_state.md): canonical memories, indices that exist, the ranges of the registers, the packer's
unused bits zero, `ERRKIND` set exactly in ERROR. -/
structure StateInv (s : State) : Prop where
  srcWf : Memory.wf s.src = true
  dstWf : Memory.wf s.dst = true
  freqWf : Table.wf s.freq = true
  nodeWf : Table.wf s.node = true
  codeLenWf : Table.wf s.codeLen = true
  codeBitsWf : Table.wf s.codeBits = true
  activeWf : risesFromIx 0 s.active = true
  srcBelow : ∀ a, (Table.get s.src a).isSome = true → a < s.srcCap
  dstBelow : ∀ a, (Table.get s.dst a).isSome = true → a < s.dstCap
  freqBelow : ∀ b, (Table.get s.freq b).isSome = true → b < 256
  nodeBelow : ∀ i, (Table.get s.node i).isSome = true → i < 511
  codeLenBelow : ∀ b, (Table.get s.codeLen b).isSome = true → b < 256
  codeBitsBelow : ∀ b, (Table.get s.codeBits b).isSome = true → b < 256
  activeBelow : ∀ i, i ∈ s.active → i < 511
  capsFit : s.srcCap < 2 ^ 64 ∧ s.dstCap < 2 ^ 64
  srcLenFits : s.srcLen.toNat ≤ s.srcCap
  dstLenFits : s.dstLen.toNat ≤ s.dstCap
  nFits : s.n.toNat ≤ 256
  nintFits : s.nint.toNat ≤ 255
  nallocFits : s.nalloc.toNat ≤ 511
  accClean : AccClean s
  errKindInError : s.errKind ≠ .none ↔ s.phase = .error
  bpFits : busy s = true → s.bp.toNat ≤ srcBits s
  eposFits : busy s = true → s.epos.toNat ≤ s.srcLen.toNat

end Sys2Proof.Machine
end

