-- ==== Sys2Proof/Certificates/Slice0/Obligations.lean ====
section
/-!
DEFINITION. The statements for the provers, from the numbered rules of spec/. OBLIGATIONS.json lists them.
-/

open Sys2Proof Sys2Proof.Machine

/-! ### Reset and the invariant -/

/-- R25, R250: reset, and reset asserted in any state, leave the registers at these values and the tables without entries;
after it the block waits. -/
def Obligations.ResetGivesStatedValues : Prop :=
  ∀ s : State, ∃ t, hostAct .reset s = .next t ∧ ∀ u, u = t ∨ u = State.reset →
    u.phase = .idle ∧ statusByte u = 0#8 ∧ u.srcLen = 0 ∧ u.dstLen = 0 ∧
    u.n = 0 ∧ u.nint = 0 ∧ u.nalloc = 0 ∧ u.acc = 0 ∧ u.nbits = 0 ∧ u.bp = 0 ∧ u.epos = 0 ∧ u.count = 0 ∧
    u.emitted = 0 ∧ u.dnode = 0 ∧ u.dstate = .atRoot ∧ u.root = 511#9 ∧ u.active = [] ∧
    (∀ i, Table.get u.freq i = none ∧ Table.get u.node i = none ∧ Table.get u.codeLen i = none ∧
      Table.get u.codeBits i = none) ∧
    (u.host = [] → step u = .next u)

/-- The invariant holds after reset.
The capacities after reset are the model's choice (log 6). -/
def Obligations.ResetMeetsInvariant : Prop := StateInv State.reset

/-- Every step keeps the invariant, from every state that meets it.
That host actions and issued operations are steps is the model's choice (logs 3 and 4). -/
def Obligations.StepKeepsInvariant : Prop :=
  ∀ s t : State, StateInv s → step s = .next t → StateInv t

/-- R73: the fields of `STATUS`, and the only values it ever takes. -/
def Obligations.StatusTakesSixValues : Prop :=
  ∀ s : State, StateInv s →
    (statusByte s).extractLsb' 4 4 = 0#4 ∧
    (statusByte s).extractLsb' 0 2 = (if s.phase = .idle then 0#2 else if s.phase = .done then 2#2
      else if s.phase = .error then 3#2 else 1#2) ∧
    (statusByte s).extractLsb' 2 2 = (match s.errKind with
      | .none => 0#2 | .malformedContainer => 1#2 | .truncatedBitstream => 2#2 | .unreachableSymbol => 3#2) ∧
    statusByte s ∈ [0x00#8, 0x01#8, 0x02#8, 0x07#8, 0x0B#8, 0x0F#8]

/-! ### Encodings -/

/-- Decoding what the encoder gives for a well-formed operation gives the operation back, and leaves what follows.
The operand bits of micro-operations and the channels are the model's choice (log 14). -/
def Obligations.DecodeOfEncodeIsIdentity : Prop :=
  ∀ (i : Instr) (rest : List Bit), i.wellFormed = true → decode (channel i) (encode i ++ rest) = .ok (i, rest)

/-- What the decoder accepts is well-formed, belongs to the channel, and is the encoding of what it answers.
The operand bits and the channels are the model's choice (log 14). -/
def Obligations.DecodeAcceptsOnlyEncodings : Prop :=
  ∀ (c : Channel) (bs rest : List Bit) (i : Instr), decode c bs = .ok (i, rest) →
    i.wellFormed = true ∧ channel i = c ∧ bs = encode i ++ rest

/-- Words written out from the spec's encodings (R72, R75, R62, R63, R64, R67) decode to what they stand for.
How decodeTableWord reads a width is the model's choice (log 14). -/
def Obligations.SpecWordsDecode : Prop :=
  decodeTableWord 8 0x01 = some .compress ∧ decodeTableWord 8 0x02 = some .decompress ∧
  decodeTableWord 5 0x01 = some (.fcCount 0) ∧ decodeTableWord 8 0x04 = some .tbMerge ∧
  decodeTableWord 8 0x08 = some .cbGen ∧ decodeTableWord 8 0x0C = some .bwAlign ∧
  decodeTableWord 8 0x12 = some .brAlign ∧ decodeTableWord 8 0x1A = some .encFlush ∧
  decodeTableWord 8 0x1D = some .decSymbol ∧ decodeTableWord 8 0x1F = none ∧
  decode .presence [false] = .ok (.tEmpty, []) ∧ decode .presence [true] = .ok (.tPresent, []) ∧
  decode .node [true, false, true, false, false, false, false, false, true] = .ok (.nLeaf 0x41, []) ∧
  decode .node [false] = .ok (.nInternal, []) ∧
  decode .length (List.replicate 50 false ++ [true, false, false, true, true, true, false, false, false, true, false, false,
    false, false]) = .ok (.fLength 10000, [])

/-! ### The step -/

/-- A step runs the operation that the select lines hold, that the host's write of `CMD` decodes to, or that the phase
issues; what the step adds to it is stated. A block with nothing to do keeps its state (R235). A step with an action of the
host pending performs it; PASS lets the block make its step, and WAIT (R76) does so until `STATUS` shows DONE or ERROR, when
the host has read it.
The select lines, the host's list, the grain of a step and withFetchWord are the model's choice (logs 1 to 4), and so is
that a register write carries 64 bits of which `CMD` takes the low 8 (log 30). -/
def Obligations.StepRunsTheOperation : Prop :=
  (∀ (s : State) (i : Instr) (rest : List Instr), s.host = [] → s.issue = i :: rest →
    step s = exec i { s with issue := rest }) ∧
  (∀ (s : State) (v : Word64) (hs : List HostAction) (i : Instr) (r : List Bit), s.host = .writeReg 0 v :: hs →
    decode .cmd (bitsOf 8 (v.setWidth 8).toNat) = .ok (i, r) → step s = exec i { s with host := hs }) ∧
  (∀ (s t : State) (i : Instr), Alone s → phaseOp s.phase = some i → exec i s = .next t →
    step s = .next { t with phase := nextPhase t }) ∧
  (∀ s : State, Alone s → busy s = false → step s = .next s) ∧
  (∀ (s : State) (nbits w : Nat) (i : Instr), decodeTableWord nbits w = some i → s.issue = [] →
    step (s.withFetchWord nbits w) = exec i { s with host := [] }) ∧
  (∀ (s : State) (h : HostAction) (hs : List HostAction), s.host = h :: hs → h ≠ .pass → h ≠ .wait →
    step s = hostAct h { s with host := hs }) ∧
  (∀ s : State, s.host = [] → step s = blockStep s) ∧
  (∀ (s : State) (hs : List HostAction), s.host = .pass :: hs → step s = blockStep { s with host := hs }) ∧
  (∀ (s : State) (hs : List HostAction), s.host = .wait :: hs →
    step s = if s.phase = .done ∨ s.phase = .error then
        .next { s with host := hs, reply := (statusByte s).setWidth 64 }
      else blockStep s) ∧
  (∀ (s : State) (i : Instr) (rest : List Instr), s.issue = i :: rest → blockStep s = exec i { s with issue := rest }) ∧
  (∀ (s : State) (i : Instr), s.issue = [] → phaseOp s.phase = some i →
    (∀ t, exec i s = .next t → blockStep s = .next { t with phase := nextPhase t }) ∧
    (∀ f, exec i s = .fault f → blockStep s = .fault f) ∧ (∀ r, exec i s = .refused r → blockStep s = .refused r)) ∧
  (∀ s : State, s.issue = [] → busy s = false → blockStep s = .next s)

/-- R15: `PHASE` moves only along the arrows of the table.
That a phase is one step is the model's choice (log 1). -/
def Obligations.PhaseMovesAlongArrows : Prop :=
  State.reset.phase = .idle ∧
  (∀ s t : State, busy s = false → exec .compress s = .next t → t.phase = .eCount) ∧
  (∀ s t : State, busy s = false → exec .decompress s = .next t → t.phase = .dTree) ∧
  (∀ s t : State, Alone s → step s = .next t →
    (s.phase = .idle → t.phase = .idle) ∧
    (s.phase = .eCount → t.phase = .eBuild) ∧
    (s.phase = .eBuild → t.phase = if t.n = 0 then .eTree else .eCodebook) ∧
    (s.phase = .eCodebook → t.phase = .eTree) ∧
    (s.phase = .eTree → t.phase = .eLen) ∧
    (s.phase = .eLen → t.phase = if t.n = 0 then .done else .eCodes) ∧
    (s.phase = .eCodes → t.phase = .eFlush) ∧
    (s.phase = .eFlush → t.phase = .done) ∧
    (s.phase = .dTree → t.phase = .dLen ∨ t.phase = .error) ∧
    (s.phase = .dLen → t.phase = (if t.root = NIL then .done else .dSymbols) ∨ t.phase = .error) ∧
    (s.phase = .dSymbols → t.phase = .done ∨ t.phase = .error) ∧
    (s.phase = .done → t.phase = .done) ∧
    (s.phase = .error → t.phase = .error))

/-! ### Host commands and the host -/

/-- R200, R201, R252: an accepted command initialises the run and enters its first phase, so that STATE is BUSY; the table
memories, SRC, `SRC_LEN` and DST keep what they hold.
That the command is a step of its own is the model's choice (log 1). -/
def Obligations.CommandsStartTheirRun : Prop :=
  ∀ s : State, busy s = false → s.srcLen.toNat ≤ s.srcCap → ∃ t u,
    exec .compress s = .next t ∧ exec .decompress s = .next u ∧
    t = { s with
      errKind := .none, acc := 0, nbits := 0, dstLen := 0, bp := 0, epos := 0, count := 0, emitted := 0, dnode := 0,
      dstate := .atRoot, n := 0, nint := 0, nalloc := 0, root := 511#9, active := [], phase := .eCount } ∧
    u = { t with phase := .dTree } ∧ statusByte t = 0x01#8 ∧ statusByte u = 0x01#8

/-- R202: a command, and any write of `CMD`, while BUSY changes no state. -/
def Obligations.CommandsIgnoredWhileBusy : Prop :=
  ∀ s : State, busy s = true →
    exec .compress s = .next s ∧ exec .decompress s = .next s ∧
    ∀ (v : Word64) (hs : List HostAction), s.host = .writeReg 0 v :: hs → step s = .next { s with host := hs }

/-- R203: a write to `CMD` of a value other than 0x01 and 0x02 changes no state, in any `STATE`. -/
def Obligations.ReservedCommandsChangeNothing : Prop :=
  ∀ (s : State) (v : Word64) (hs : List HostAction), s.host = .writeReg 0 v :: hs →
    v.setWidth 8 ≠ 0x01#8 → v.setWidth 8 ≠ 0x02#8 → step s = .next { s with host := hs }

/-- R49, R205, U17: while BUSY the host's writes of SRC, DST, `SRC_LEN` and `DST_LEN` and its reads of DST have no meaning;
its reads of SRC and of the registers answer and change nothing of the block; a byte of SRC that it has not placed reads
as some value (log 8), and at or beyond `SRC_CAP` there is none (log 31). `CMD` reads as 0 and a write of `STATUS`
changes nothing (R11, R12).
The refusal of a write of DST_LEN is deduced (log 19); `reply` and the register numbers are the model's (logs 5 and 30). -/
def Obligations.HostAccessWhileBusy : Prop :=
  ∀ s : State, busy s = true →
    (∀ a v, hostAct (.writeSrc a v) s = .refused .hostAccessWhileBusy) ∧
    (∀ a v, hostAct (.writeDst a v) s = .refused .hostAccessWhileBusy) ∧
    (∀ a, hostAct (.readDst a) s = .refused .hostAccessWhileBusy) ∧
    (∀ v, hostAct (.writeReg 2 v) s = .refused .hostAccessWhileBusy) ∧
    (∀ v, hostAct (.writeReg 3 v) s = .refused .hostAccessWhileBusy) ∧
    (∀ (a : Word64) (v : Byte), a.toNat < s.srcCap → Table.get s.src a.toNat = some v →
      hostAct (.readSrc a) s = .next { s with reply := v.setWidth 64 }) ∧
    (∀ a : Word64, a.toNat < s.srcCap →
      ∃ t, hostAct (.readSrc a) s = .next t ∧ t = { s with reply := t.reply, freeNext := t.freeNext }) ∧
    (∀ a : Word64, s.srcCap ≤ a.toNat → hostAct (.readSrc a) s = .fault .srcOutOfRange) ∧
    (∀ v, hostAct (.writeReg 1 v) s = .next s) ∧
    (∀ r v, 3 < r → hostAct (.writeReg r v) s = .refused .noSuchRegister ∧
      hostAct (.readReg r) s = .refused .noSuchRegister) ∧
    hostAct (.readReg 0) s = .next { s with reply := 0 } ∧
    hostAct (.readReg 1) s = .next { s with reply := (statusByte s).setWidth 64 } ∧
    hostAct (.readReg 2) s = .next { s with reply := s.srcLen } ∧
    (∃ t, hostAct (.readReg 3) s = .next t ∧ t = { s with reply := t.reply, freeNext := t.freeNext })

/-- R11 to R14, R204, R205: what the host's accesses do while no run is in progress; a byte of SRC that it has not placed
reads as some value (log 8), and so does a byte of DST that is no byte of a result (U22, logs 9 and 10); a byte at or beyond
a capacity is not there (log 31).
`reply` and the register numbers and their width are the model's choice (logs 5 and 30). -/
def Obligations.HostAccessOutsideRun : Prop :=
  ∀ s : State, busy s = false →
    hostAct (.readReg 0) s = .next { s with reply := 0 } ∧
    hostAct (.readReg 1) s = .next { s with reply := (statusByte s).setWidth 64 } ∧
    hostAct (.readReg 2) s = .next { s with reply := s.srcLen } ∧
    hostAct (.readReg 3) s = .next { s with reply := s.dstLen } ∧
    (∀ v, hostAct (.writeReg 1 v) s = .next s) ∧
    (∀ v : Word64, v.toNat ≤ s.srcCap → hostAct (.writeReg 2 v) s = .next { s with srcLen := v }) ∧
    (∀ v, hostAct (.writeReg 3 v) s = .next s) ∧
    (∀ (a : Word64) (v : Byte), a.toNat < s.srcCap → ∃ t, hostAct (.writeSrc a v) s = .next t ∧
      Table.get t.src a.toNat = some v ∧ (∀ b, b ≠ a.toNat → Table.get t.src b = Table.get s.src b) ∧
      t = { s with src := t.src }) ∧
    (∀ (a : Word64) (v : Byte), a.toNat < s.srcCap → Table.get s.src a.toNat = some v →
      hostAct (.readSrc a) s = .next { s with reply := v.setWidth 64 }) ∧
    (∀ a : Word64, a.toNat < s.srcCap →
      ∃ t, hostAct (.readSrc a) s = .next t ∧ t = { s with reply := t.reply, freeNext := t.freeNext }) ∧
    (∀ (a : Word64) (v : Byte), s.phase = .done → a.toNat < s.dstLen.toNat → a.toNat < s.dstCap →
      Table.get s.dst a.toNat = some v → hostAct (.readDst a) s = .next { s with reply := v.setWidth 64 }) ∧
    (∀ a : Word64, a.toNat < s.dstCap →
      ∃ t, hostAct (.readDst a) s = .next t ∧ t = { s with reply := t.reply, freeNext := t.freeNext }) ∧
    (∀ (a : Word64) (v : Byte), a.toNat < s.dstCap → ∃ t, hostAct (.writeDst a v) s = .next t ∧
      Table.get t.dst a.toNat = some v ∧ (∀ b, b ≠ a.toNat → Table.get t.dst b = Table.get s.dst b) ∧
      t = { s with dst := t.dst }) ∧
    (∀ (a : Word64) (v : Byte), s.srcCap ≤ a.toNat →
      hostAct (.writeSrc a v) s = .fault .srcOutOfRange ∧ hostAct (.readSrc a) s = .fault .srcOutOfRange) ∧
    (∀ (a : Word64) (v : Byte), s.dstCap ≤ a.toNat →
      hostAct (.writeDst a v) s = .fault .dstOutOfRange ∧ hostAct (.readDst a) s = .fault .dstOutOfRange) ∧
    (∀ r v, 3 < r → hostAct (.writeReg r v) s = .refused .noSuchRegister ∧
      hostAct (.readReg r) s = .refused .noSuchRegister)

/-- R13, U18: a `SRC_LEN` beyond `SRC_CAP` is refused, when it is written and when a run would start with it.
SRC_CAP is a field of State (log 6). -/
def Obligations.SrcLenBeyondCapRefused : Prop :=
  ∀ s : State, busy s = false →
    (∀ v : Word64, s.srcCap < v.toNat → hostAct (.writeReg 2 v) s = .refused .srcLenOverCap) ∧
    (s.srcCap < s.srcLen.toNat →
      exec .compress s = .refused .srcLenOverCap ∧ exec .decompress s = .refused .srcLenOverCap)

/-- R13, R41, R205: no operation of the block changes SRC, `SRC_LEN`, the capacities or what belongs to the host.
The count of free values (log 9) moves in TB_SER and the descents only, where a Leaf's child may be read (log 12). -/
def Obligations.NoOperationWritesSrc : Prop :=
  ∀ (i : Instr) (s t : State), exec i s = .next t →
    t.src = s.src ∧ t.srcLen = s.srcLen ∧ t.srcCap = s.srcCap ∧ t.dstCap = s.dstCap ∧ t.host = s.host ∧
    t.reply = s.reply ∧
    (i ∉ [.tbSer, .encTree, .decSymbol, .decSymbols] → (∀ p, i ≠ .fCode p) → t.freeNext = s.freeNext)

/-! ### frequency_counter -/

/-- R90: FC_CLEAR writes 0 to all of `FREQ` and nothing else. -/
def Obligations.FcClearZeroesFreq : Prop :=
  ∀ s : State, ∃ t, exec .fcClear s = .next t ∧ (∀ b : Byte, Table.get t.freq b.toNat = some 0) ∧
    t = { s with freq := t.freq }

/-- R91: FC_COUNT(b) adds 1 to `FREQ[b]` and changes nothing else. -/
def Obligations.FcCountAddsOne : Prop :=
  ∀ (s : State) (b : Byte) (v : Word64), Table.get s.freq b.toNat = some v →
    ∃ t, exec (.fcCount b) s = .next t ∧ Table.get t.freq b.toNat = some (v + 1) ∧
      (∀ c, c ≠ b.toNat → Table.get t.freq c = Table.get s.freq c) ∧ t = { s with freq := t.freq }

/-- R92, R93, R161: FC_SCAN, and ENC_COUNT with it, counts every byte of SRC; the counts add up to `SRC_LEN`. -/
def Obligations.FcScanCountsSrc : Prop :=
  ∀ s : State, SrcPlaced s → ∃ t, exec .fcScan s = .next t ∧ exec .encCount s = .next t ∧
    (∀ b : Byte, Table.get t.freq b.toNat = some (BitVec.ofNat 64 (occurrences s b))) ∧ freqSum t = s.srcLen.toNat ∧
    t.epos = s.srcLen ∧
    t = { s with freq := t.freq, epos := t.epos }

/-! ### tree_builder: construction -/

/-- R101: TB_INIT makes one Leaf per symbol with a count that is not zero. -/
def Obligations.TbInitMakesLeaves : Prop :=
  ∀ s : State, FreqWritten s → ∃ t, exec .tbInit s = .next t ∧
    (∀ b, b < 256 → freqAt s b ≠ 0 →
      Table.get t.node b = some (.leaf (BitVec.ofNat 8 b) (BitVec.ofNat 64 (freqAt s b)))) ∧
    (∀ i, 256 ≤ i ∨ freqAt s i = 0 → Table.get t.node i = Table.get s.node i) ∧
    t.active = present s ∧ t.n.toNat = (present s).length ∧ t.nint = 0 ∧ t.nalloc = 0 ∧ t.root = 511#9 ∧
    t = { s with n := t.n, nint := t.nint, nalloc := t.nalloc, root := t.root, active := t.active, node := t.node }

/-- R102, R100: TB_MERGE removes the two least nodes and makes the Internal node of their sum, first removed = left. -/
def Obligations.TbMergeJoinsTwoLeast : Prop :=
  ∀ (s : State) (a b : Nat) (ea eb : NodeEntry),
    (∀ i ∈ s.active, i < 511 ∧ (Table.get s.node i).isSome = true) → s.nint.toNat < 255 →
    a ∈ s.active → b ∈ s.active → a ≠ b → Table.get s.node a = some ea → Table.get s.node b = some eb →
    (∀ i ∈ s.active, i ≠ a → KeyBefore s a i) → (∀ i ∈ s.active, i ≠ a → i ≠ b → KeyBefore s b i) →
    ∃ t, exec .tbMerge s = .next t ∧
      Table.get t.node (256 + s.nint.toNat) =
        some (.internal (ea.freq + eb.freq) (BitVec.ofNat 9 a) (BitVec.ofNat 9 b)) ∧
      (∀ i, i ≠ 256 + s.nint.toNat → Table.get t.node i = Table.get s.node i) ∧
      (∀ i, i ∈ t.active ↔ (i ∈ s.active ∧ i ≠ a ∧ i ≠ b) ∨ i = 256 + s.nint.toNat) ∧
      (s.active.Nodup → 256 + s.nint.toNat ∉ s.active → t.active.length + 1 = s.active.length) ∧
      t.nint = s.nint + 1 ∧ t = { s with node := t.node, active := t.active, nint := t.nint }

/-- R105: without a symbol TB_BUILD, and ENC_BUILD with it, makes no node and leaves `ROOT` = NIL. -/
def Obligations.TbBuildOfNothing : Prop :=
  ∀ s : State, FreqWritten s → present s = [] → ∃ t, exec .tbBuild s = .next t ∧ exec .encBuild s = .next t ∧
    t = { s with n := 0, nint := 0, nalloc := 0, root := 511#9, active := [] }

/-- R104: with one symbol the sole Leaf is the left child of a synthesized root whose right child is absent. -/
def Obligations.TbBuildOfOneSymbol : Prop :=
  ∀ (s : State) (b : Nat), FreqWritten s → present s = [b] → ∃ t, exec .tbBuild s = .next t ∧
    exec .encBuild s = .next t ∧
    Table.get t.node b = some (.leaf (BitVec.ofNat 8 b) (BitVec.ofNat 64 (freqAt s b))) ∧
    Table.get t.node 256 = some (.internal (BitVec.ofNat 64 (freqAt s b)) (BitVec.ofNat 9 b) 511#9) ∧
    (∀ i, i ≠ b → i ≠ 256 → Table.get t.node i = Table.get s.node i) ∧
    RootIs t (some (.leaf (BitVec.ofNat 8 b))) ∧
    t = { s with n := 1, nint := 1, nalloc := 0, root := 256#9, active := [256], node := t.node }

/-- R103, R106: with N ≥ 2 symbols TB_BUILD, and ENC_BUILD with it, completes after N − 1 merges with a tree that has
exactly one Leaf per symbol, N − 1 Internal nodes, the root at 256 + N − 2, and the sum of all frequencies at the root. -/
def Obligations.TbBuildMakesTree : Prop :=
  ∀ s : State, FreqWritten s → 2 ≤ (present s).length → freqSum s < 2 ^ 64 →
    ∃ (t : State) (x : HTree), exec .tbBuild s = .next t ∧ exec .encBuild s = .next t ∧
      RootIs t (some x) ∧ (x.syms.map BitVec.toNat).Perm (present s) ∧ x.size = 2 * (present s).length - 1 ∧
      x.depth ≤ (present s).length - 1 ∧
      t.n.toNat = (present s).length ∧ t.nint.toNat = (present s).length - 1 ∧
      t.root.toNat = 256 + (present s).length - 2 ∧ t.active = [t.root.toNat] ∧
      nodeFreq t t.root.toNat = freqSum s ∧
      t = { s with n := t.n, nint := t.nint, nalloc := 0, root := t.root, active := t.active, node := t.node }

/-! ### tree_builder: serialization and deserialization -/

/-- R107, R108, R61: TB_SER puts the tree field of the tree that `ROOT` and `NODE` hold: 1 bit for the empty tree, 10 a Leaf
else. The bound on the depth is `MAX_DEPTH` (R4). -/
def Obligations.TbSerPutsTreeField : Prop :=
  ∀ (s : State) (T : Option HTree), RootIs s T → (∀ x, T = some x → x.depth ≤ 255) → RoomFor s (treeField T).length →
    ∃ t, exec .tbSer s = .next t ∧ packedBits t = packedBits s ++ treeField T ∧
      (treeField T).length = (match T with | none => 1 | some x => 10 * x.syms.length) ∧ DstOnlyAppended s t ∧
      t = { s with acc := t.acc, nbits := t.nbits, dst := t.dst, dstLen := t.dstLen }

/-- R112, R109, R110: TB_DES inverts the tree field: it consumes exactly its bits and leaves its tree, every frequency 0. -/
def Obligations.TbDesInvertsTreeField : Prop :=
  ∀ (s : State) (T : Option HTree), HoldsBits s s.bp.toNat (treeField T) → (∀ x, T = some x → x.size ≤ 511) →
    ∃ t, exec .tbDes s = .next t ∧ RootIs t T ∧ t.bp.toNat = s.bp.toNat + (treeField T).length ∧
      (∀ i, i < t.nalloc.toNat → nodeFreq t i = 0) ∧
      t = { s with n := 0, nint := 0, nalloc := t.nalloc, root := t.root, node := t.node, bp := t.bp }

/-- R221 M1 to M3, R225, R226: a tree field that ends before its grammar is complete raises MalformedContainer, whatever the
size of the tree that it began.
That an error clears the select lines is deduced (log 25). -/
def Obligations.TbDesRaisesOnShortField : Prop :=
  ∀ (s : State) (T : Option HTree) (p q : List Bit), treeField T = p ++ q → q ≠ [] →
    HoldsBits s s.bp.toNat p → srcBits s = s.bp.toNat + p.length →
    ∃ (t u : State), exec .tbDes s = .next t ∧ exec .decTree s = .next t ∧
      t = { u with errKind := .malformedContainer, dstLen := 0, phase := .error, issue := [] } ∧
      u = { s with n := 0, nint := 0, nalloc := u.nalloc, root := 511#9, node := u.node, bp := u.bp }

/-- R111, R221 M3, R226: a tree field that asks for a 512th node entry raises MalformedContainer: 511 Internal markers, or a
tree of more than 511 nodes. That an error clears the select lines is deduced (log 25). -/
def Obligations.TbDesRefusesNode512 : Prop :=
  ∀ s : State, (HoldsBits s s.bp.toNat (true :: List.replicate 511 false) ∨
      ∃ x : HTree, 511 < x.size ∧ HoldsBits s s.bp.toNat (treeField (some x))) →
    ∃ (t u : State), exec .tbDes s = .next t ∧ exec .decTree s = .next t ∧
      t = { u with errKind := .malformedContainer, dstLen := 0, phase := .error, issue := [] } ∧
      u = { s with n := 0, nint := 0, nalloc := 511, root := 511#9, node := u.node, bp := u.bp }

/-! ### canonical_codebook_generator -/

/-- R130, R131: CB_GEN, and ENC_CODEBOOK with it, gives every symbol of the tree its Leaf's path as its code, left-aligned
in `CODE_BITS`, and every other symbol the length 0. -/
def Obligations.CbGenGivesPaths : Prop :=
  ∀ (s : State) (T : Option HTree), RootIs s T → (∀ x, T = some x → x.depth ≤ 255 ∧ x.syms.Nodup) →
    ∃ t, exec .cbGen s = .next t ∧ exec .encCodebook s = .next t ∧
      (∀ x sym path, T = some x → x.codeAt path = some sym →
        Table.get t.codeLen sym.toNat = some (BitVec.ofNat 8 path.length) ∧
        ∃ w, Table.get t.codeBits sym.toNat = some w ∧ ∀ j, j < 255 → w.getLsbD (254 - j) = path.getD j false) ∧
      (∀ b : Byte, (∀ x, T = some x → b ∉ x.syms) →
        Table.get t.codeLen b.toNat = some 0 ∧ Table.get t.codeBits b.toNat = Table.get s.codeBits b.toNat) ∧
      t = { s with codeLen := t.codeLen, codeBits := t.codeBits }

/-- R71, R132: the codes that CB_GEN gives are not empty, and none is the beginning of another symbol's. -/
def Obligations.CodesArePrefixFree : Prop :=
  ∀ (s t : State) (x : HTree), RootIs s (some x) → x.depth ≤ 255 → x.syms.Nodup → exec .cbGen s = .next t →
    ∀ a ∈ x.syms, codeBitsOf t a.toNat ≠ [] ∧
      ∀ b ∈ x.syms, a ≠ b → ¬ codeBitsOf t a.toNat <+: codeBitsOf t b.toNat

/-! ### bitstream_packer -/

/-- R141: BW_PUT(b) puts `b` at bit 7 − NBITS of `ACC`; the eighth bit writes the byte and clears `ACC`. -/
def Obligations.BwPutAppendsBit : Prop :=
  ∀ (s : State) (b : Bit),
    (s.nbits.toNat ≠ 7 → ∃ t, exec (.bwPut b) s = .next t ∧ t.nbits = s.nbits + 1 ∧
      (∀ j, j < 8 → t.acc.getLsbD j = if j = 7 - s.nbits.toNat then b else s.acc.getLsbD j) ∧
      t = { s with acc := t.acc, nbits := t.nbits }) ∧
    (s.nbits.toNat = 7 → RoomBytes s 1 → ∃ t v, exec (.bwPut b) s = .next t ∧
      (∀ j, j < 8 → v.getLsbD j = if j = 0 then b else s.acc.getLsbD j) ∧
      Table.get t.dst s.dstLen.toNat = some v ∧ t.dstLen.toNat = s.dstLen.toNat + 1 ∧ DstOnlyAppended s t ∧
      t = { s with acc := 0, nbits := 0, dst := t.dst, dstLen := t.dstLen }) ∧
    (s.nbits.toNat = 7 → s.dstCap ≤ s.dstLen.toNat → exec (.bwPut b) s = .refused .dstFull)

/-- R142: BW_PUTN(n, v) puts bits n − 1 down to 0 of `v`.
That it does so for n = 0, and for a `v` of more than n bits, which R142 excludes, is the model's choice (log 24). -/
def Obligations.BwPutnAppendsBits : Prop :=
  ∀ (s : State) (n : BitVec 8) (v : CodeWord), RoomFor s n.toNat → ∃ t, exec (.bwPutn n v) s = .next t ∧
    packedBits t = packedBits s ++ (List.range n.toNat).map (fun j => v.getLsbD (n.toNat - 1 - j)) ∧
    DstOnlyAppended s t ∧ t = { s with acc := t.acc, nbits := t.nbits, dst := t.dst, dstLen := t.dstLen }

/-- R143, R144, R168: BW_ALIGN, BW_FLUSH and ENC_FLUSH write `ACC` as it stands where `NBITS` is not 0, and nothing else. -/
def Obligations.AlignWritesPendingByte : Prop :=
  ∀ (s : State) (i : Instr), i = .bwAlign ∨ i = .bwFlush ∨ i = .encFlush →
    (s.nbits = 0 → exec i s = .next s) ∧
    (s.nbits ≠ 0 → AccClean s → RoomBytes s 1 → ∃ t, exec i s = .next t ∧
      Table.get t.dst s.dstLen.toNat = some s.acc ∧ t.dstLen.toNat = s.dstLen.toNat + 1 ∧ DstOnlyAppended s t ∧
      t = { s with acc := 0, nbits := 0, dst := t.dst, dstLen := t.dstLen })

/-- R145: BW_PUTBYTE(v) writes one whole byte; with `NBITS` = 0 it has exactly the effect of BW_PUTN(8, v).
That it writes the byte also where its precondition `NBITS` = 0 is broken is the model's choice (log 11). -/
def Obligations.BwPutbyteWritesByte : Prop :=
  ∀ (s : State) (v : Byte), RoomBytes s 1 → ∃ t, exec (.bwPutbyte v) s = .next t ∧
    Table.get t.dst s.dstLen.toNat = some v ∧ t.dstLen.toNat = s.dstLen.toNat + 1 ∧ DstOnlyAppended s t ∧
    t = { s with dst := t.dst, dstLen := t.dstLen } ∧
    (s.nbits = 0 → AccClean s → exec (.bwPutn 8 (v.setWidth 255)) s = .next t)

/-- R140, R150, R153: BW_RESET, BR_RESET and BR_ALIGN. -/
def Obligations.ResetsAndReaderAlign : Prop :=
  ∀ s : State,
    exec .bwReset s = .next { s with acc := 0, nbits := 0, dstLen := 0 } ∧
    exec .brReset s = .next { s with bp := 0 } ∧
    (s.bp.toNat + 7 < 2 ^ 67 → ∃ t, exec .brAlign s = .next t ∧ t.bp.toNat = 8 * ((s.bp.toNat + 7) / 8) ∧
      (s.bp.toNat ≤ srcBits s → t.bp.toNat ≤ srcBits s) ∧ t = { s with bp := t.bp })

/-- R146: after BW_RESET, the bits `bs` put and BW_FLUSH, DST holds `bytes(pad8(bs))`, and what it held beyond. -/
def Obligations.PackerLaw : Prop :=
  ∀ (s : State) (bs : List Bit), (bs.length + 7) / 8 ≤ s.dstCap → s.dstCap < 2 ^ 64 →
    ∃ t, execAll ([.bwReset] ++ bs.map .bwPut ++ [.bwFlush]) s = .next t ∧ t.nbits = 0 ∧
      t.dstLen.toNat = (bs.length + 7) / 8 ∧ dstBits t = pad8 bs ∧
      (∀ a, a < t.dstLen.toNat → (Table.get t.dst a).isSome = true) ∧
      (∀ a, t.dstLen.toNat ≤ a → Table.get t.dst a = Table.get s.dst a) ∧
      t = { s with acc := 0, nbits := 0, dst := t.dst, dstLen := t.dstLen }

/-! ### bitstream_unpacker -/

/-- R151: BR_GET returns bit 7 − BP[2:0] of `SRC[BP[66:3]]` and moves `BP` by one.
That the returned value is kept in `ret` is the model's choice (log 5). -/
def Obligations.BrGetReturnsBit : Prop :=
  ∀ (s : State) (v : Byte), s.bp.toNat < srcBits s → Table.get s.src (s.bp.toNat / 8) = some v →
    ∃ t, exec .brGet s = .next t ∧ t.bp.toNat = s.bp.toNat + 1 ∧
      t.ret = (if v.getLsbD (7 - s.bp.toNat % 8) then 1 else 0) ∧ t = { s with bp := t.bp, ret := t.ret }

/-- R152: BR_GETN(n) returns the next n bits, the first one the most significant, and moves `BP` by n.
That the returned value is kept in `ret` is the model's choice (log 5). -/
def Obligations.BrGetnReturnsBits : Prop :=
  ∀ (s : State) (n : BitVec 7) (bs : List Bit), (Instr.brGetn n).wellFormed = true → bs.length = n.toNat →
    HoldsBits s s.bp.toNat bs → ∃ t, exec (.brGetn n) s = .next t ∧ t.bp.toNat = s.bp.toNat + n.toNat ∧
      t.ret.toNat < 2 ^ n.toNat ∧ (∀ j (h : j < bs.length), t.ret.getLsbD (n.toNat - 1 - j) = bs[j]) ∧
      t = { s with bp := t.bp, ret := t.ret }

/-- R154: BR_GETBYTE returns `SRC[BP[66:3]]` and moves `BP` by 8; with its preconditions it equals BR_GETN(8).
That the returned value is kept in `ret` is the model's choice (log 5). -/
def Obligations.BrGetbyteReturnsByte : Prop :=
  ∀ (s : State) (v : Byte), s.bp.toNat % 8 = 0 → s.bp.toNat + 8 ≤ srcBits s →
    Table.get s.src (s.bp.toNat / 8) = some v → ∃ t, exec .brGetbyte s = .next t ∧ exec (.brGetn 8) s = .next t ∧
      t.bp.toNat = s.bp.toNat + 8 ∧ t.ret = v.setWidth 64 ∧ t = { s with bp := t.bp, ret := t.ret }

/-- R155: if SRC holds what the packer wrote, the unpacker returns the bits that were put, in order.
That a returned value is kept in `ret` is the model's choice (log 5). -/
def Obligations.SymmetryLaw : Prop :=
  ∀ (s t u : State) (bs : List Bit), s.dstCap < 2 ^ 64 →
    execAll ([.bwReset] ++ bs.map .bwPut ++ [.bwFlush]) s = .next t →
    u.srcLen = t.dstLen → (∀ a, a < t.dstLen.toNat → Table.get u.src a = Table.get t.dst a) → u.bp = 0 →
    HoldsBits u 0 (pad8 bs) ∧
    ∀ k (h : k < bs.length), ∃ w, execAll (List.replicate (k + 1) .brGet) u = .next w ∧ w.bp.toNat = k + 1 ∧
      w.ret = (if bs[k] then 1 else 0)

/-! ### huffman_encoder -/

/-- R165: ENC_TREE writes the tree field and zero bits up to the byte boundary. -/
def Obligations.EncTreeWritesPaddedField : Prop :=
  ∀ (s : State) (T : Option HTree), RootIs s T → (∀ x, T = some x → x.depth ≤ 255) → s.nbits = 0 → AccClean s →
    RoomFor s ((treeField T).length + 7) →
    ∃ t, exec .encTree s = .next t ∧ dstBits t = dstBits s ++ pad8 (treeField T) ∧ DstOnlyAppended s t ∧
      t.dstLen.toNat = s.dstLen.toNat + ((treeField T).length + 7) / 8 ∧
      t = { s with acc := 0, nbits := 0, dst := t.dst, dstLen := t.dstLen }

/-- R166: ENC_LEN writes the 8 bytes of `SRC_LEN`, most significant first.
That it does so also where its precondition `NBITS` = 0 is broken is the model's choice (log 11). -/
def Obligations.EncLenWritesBigEndian : Prop :=
  ∀ s : State, RoomBytes s 8 → ∃ t, exec .encLen s = .next t ∧
    (∀ k, k < 8 → Table.get t.dst (s.dstLen.toNat + k) = some (s.srcLen.extractLsb' (56 - 8 * k) 8)) ∧
    t.dstLen.toNat = s.dstLen.toNat + 8 ∧ DstOnlyAppended s t ∧ t = { s with dst := t.dst, dstLen := t.dstLen }

/-- R167: ENC_CODES puts the code of every byte of SRC, in order, with no gap. -/
def Obligations.EncCodesPutsCodeStream : Prop :=
  ∀ s : State, SrcPlaced s → (∀ a v, a < s.srcLen.toNat → Table.get s.src a = some v → HasCode s v.toNat) →
    RoomFor s (codeStream s).length →
    ∃ t, exec .encCodes s = .next t ∧ packedBits t = packedBits s ++ codeStream s ∧ t.epos = s.srcLen ∧
      DstOnlyAppended s t ∧
      t = { s with acc := t.acc, nbits := t.nbits, dst := t.dst, dstLen := t.dstLen, epos := t.epos }

/-- R169: no operation of a COMPRESS run raises: they leave `PHASE` and `ERRKIND` as they are. -/
def Obligations.EncoderNeverRaises : Prop :=
  ∀ (i : Instr) (s t : State),
    i ∈ [.fcClear, .fcScan, .tbInit, .tbMerge, .tbBuild, .tbSer, .cbGen, .bwReset, .bwAlign, .bwFlush, .encCount, .encBuild,
      .encCodebook, .encTree, .encLen, .encCodes, .encFlush] ∨ (∃ b, i = .fcCount b) ∨ (∃ b, i = .bwPut b) ∨
      (∃ n v, i = .bwPutn n v) ∨ (∃ v, i = .bwPutbyte v) →
    exec i s = .next t → t.phase = s.phase ∧ t.errKind = s.errKind ∧ t.bp = s.bp ∧ t.count = s.count ∧
      t.emitted = s.emitted ∧ t.dnode = s.dnode ∧ t.dstate = s.dstate ∧ t.issue = s.issue ∧ t.ret = s.ret

/-- R163: a COMPRESS run on the empty input ends DONE with the container of nine zero bytes.
The grain of the run is the model's choice (log 1). -/
def Obligations.CompressOfEmptyInput : Prop :=
  ∀ s : State, busy s = false → Alone s → s.srcLen = 0 → 9 ≤ s.dstCap → s.dstCap < 2 ^ 64 →
    ∃ t, commandRun .compress s = .next t ∧ statusByte t = 0x02#8 ∧ t.dstLen = 9 ∧
      ∀ a, a < 9 → Table.get t.dst a = some 0

/-! ### huffman_decoder -/

/-- R181: DEC_TREE reads the tree field and moves `BP` to the byte boundary after it, the pad bits not examined. -/
def Obligations.DecTreeReadsAlignedField : Prop :=
  ∀ (s : State) (T : Option HTree), HoldsBits s s.bp.toNat (treeField T) → (∀ x, T = some x → x.size ≤ 511) →
    ∃ t, exec .decTree s = .next t ∧ RootIs t T ∧ t.bp.toNat % 8 = 0 ∧
      s.bp.toNat + (treeField T).length ≤ t.bp.toNat ∧ t.bp.toNat < s.bp.toNat + (treeField T).length + 8 ∧
      t = { s with n := 0, nint := 0, nalloc := t.nalloc, root := t.root, node := t.node, bp := t.bp }

/-- R182, R221, R226: DEC_LEN reads the 64-bit count, most significant byte first, or raises in the cases M4 and M5.
That an error clears the select lines is deduced (log 25). -/
def Obligations.DecLenReadsCount : Prop :=
  ∀ (s : State) (L : Word64),
    (srcBits s < s.bp.toNat + 64 → exec .decLen s =
      .next { s with errKind := .malformedContainer, dstLen := 0, phase := .error, issue := [] }) ∧
    (s.bp.toNat % 8 = 0 → HoldsBits s s.bp.toNat (bitsOf 64 L.toNat) → (s.root = 511#9 → L = 0) →
      ∃ t, exec .decLen s = .next t ∧ t.bp.toNat = s.bp.toNat + 64 ∧ t = { s with count := L, bp := t.bp }) ∧
    (s.bp.toNat % 8 = 0 → HoldsBits s s.bp.toNat (bitsOf 64 L.toNat) → s.root = 511#9 → L ≠ 0 →
      ∃ t, exec .decLen s = .next t ∧ t.bp.toNat = s.bp.toNat + 64 ∧
        t = { s with count := L, bp := t.bp, errKind := .malformedContainer, dstLen := 0, phase := .error, issue := [] })

/-- R184: DEC_SYMBOL consumes the code of one symbol and emits it. -/
def Obligations.DecSymbolEmitsSymbol : Prop :=
  ∀ (s : State) (x : HTree) (path : List Bit) (sym : Byte), RootIs s (some x) → x.codeAt path = some sym →
    HoldsBits s s.bp.toNat path → RoomBytes s 1 →
    ∃ t, exec .decSymbol s = .next t ∧ t.bp.toNat = s.bp.toNat + path.length ∧
      Table.get t.dst s.dstLen.toNat = some sym ∧ t.dstLen.toNat = s.dstLen.toNat + 1 ∧ DstOnlyAppended s t ∧
      (∃ f, Table.get s.node t.dnode.toNat = some (.leaf sym f)) ∧
      t = { s with
          bp := t.bp, dst := t.dst, dstLen := t.dstLen, emitted := s.emitted + 1, dnode := t.dnode,
          dstate := .atRoot }

/-- R222, R185, R226: where the bits run out before the code of a symbol is complete, TruncatedBitstream: DEC_SYMBOL, and
DEC_SYMBOLS after any number of symbols smaller than `COUNT`.
That an error clears the select lines is deduced (log 25). -/
def Obligations.DecSymbolRaisesTruncated : Prop :=
  (∀ (s : State) (x : HTree) (p q : List Bit) (sym : Byte), RootIs s (some x) → x.codeAt (p ++ q) = some sym → q ≠ [] →
    HoldsBits s s.bp.toNat p → srcBits s = s.bp.toNat + p.length →
    ∃ t, exec .decSymbol s = .next t ∧ t.bp.toNat = srcBits s ∧
      t = { s with
          bp := t.bp, dnode := t.dnode, dstate := t.dstate, errKind := .truncatedBitstream, dstLen := 0,
          phase := .error, issue := [] } ∧
      (t.dstate = .atRoot ↔ p = [])) ∧
  (∀ (s : State) (x : HTree) (codes : List (List Bit × Byte)) (p q : List Bit) (sym : Byte), RootIs s (some x) →
    (∀ c ∈ codes, x.codeAt c.1 = some c.2) → x.codeAt (p ++ q) = some sym → q ≠ [] →
    HoldsBits s s.bp.toNat (codes.flatMap Prod.fst ++ p) →
    srcBits s = s.bp.toNat + (codes.flatMap Prod.fst ++ p).length → codes.length < s.count.toNat →
    RoomBytes s codes.length →
    ∃ t, exec .decSymbols s = .next t ∧ t.bp.toNat = srcBits s ∧ t.emitted.toNat = codes.length ∧
      (∀ k (h : k < codes.length), Table.get t.dst (s.dstLen.toNat + k) = some codes[k].2) ∧
      (∀ a, a < s.dstLen.toNat ∨ s.dstLen.toNat + codes.length ≤ a → Table.get t.dst a = Table.get s.dst a) ∧
      t = { s with
          bp := t.bp, dst := t.dst, emitted := t.emitted, dnode := t.dnode, dstate := t.dstate,
          errKind := .truncatedBitstream, dstLen := 0, phase := .error, issue := [] } ∧
      (t.dstate = .atRoot ↔ p = []))

/-- R223, R185, R226: in an N = 1 tree a 1 among the bits selects the absent child, UnreachableSymbol: DEC_SYMBOL, and
DEC_SYMBOLS after any number of symbols smaller than `COUNT`.
That an error clears the select lines is deduced (log 25). -/
def Obligations.DecSymbolRaisesUnreachable : Prop :=
  ∀ (s : State) (sym : Byte), RootIs s (some (.leaf sym)) →
    (HoldsBits s s.bp.toNat [true] → ∃ t, exec .decSymbol s = .next t ∧ t.bp.toNat = s.bp.toNat + 1 ∧
      t = { s with
          bp := t.bp, dnode := s.root, dstate := .atRoot, errKind := .unreachableSymbol, dstLen := 0,
          phase := .error, issue := [] }) ∧
    (∀ n, HoldsBits s s.bp.toNat (List.replicate n false ++ [true]) → n < s.count.toNat → RoomBytes s n →
      ∃ t, exec .decSymbols s = .next t ∧ t.bp.toNat = s.bp.toNat + n + 1 ∧ t.emitted.toNat = n ∧
        (∀ k, k < n → Table.get t.dst (s.dstLen.toNat + k) = some sym) ∧
        (∀ a, a < s.dstLen.toNat ∨ s.dstLen.toNat + n ≤ a → Table.get t.dst a = Table.get s.dst a) ∧
        t = { s with
            bp := t.bp, dst := t.dst, emitted := t.emitted, dnode := s.root, dstate := .atRoot,
            errKind := .unreachableSymbol, dstLen := 0, phase := .error, issue := [] })

/-- R185: DEC_SYMBOLS decodes exactly `COUNT` symbols and stops. -/
def Obligations.DecSymbolsDecodesCount : Prop :=
  ∀ (s : State) (x : HTree) (codes : List (List Bit × Byte)), RootIs s (some x) →
    (∀ c ∈ codes, x.codeAt c.1 = some c.2) → HoldsBits s s.bp.toNat (codes.flatMap Prod.fst) →
    s.count.toNat = codes.length → RoomBytes s codes.length →
    ∃ t, exec .decSymbols s = .next t ∧ t.emitted = s.count ∧
      t.bp.toNat = s.bp.toNat + (codes.flatMap Prod.fst).length ∧
      t.dstLen.toNat = s.dstLen.toNat + codes.length ∧
      (∀ k (h : k < codes.length), Table.get t.dst (s.dstLen.toNat + k) = some codes[k].2) ∧ DstOnlyAppended s t ∧
      t = { s with
          bp := t.bp, dst := t.dst, dstLen := t.dstLen, emitted := t.emitted, dnode := t.dnode,
          dstate := t.dstate }

/-- R13, R226: the decoder's operations and the container's elements change SRC, `FREQ`, the codebook, the packer's
registers and the host's side in no case, and DST only by appending: nothing where DEC_SYMBOL or F_CODE raises, and as many
bytes as `EMITTED` counts where DEC_SYMBOLS does; what they raise leaves `DST_LEN` = 0 and `PHASE` = ERROR.
The elements' meaning (log 13), the select lines cleared by an error (log 25) and the count of free values (logs 9, 12) are
the model's. -/
def Obligations.DecoderFrame : Prop :=
  ∀ (i : Instr) (s t : State), i ∈ [.tbDes, .decTree, .decLen, .decSymbol, .decSymbols] ∨ i.format = .container →
    s.dstCap < 2 ^ 64 → exec i s = .next t →
    t = { s with
        n := t.n, nint := t.nint, nalloc := t.nalloc, root := t.root, node := t.node, bp := t.bp,
        count := t.count, emitted := t.emitted, dnode := t.dnode, dstate := t.dstate, dst := t.dst, dstLen := t.dstLen,
        errKind := t.errKind, phase := t.phase, issue := t.issue, freeNext := t.freeNext } ∧
    (∀ a, a < s.dstLen.toNat → Table.get t.dst a = Table.get s.dst a) ∧
    (i ≠ .decSymbol → i ≠ .decSymbols → (∀ p, i ≠ .fCode p) → t.dst = s.dst ∧ t.freeNext = s.freeNext) ∧
    ((t.phase = s.phase ∧ t.errKind = s.errKind ∧ t.issue = s.issue ∧ s.dstLen.toNat ≤ t.dstLen.toNat ∧
        DstOnlyAppended s t) ∨
      (t.phase = .error ∧ t.errKind ≠ .none ∧ t.issue = [] ∧ t.dstLen = 0 ∧ (i ≠ .decSymbols → t.dst = s.dst) ∧
        (i = .decSymbols → ∀ a, s.dstLen.toNat + t.emitted.toNat ≤ a → Table.get t.dst a = Table.get s.dst a)))

/-! ### Container elements -/

/-- R62, R63, R64, R67, R110, R182: what the decoder does once it has recognised an element of the container.
That an element's effect is this, and that F_PAD moves `BP` in IDLE, ERROR and the encoder's phases too, is the model's
choice (log 13), and so is the effect of an F_PAD of more than 7 bits (log 24). -/
def Obligations.ContainerElements : Prop :=
  ∀ s : State,
    (s.bp.toNat + 1 ≤ srcBits s → ∃ t, exec .tPresent s = .next t ∧ exec .tEmpty s = .next { t with root := 511#9 } ∧
      t.bp.toNat = s.bp.toNat + 1 ∧ t = { s with bp := t.bp }) ∧
    (∀ sym, s.nalloc.toNat < 511 → s.bp.toNat + 9 ≤ srcBits s → ∃ t, exec (.nLeaf sym) s = .next t ∧
      Table.get t.node s.nalloc.toNat = some (.leaf sym 0) ∧
      (∀ i, i ≠ s.nalloc.toNat → Table.get t.node i = Table.get s.node i) ∧
      t.nalloc = s.nalloc + 1 ∧ t.bp.toNat = s.bp.toNat + 9 ∧
      t = { s with node := t.node, nalloc := t.nalloc, bp := t.bp }) ∧
    (s.nalloc.toNat < 511 → s.bp.toNat + 1 ≤ srcBits s → ∃ t, exec .nInternal s = .next t ∧ t.nalloc = s.nalloc + 1 ∧
      t.bp.toNat = s.bp.toNat + 1 ∧ t = { s with nalloc := t.nalloc, bp := t.bp }) ∧
    (∀ L, s.bp.toNat + 64 ≤ srcBits s → (s.root = 511#9 → L = 0) → ∃ t, exec (.fLength L) s = .next t ∧
      t.bp.toNat = s.bp.toNat + 64 ∧ t = { s with count := L, bp := t.bp }) ∧
    (∀ p, s.phase ≠ .dSymbols → s.phase ≠ .done → exec (.fPad p) s = exec .brAlign s ∧ ∃ t, exec (.fPad p) s = .next t) ∧
    (∀ p, s.phase = .dSymbols ∨ s.phase = .done → exec (.fPad p) s = .next s)

/-- R68, R184: recognising the code of a symbol is decoding that symbol.
The elements' meaning is the model's choice (log 13). -/
def Obligations.CodeElementDecodesSymbol : Prop :=
  ∀ (s : State) (x : HTree) (path : List Bit) (sym : Byte), RootIs s (some x) → x.codeAt path = some sym →
    HoldsBits s s.bp.toNat path → RoomBytes s 1 →
    ∃ t, exec (.fCode path) s = .next t ∧ exec .decSymbol s = .next t ∧ Table.get t.dst s.dstLen.toNat = some sym

/-- R61, R62, R109, R182: where the decoder finds an element's bits, its own operation and the element's agree.
The elements' meaning is the model's choice (log 13). -/
def Obligations.RecognisedElementsAgree : Prop :=
  ∀ s : State,
    (HoldsBits s s.bp.toNat (encode .tEmpty) →
      exec .tbDes s = exec .tEmpty { s with n := 0, nint := 0, nalloc := 0, root := 511#9 }) ∧
    (∀ L, s.bp.toNat % 8 = 0 → HoldsBits s s.bp.toNat (encode (.fLength L)) → exec .decLen s = exec (.fLength L) s) ∧
    (∀ sym, HoldsBits s s.bp.toNat (encode .tPresent ++ encode (.nLeaf sym)) →
      ∃ t u, execAll [.tPresent, .nLeaf sym] { s with n := 0, nint := 0, nalloc := 0, root := 511#9 } = .next t ∧
        exec .tbDes s = .next u ∧ Table.get t.node 0 = some (.leaf sym 0) ∧ u.bp = t.bp ∧
        (∀ i, i ≠ 1 → Table.get u.node i = Table.get t.node i) ∧
        Table.get u.node 1 = some (.internal 0 0 511#9) ∧ u.root = 1)

/-! ### Frames -/

/-- R141 to R145, R107, R165 to R168: the packing operations change, in no case, anything but the packer's registers,
`DST_LEN` and the bytes of DST from `DST_LEN` before to `DST_LEN` after; ENC_CODES moves `EPOS` too.
The count of free values (log 9) moves in TB_SER and ENC_TREE only, where a Leaf's child may be read (log 12). -/
def Obligations.PackingFrame : Prop :=
  ∀ (i : Instr) (s t : State),
    i ∈ [.tbSer, .bwAlign, .bwFlush, .encTree, .encLen, .encFlush, .encCodes] ∨ (∃ b, i = .bwPut b) ∨
      (∃ n v, i = .bwPutn n v) ∨ (∃ v, i = .bwPutbyte v) →
    s.dstCap < 2 ^ 64 → exec i s = .next t →
    t = { s with
        acc := t.acc, nbits := t.nbits, dst := t.dst, dstLen := t.dstLen, epos := t.epos, freeNext := t.freeNext } ∧
    (i ≠ .encCodes → t.epos = s.epos) ∧ (i ≠ .tbSer → i ≠ .encTree → t.freeNext = s.freeNext) ∧ s.dstLen.toNat ≤ t.dstLen.toNat ∧ DstOnlyAppended s t

/-- R90 to R92, R101 to R103, R130, R150 to R154: the counting, building, codebook and reading operations change, in no
case, anything but their own unit's registers and memory; SRC and DST stay as they are.
`ret` is the model's (log 5). -/
def Obligations.UnitFrames : Prop :=
  ∀ (i : Instr) (s t : State), exec i s = .next t →
    (i = .fcClear ∨ (∃ b, i = .fcCount b) ∨ i = .fcScan ∨ i = .encCount →
      t = { s with freq := t.freq, epos := t.epos }) ∧
    (i = .tbInit ∨ i = .tbMerge ∨ i = .tbBuild ∨ i = .encBuild →
      t = { s with n := t.n, nint := t.nint, nalloc := t.nalloc, root := t.root, active := t.active, node := t.node }) ∧
    (i = .cbGen ∨ i = .encCodebook → t = { s with codeLen := t.codeLen, codeBits := t.codeBits }) ∧
    (i = .brReset ∨ i = .brGet ∨ (∃ n, i = .brGetn n) ∨ i = .brAlign ∨ i = .brGetbyte →
      t = { s with bp := t.bp, ret := t.ret })

/-! ### Stops -/

/-- The model's stops where a rule names a thing that does not exist: TB_MERGE with fewer than two active nodes (log 11); in
pass 2 the first byte without a code, wherever it stands, after bytes that have one (R167, U8); BR_GET at the end, BR_GETN
with fewer than n bits left and BR_GETBYTE with fewer than 8 (R41, R152, R156, log 11). -/
def Obligations.StopsWhereNothingExists : Prop :=
  ∀ s : State,
    ((s.active = [] ∨ ∃ a, s.active = [a] ∧ a < 511 ∧ (Table.get s.node a).isSome = true) →
      exec .tbMerge s = .refused .noSuchActiveNode) ∧
    (∀ (a : Nat) (v : Byte), a < s.srcLen.toNat → Table.get s.src a = some v → Table.get s.codeLen v.toNat = some 0 →
      (∀ b, b < a → ∃ w : Byte, Table.get s.src b = some w ∧ HasCode s w.toNat) →
      RoomFor s ((List.range a).flatMap fun b => codeBitsOf s ((Table.get s.src b).getD 0).toNat).length →
      exec .encCodes s = .refused .noCode) ∧
    (srcBits s ≤ s.bp.toNat → exec .brGet s = .fault .srcOutOfRange) ∧
    (∀ n : BitVec 7, (Instr.brGetn n).wellFormed = true → srcBits s < s.bp.toNat + n.toNat →
      (∀ a, s.bp.toNat / 8 ≤ a → a < s.srcLen.toNat → (Table.get s.src a).isSome = true) →
      exec (.brGetn n) s = .fault .srcOutOfRange) ∧
    (srcBits s < s.bp.toNat + 8 → exec .brGetbyte s = .fault .srcOutOfRange)

/-! ### Whole runs -/

/-- R160, R60, R68, R169: a COMPRESS run on any input ends DONE with the container of R60: the tree field of a tree, the
length, and the codes of the input's bytes, each the path of its byte in that tree. The room is that of the depth bound
(255 bits a code, 93_implementation_defined.md G2).
The grain of the run is the model's choice (log 1). -/
def Obligations.CompressWritesContainer : Prop :=
  ∀ s : State, busy s = false → Alone s → s.srcLen.toNat ≤ s.srcCap → SrcPlaced s →
    330 + 32 * s.srcLen.toNat ≤ s.dstCap → s.dstCap < 2 ^ 64 →
    ∃ (t : State) (T : Option HTree), commandRun .compress s = .next t ∧ statusByte t = 0x02#8 ∧
      t.src = s.src ∧ t.srcLen = s.srcLen ∧ RootIs t T ∧ (T = none ↔ s.srcLen = 0) ∧
      (∀ (a : Nat) (b : Byte), a < s.srcLen.toNat → Table.get s.src a = some b →
        ∃ x, T = some x ∧ x.codeAt (codeBitsOf t b.toNat) = some b) ∧
      dstBits t = pad8 (treeField T) ++ bitsOf 64 s.srcLen.toNat ++ pad8 (codeStream t)

/-- R188, R8: a DECOMPRESS run on the result of a COMPRESS run ends DONE with the input.
The grain of the runs is the model's choice (log 1). -/
def Obligations.RoundTrip : Prop :=
  ∀ s t u : State, busy s = false → Alone s → s.srcLen.toNat ≤ s.srcCap → SrcPlaced s →
    330 + 32 * s.srcLen.toNat ≤ s.dstCap → s.dstCap < 2 ^ 64 → commandRun .compress s = .next t →
    busy u = false → Alone u → u.srcLen = t.dstLen → u.srcLen.toNat ≤ u.srcCap →
    (∀ a, a < t.dstLen.toNat → Table.get u.src a = Table.get t.dst a) →
    s.srcLen.toNat ≤ u.dstCap → u.dstCap < 2 ^ 64 →
    ∃ v, commandRun .decompress u = .next v ∧ statusByte v = 0x02#8 ∧ v.dstLen = s.srcLen ∧
      ∀ a, a < s.srcLen.toNat → Table.get v.dst a = Table.get s.src a
end

