-- ==== Sys2Proof/Laws/Bits.lean ====
section
/-!
SUPPORT. Bit sequences: `bitsOf` and `natOf` are inverse to each other, `splitBits` on an append.
-/

namespace Sys2Proof

@[simp] theorem length_bitsOf (n v : Nat) : (bitsOf n v).length = n := by simp [bitsOf]

theorem getElem?_bitsOf (n v j : Nat) (h : j < n) : (bitsOf n v)[j]? = some (v.testBit (n - 1 - j)) := by
  simp [bitsOf, h]

@[simp] theorem bitsOf_zero (v : Nat) : bitsOf 0 v = [] := rfl

theorem bitsOf_succ (n v : Nat) : bitsOf (n + 1) v = v.testBit n :: bitsOf n v := by
  simp only [bitsOf, List.range_succ_eq_map, List.map_cons, List.map_map]
  congr 1
  apply List.map_congr_left
  intro j _
  show v.testBit (n + 1 - 1 - (j + 1)) = v.testBit (n - 1 - j)
  congr 1
  omega

theorem natOfFrom_eq (bs : List Bit) (acc : Nat) : natOfFrom acc bs = acc * 2 ^ bs.length + natOfFrom 0 bs := by
  induction bs generalizing acc with
  | nil => simp [natOfFrom]
  | cons b bs ih =>
    simp only [natOfFrom, List.length_cons]
    rw [ih (2 * acc + b.toNat), ih (2 * 0 + b.toNat)]
    ring

theorem natOf_cons (b : Bit) (bs : List Bit) : natOf (b :: bs) = b.toNat * 2 ^ bs.length + natOf bs := by
  have := natOfFrom_eq bs b.toNat
  simpa [natOf, natOfFrom] using this

theorem natOf_lt (bs : List Bit) : natOf bs < 2 ^ bs.length := by
  induction bs with
  | nil => simp [natOf, natOfFrom]
  | cons b bs ih =>
    rw [natOf_cons, List.length_cons, pow_succ]
    cases b <;> simp <;> omega

theorem natOf_append (as bs : List Bit) : natOf (as ++ bs) = natOf as * 2 ^ bs.length + natOf bs := by
  induction as with
  | nil => simp [natOf, natOfFrom]
  | cons a as ih =>
    rw [List.cons_append, natOf_cons, natOf_cons, ih, List.length_append, pow_add]
    ring

/-- The number that the `n` bits of `v` spell. -/
theorem natOf_bitsOf_mod (n v : Nat) : natOf (bitsOf n v) = v % 2 ^ n := by
  induction n with
  | zero => simp [natOf, natOfFrom, Nat.mod_one]
  | succ n ih =>
    rw [bitsOf_succ, natOf_cons, ih, length_bitsOf, Nat.mod_pow_succ, Nat.toNat_testBit]
    ring

theorem natOf_bitsOf {n v : Nat} (h : v < 2 ^ n) : natOf (bitsOf n v) = v := by
  rw [natOf_bitsOf_mod, Nat.mod_eq_of_lt h]

theorem testBit_natOf (bs : List Bit) (j : Nat) (h : j < bs.length) :
    (natOf bs).testBit (bs.length - 1 - j) = bs[j] := by
  induction bs generalizing j with
  | nil => simp at h
  | cons b bs ih =>
    rw [natOf_cons, Nat.mul_comm]
    have hlt := natOf_lt bs
    cases j with
    | zero =>
      simp only [List.length_cons, Nat.add_sub_cancel, Nat.sub_zero, List.getElem_cons_zero]
      rw [Nat.testBit_two_pow_mul_add _ hlt]
      cases b <;> simp
    | succ j =>
      simp only [List.length_cons, List.getElem_cons_succ, Nat.add_sub_cancel]
      simp only [List.length_cons] at h
      rw [Nat.testBit_two_pow_mul_add _ hlt, if_pos (by omega), ← ih j (by omega)]
      congr 1
      omega

/-- A bit sequence is the bits of the number it spells. -/
theorem bitsOf_natOf (bs : List Bit) : bitsOf bs.length (natOf bs) = bs := by
  apply List.ext_getElem?
  intro j
  by_cases h : j < bs.length
  · rw [getElem?_bitsOf _ _ _ h, testBit_natOf bs j h, List.getElem?_eq_getElem h]
  · rw [List.getElem?_eq_none (by simpa using h), List.getElem?_eq_none (by simpa using h)]

theorem splitBits_append (xs rest : List Bit) : splitBits xs.length (xs ++ rest) = some (xs, rest) := by
  induction xs with
  | nil => rfl
  | cons x xs ih => simp [splitBits, ih]

/-- What `splitBits` takes off is the front of the sequence. -/
theorem splitBits_some {n : Nat} {bs xs rest : List Bit} (h : splitBits n bs = some (xs, rest)) :
    bs = xs ++ rest ∧ xs.length = n := by
  induction n generalizing bs xs with
  | zero =>
    simp only [splitBits, Option.some.injEq, Prod.mk.injEq] at h
    obtain ⟨rfl, rfl⟩ := h
    exact ⟨rfl, rfl⟩
  | succ n ih =>
    cases bs with
    | nil => simp [splitBits] at h
    | cons b bs =>
      simp only [splitBits] at h
      split at h
      · rename_i x r hx
        simp only [Option.some.injEq, Prod.mk.injEq] at h
        obtain ⟨rfl, rfl⟩ := h
        obtain ⟨rfl, hl⟩ := ih hx
        exact ⟨rfl, by simp [hl]⟩
      · cases h

theorem splitBits_none {n : Nat} {bs : List Bit} (h : splitBits n bs = none) : bs.length < n := by
  induction n generalizing bs with
  | zero => simp [splitBits] at h
  | succ n ih =>
    cases bs with
    | nil => simp
    | cons b bs =>
      simp only [splitBits] at h
      split at h
      · cases h
      · rename_i hx
        have := ih hx
        simp; omega

/-- The number and the rest that `takeNat` answers for the bits of a number. -/
theorem takeNat_bitsOf {n v : Nat} (h : v < 2 ^ n) (rest : List Bit) :
    takeNat n (bitsOf n v ++ rest) = .ok (v, rest) := by
  have := splitBits_append (bitsOf n v) rest
  rw [length_bitsOf] at this
  simp [takeNat, this, natOf_bitsOf h]

/-- What `takeNat` answers: the sequence is the bits of that number, then the rest. -/
theorem takeNat_ok {n v : Nat} {bs rest : List Bit} (h : takeNat n bs = .ok (v, rest)) :
    bs = bitsOf n v ++ rest ∧ v < 2 ^ n := by
  unfold takeNat at h
  split at h
  · rename_i x r hx
    simp only [Except.ok.injEq, Prod.mk.injEq] at h
    obtain ⟨rfl, rfl⟩ := h
    obtain ⟨rfl, rfl⟩ := splitBits_some hx
    exact ⟨by rw [bitsOf_natOf], natOf_lt x⟩
  · cases h

end Sys2Proof
end

