-- ==== Sys2Proof/Laws/Moves.lean ====
section
/-!
SUPPORT. What a result can be, and relations between the state before and the state after that every operation respects
when its primitive updates do: one lemma per operation, so that a frame or an invariant is proved on the primitive updates.
-/

namespace Sys2Proof.Machine

variable {α β : Type} {R Q : State → State → Prop}

/-! ### Results -/

@[simp] theorem Res.andThen_ok (a : α) (s : State) (k : α → Op β) : (Res.ok a s).andThen k = k a s := rfl
@[simp] theorem Res.andThen_raised (s : State) (k : α → Op β) : (Res.raised s : Res α).andThen k = .raised s := rfl
@[simp] theorem Res.andThen_fault (f : Fault) (k : α → Op β) : (Res.fault f : Res α).andThen k = .fault f := rfl
@[simp] theorem Res.andThen_refused (e : Refusal) (k : α → Op β) : (Res.refused e : Res α).andThen k = .refused e := rfl
@[simp] theorem Res.outcome_ok (a : α) (s : State) : (Res.ok a s).outcome = .next s := rfl
@[simp] theorem Res.outcome_raised (s : State) : (Res.raised s : Res α).outcome = .next s := rfl
@[simp] theorem Res.outcome_fault (f : Fault) : (Res.fault f : Res α).outcome = .fault f := rfl
@[simp] theorem Res.outcome_refused (e : Refusal) : (Res.refused e : Res α).outcome = .refused e := rfl

/-- An outcome is a next state exactly where the result is one, ordinarily or by a raised error. -/
theorem Res.outcome_eq_next {r : Res α} {t : State} (h : r.outcome = .next t) : (∃ a, r = .ok a t) ∨ r = .raised t := by
  cases r <;> simp_all [Res.outcome]

/-- A sequence ends ordinarily only through an ordinary end of its first part. -/
theorem Res.andThen_eq_ok {r : Res α} {k : α → Op β} {b : β} {t : State} (h : r.andThen k = .ok b t) :
    ∃ a s, r = .ok a s ∧ k a s = .ok b t := by
  cases r <;> simp_all [Res.andThen]

theorem Res.andThen_assoc {γ : Type} (r : Res α) (k : α → Op β) (m : β → Op γ) :
    (r.andThen k).andThen m = r.andThen fun a s => (k a s).andThen m := by
  cases r <;> rfl

/-! ### Relations that results respect -/

/-- The state a result holds, if any, is related to `s`: by `R` after an ordinary end, by `Q` after a raised error. -/
def Responds (R Q : State → State → Prop) (s : State) : Res α → Prop
  | .ok _ t => R s t
  | .raised t => Q s t
  | .fault _ => True
  | .refused _ => True

/-- From every state, the operation answers only related states. -/
def Moves (R Q : State → State → Prop) (f : Op α) : Prop := ∀ s, Responds R Q s (f s)

/-- A relation that can be followed through a sequence. -/
structure Closed (R Q : State → State → Prop) : Prop where
  refl : ∀ s, R s s
  trans : ∀ {s t u}, R s t → R t u → R s u
  after : ∀ {s t u}, R s t → Q t u → Q s u

theorem Responds.outcome_or {s t : State} {r : Res α} (h : Responds R Q s r) (ho : r.outcome = .next t) :
    R s t ∨ Q s t := by
  cases r <;> simp_all [Res.outcome, Responds]

theorem Moves.outcome_or {f : Op α} (h : Moves R Q f) {s t : State} (ho : (f s).outcome = .next t) : R s t ∨ Q s t :=
  (h s).outcome_or ho

theorem Moves.outcome {f : Op α} (h : Moves R R f) {s t : State} (ho : (f s).outcome = .next t) : R s t :=
  ((h s).outcome_or ho).elim id id

theorem Responds.andThen (hR : Closed R Q) {s : State} {r : Res α} {k : α → Op β} (h : Responds R Q s r)
    (hk : ∀ a t, R s t → Responds R Q t (k a t)) : Responds R Q s (r.andThen k) := by
  cases r with
  | ok a t =>
    have h2 := hk a t h
    simp only [Res.andThen_ok]
    cases hkt : k a t <;> rw [hkt] at h2 <;> first | trivial | exact hR.trans h h2 | exact hR.after h h2
  | raised t => exact h
  | fault f => trivial
  | refused e => trivial

theorem Responds.of_trans (hR : Closed R Q) {s t : State} (h : R s t) {r : Res α} (hr : Responds R Q t r) : Responds R Q s r := by
  cases r <;> first | exact hR.trans h hr | exact hR.after h hr | trivial

theorem Moves.andThen (hR : Closed R Q) {f : Op α} {k : α → Op β} (h : Moves R Q f) (hk : ∀ a, Moves R Q (k a)) :
    Moves R Q (fun s => (f s).andThen fun a s => k a s) := fun s => (h s).andThen hR fun a t _ => hk a t

theorem Moves.forEach (hR : Closed R Q) {f : β → Op Unit} (h : ∀ x, Moves R Q (f x)) (xs : List β) :
    Moves R Q (Machine.forEach f xs) := by
  induction xs with
  | nil => exact fun s => hR.refl s
  | cons x xs ih => exact Moves.andThen hR (h x) fun _ => ih

theorem Moves.repeatOp (hR : Closed R Q) {f : Op Unit} (h : Moves R Q f) (k : Nat) : Moves R Q (Machine.repeatOp f k) := by
  induction k with
  | zero => exact fun s => hR.refl s
  | succ k ih => exact Moves.andThen hR h fun _ => ih

theorem moves_orFault (hR : Closed R Q) (o : State → Option α) (f : Fault) : Moves R Q (fun s => orFault (o s) f s) := by
  intro s
  dsimp only [orFault]
  split
  · exact hR.refl s
  · trivial

theorem moves_readSrc (hR : Closed R Q) (a : Nat) : Moves R Q (readSrc a) := by
  intro s
  unfold readSrc
  split
  · exact moves_orFault hR (fun s => Table.get s.src a) .srcUnwritten s
  · trivial

theorem moves_readFreq (hR : Closed R Q) (b : Nat) : Moves R Q (readFreq b) := moves_orFault hR _ _

theorem moves_readCodeLen (hR : Closed R Q) (b : Nat) : Moves R Q (readCodeLen b) := moves_orFault hR _ _

theorem moves_readCodeBits (hR : Closed R Q) (b : Nat) : Moves R Q (readCodeBits b) := moves_orFault hR _ _

theorem moves_readNode (hR : Closed R Q) (i : Nat) : Moves R Q (readNode i) := by
  intro s
  unfold readNode
  split
  · exact moves_orFault hR (fun s => Table.get s.node i) .nodeUnwritten s
  · trivial

@[simp] theorem readChild_internal (b : Bit) (f : Word64) (l r : NodeIx) (s : State) :
    readChild b (.internal f l r) s = .ok (if b then r else l) s := rfl

@[simp] theorem readChild_leaf (b : Bit) (sym : Byte) (f : Word64) (s : State) :
    readChild b (.leaf sym f) s = .ok (Config.freeChild s.freeNext) s.freeRead := rfl

/-- A read of a child reads a free value at a Leaf, and changes nothing else (U24). -/
theorem moves_readChild (hR : Closed R Q) (hf : ∀ s, R s s.freeRead) (b : Bit) (e : NodeEntry) : Moves R Q (readChild b e) := by
  intro s
  cases e with
  | leaf sym f => exact hf s
  | internal f l r => exact hR.refl s

theorem moves_leastOf (hR : Closed R Q) (l : List Nat) : Moves R Q (leastOf l) := by
  induction l with
  | nil => exact fun s => hR.refl s
  | cons i l ih =>
    refine Moves.andThen hR (moves_readNode hR i) fun e => Moves.andThen hR ih fun m s => ?_
    cases m <;> exact hR.refl s

/-! ### What the units write, as conditions on a relation -/

/-- The packer's updates (R140 to R145). -/
structure PackerMoves (R Q : State → State → Prop) : Prop extends Closed R Q where
  push : ∀ s v, s.dstLen.toNat < s.dstCap →
    R s { s with dst := Table.set s.dst s.dstLen.toNat v, dstLen := s.dstLen + 1 }
  put : ∀ s b, s.nbits.toNat ≠ 7 →
    R s { s with acc := setStreamBit s.acc s.nbits.toNat b, nbits := s.nbits + 1 }
  clear : ∀ s, R s { s with acc := 0, nbits := 0 }

/-- The unpacker's updates (R151 to R154). -/
structure UnpackerMoves (R Q : State → State → Prop) : Prop extends Closed R Q where
  ahead : ∀ s k, s.bp.toNat + k ≤ srcBits s → R s { s with bp := s.bp + BitVec.ofNat 67 k }
  align : ∀ s, R s { s with bp := alignUp s.bp }

/-- The construction's updates (R101 to R104). -/
structure BuilderMoves (R Q : State → State → Prop) : Prop extends Closed R Q where
  init : ∀ s, R s { s with n := 0, nint := 0, nalloc := 0, root := NIL, active := [] }
  writeNode : ∀ s i e, i < 511 → R s { s with node := Table.set s.node i e }
  activate : ∀ s i, i < 511 → R s { s with active := insertIx s.active i }
  remove : ∀ s i, R s { s with active := eraseIx s.active i }
  root : ∀ s r, R s { s with root := r }
  merged : ∀ s, s.nint.toNat < 255 → R s { s with nint := s.nint + 1 }
  one : ∀ s, R s { s with nint := 1 }
  count : ∀ s (k : BitVec 9), k.toNat ≤ 256 → R s { s with n := k }

/-- The counter's updates, and the pass over SRC (R90 to R92, R167). -/
structure CounterMoves (R Q : State → State → Prop) : Prop extends Closed R Q where
  clear : ∀ s, R s { s with freq := Table.fill 256 0 }
  count : ∀ s (b : Byte) v, R s { s with freq := Table.set s.freq b.toNat v }
  start : ∀ s, R s { s with epos := 0 }
  ahead : ∀ s, s.epos.toNat < s.srcLen.toNat → R s { s with epos := s.epos + 1 }

/-- The codebook's updates (R130). -/
structure CodebookMoves (R Q : State → State → Prop) : Prop extends Closed R Q where
  clear : ∀ s, R s { s with codeLen := Table.fill 256 0 }
  code : ∀ s (b : Byte) l w,
    R s { s with codeLen := Table.set s.codeLen b.toNat l, codeBits := Table.set s.codeBits b.toNat w }

/-- The two passes' updates and the packer's, together (R167). -/
structure EncoderMoves (R Q : State → State → Prop) : Prop extends PackerMoves R Q where
  start : ∀ s, R s { s with epos := 0 }
  ahead : ∀ s, s.epos.toNat < s.srcLen.toNat → R s { s with epos := s.epos + 1 }

/-- The deserialization's updates (R109, R110). -/
structure ParserMoves (R Q : State → State → Prop) : Prop extends UnpackerMoves R Q where
  init : ∀ s, R s { s with nalloc := 0, n := 0, nint := 0, root := NIL }
  writeNode : ∀ s i e, i < 511 → R s { s with node := Table.set s.node i e }
  alloc : ∀ s, s.nalloc.toNat < 511 → R s { s with nalloc := s.nalloc + 1 }
  root : ∀ s r, R s { s with root := r }
  raised : ∀ s, Q s (s.raised .malformedContainer)

/-- The updates of the descent (R184), before a symbol is emitted. -/
structure DescentMoves (R Q : State → State → Prop) : Prop extends UnpackerMoves R Q where
  atRoot : ∀ s, R s (atRoot s)
  leaf : ∀ s c, R s { s with dnode := c }
  inner : ∀ s c, R s { s with dnode := c, dstate := .descending }
  free : ∀ s, R s s.freeRead
  truncated : ∀ s, Q s (s.raised .truncatedBitstream)
  unreachable : ∀ s, Q s (s.raised .unreachableSymbol)

/-- The updates of the symbol decoder (R184). -/
structure SymbolMoves (R Q : State → State → Prop) : Prop extends DescentMoves R Q where
  push : ∀ s v, s.dstLen.toNat < s.dstCap →
    R s { s with dst := Table.set s.dst s.dstLen.toNat v, dstLen := s.dstLen + 1 }
  emitted : ∀ s, R s { s with emitted := s.emitted + 1, dstate := .atRoot }

/-! ### Packer -/

theorem moves_pushDst (h : PackerMoves R Q) (v : Byte) : Moves R Q (pushDst v) := by
  intro s
  unfold pushDst
  split
  · exact h.push s v ‹_›
  · trivial

theorem moves_bwPut (h : PackerMoves R Q) (b : Bit) : Moves R Q (bwPut b) := by
  intro s
  unfold bwPut
  dsimp only
  split
  · exact (moves_pushDst h _ s).andThen h.toClosed fun _ t _ => h.clear t
  · exact h.put s b ‹_›

theorem moves_putBits (h : PackerMoves R Q) (bs : List Bit) : Moves R Q (putBits bs) :=
  Moves.forEach h.toClosed (moves_bwPut h) bs

theorem moves_bwPutn (h : PackerMoves R Q) (n : Nat) (v : CodeWord) : Moves R Q (bwPutn n v) := moves_putBits h _

theorem moves_bwAlign (h : PackerMoves R Q) : Moves R Q bwAlign := fun s => moves_putBits h _ s

theorem moves_bwFlush (h : PackerMoves R Q) : Moves R Q bwFlush := moves_bwAlign h

theorem moves_bwPutbyte (h : PackerMoves R Q) (v : Byte) : Moves R Q (bwPutbyte v) := moves_pushDst h v

/-! ### Unpacker -/

theorem moves_brGet (h : UnpackerMoves R Q) : Moves R Q brGet := by
  intro s
  unfold brGet readSrc
  split
  · rename_i hlt
    unfold orFault
    split
    · exact h.ahead s 1 (by unfold srcBits; omega)
    · trivial
  · trivial

theorem moves_getLoop (h : UnpackerMoves R Q) (k : Nat) (v : Word64) : Moves R Q (getLoop k v) := by
  induction k generalizing v with
  | zero => exact fun s => h.refl s
  | succ k ih => exact Moves.andThen h.toClosed (moves_brGet h) fun _ => ih _

theorem moves_brGetn (h : UnpackerMoves R Q) (n : Nat) : Moves R Q (brGetn n) := moves_getLoop h n 0

theorem moves_brGetbyte (h : UnpackerMoves R Q) : Moves R Q brGetbyte := by
  intro s
  unfold brGetbyte
  split
  · trivial
  · rename_i hf
    unfold readSrc
    split
    · unfold orFault
      split
      · exact h.ahead s 8 (by simpa [fewerThan] using hf)
      · trivial
    · trivial

theorem moves_brAlign (h : UnpackerMoves R Q) : Moves R Q brAlign := fun s => h.align s

/-! ### Construction -/

theorem moves_writeNode (hw : ∀ s i e, i < 511 → R s { s with node := Table.set s.node i e }) (i : Nat) (e : NodeEntry) :
    Moves R Q (writeNode i e) := by
  intro s
  unfold writeNode
  split
  · exact hw s i e ‹_›
  · trivial

/-- From a state before a counted number of rounds, `N` grows by at most one a round. -/
theorem moves_initLeaves (h : BuilderMoves R Q) (lo k : Nat) (hk : lo + k ≤ 256) (s : State) (hn : s.n.toNat ≤ lo) :
    Responds R Q s (forEach initLeaf (List.range' lo k) s) := by
  induction k generalizing lo s with
  | zero => exact h.refl s
  | succ k ih =>
    rw [List.range'_succ, forEach]
    have hC := h.toClosed
    unfold initLeaf readFreq orFault
    split
    · rename_i v hv
      simp only [Res.andThen_ok]
      split
      · rw [Res.andThen_ok]
        exact ih (lo + 1) (by omega) s (by omega)
      · unfold writeNode
        rw [if_pos (by omega)]
        simp only [Res.andThen_ok, activate]
        have hn1 : (s.n + 1).toNat ≤ lo + 1 := by
          rw [BitVec.toNat_add, Nat.mod_eq_of_lt (show s.n.toNat + (1 : BitVec 9).toNat < 2 ^ 9 by
            show s.n.toNat + 1 < 512; omega)]
          show s.n.toNat + 1 ≤ lo + 1
          omega
        have h1 := h.writeNode s lo (.leaf (BitVec.ofNat 8 lo) v) (by omega)
        have h2 := h.activate { s with node := Table.set s.node lo (.leaf (BitVec.ofNat 8 lo) v) } lo (by omega)
        have h3 := h.count { s with
          node := Table.set s.node lo (.leaf (BitVec.ofNat 8 lo) v), active := insertIx s.active lo } (s.n + 1) (by omega)
        exact Responds.of_trans hC (h.trans h1 (h.trans h2 h3)) (ih (lo + 1) (by omega) _ hn1)
    · trivial

theorem moves_tbInit (h : BuilderMoves R Q) : Moves R Q tbInit := by
  intro s
  have := moves_initLeaves h 0 256 (le_refl _) { s with n := 0, nint := 0, nalloc := 0, root := NIL, active := [] } (by simp)
  rw [← List.range_eq_range'] at this
  exact Responds.of_trans h.toClosed (h.init s) this

theorem moves_removeLeast (h : BuilderMoves R Q) : Moves R Q removeLeast := by
  refine fun s => (moves_leastOf h.toClosed s.active s).andThen h.toClosed fun m t _ => ?_
  cases m with
  | none => trivial
  | some p => exact h.remove t p.1

theorem moves_tbMerge (h : BuilderMoves R Q) : Moves R Q tbMerge := by
  refine Moves.andThen h.toClosed (moves_removeLeast h) fun a => Moves.andThen h.toClosed (moves_removeLeast h) fun b s => ?_
  dsimp only
  unfold writeNode
  split
  · rename_i hk
    exact h.trans (h.writeNode s _ _ hk)
      (h.trans (h.activate _ _ hk) (h.merged _ (by show s.nint.toNat < 255; omega)))
  · trivial

theorem moves_onlyActive (hR : Closed R Q) : Moves R Q onlyActive := by
  intro s
  unfold onlyActive
  split
  · exact hR.refl s
  · trivial

theorem moves_buildOne (h : BuilderMoves R Q) : Moves R Q buildOne := by
  refine Moves.andThen h.toClosed (moves_onlyActive h.toClosed) fun a =>
    Moves.andThen h.toClosed (moves_readNode h.toClosed a) fun e s => ?_
  refine (moves_writeNode h.writeNode 256 _ s).andThen h.toClosed fun _ t _ => ?_
  exact h.trans (h.remove t a) (h.trans (h.activate _ 256 (by omega)) (h.trans (h.one _) (h.root _ 256#9)))

theorem moves_buildMany (h : BuilderMoves R Q) : Moves R Q buildMany := by
  intro s
  refine (Moves.repeatOp h.toClosed (moves_tbMerge h) _ s).andThen h.toClosed fun _ t _ => ?_
  exact (moves_onlyActive h.toClosed t).andThen h.toClosed fun r u _ => h.root u _

theorem moves_tbBuild (h : BuilderMoves R Q) : Moves R Q tbBuild := by
  refine Moves.andThen h.toClosed (moves_tbInit h) fun _ s => ?_
  split
  · exact h.root s NIL
  · split
    · exact moves_buildOne h s
    · exact moves_buildMany h s

/-! ### Serialization, the codebook, the passes over SRC -/

theorem moves_serNode (h : PackerMoves R Q) (d i : Nat) : Moves R Q (serNode d i) := by
  have hC := h.toClosed
  induction d generalizing i with
  | zero => exact fun s => trivial
  | succ d ih =>
    refine Moves.andThen hC (moves_readNode hC i) fun e s => ?_
    cases e with
    | leaf sym f => exact (moves_bwPut h _ s).andThen hC fun _ t _ => moves_putBits h _ t
    | internal f l r => exact (moves_bwPut h _ s).andThen hC fun _ t _ => (ih _ t).andThen hC fun _ u _ => ih _ u

theorem moves_tbSer (h : PackerMoves R Q) (hf : ∀ s, R s s.freeRead) : Moves R Q tbSer := by
  have hC := h.toClosed
  intro s
  unfold tbSer
  split
  · exact moves_bwPut h _ s
  · refine (moves_bwPut h _ s).andThen hC fun _ t _ => (moves_readNode hC _ t).andThen hC fun e u _ =>
      (moves_readChild hC hf true e u).andThen hC fun r v _ => ?_
    split
    · exact (moves_readChild hC hf false e v).andThen hC fun l w _ => moves_serNode h _ _ w
    · exact moves_serNode h _ _ v

theorem moves_encTree (h : PackerMoves R Q) (hf : ∀ s, R s s.freeRead) : Moves R Q encTree :=
  Moves.andThen h.toClosed (moves_tbSer h hf) fun _ => moves_bwAlign h

theorem moves_encLen (h : PackerMoves R Q) : Moves R Q encLen := fun s =>
  Moves.forEach h.toClosed (fun _ => moves_bwPutbyte h _) _ s

theorem moves_putCode (h : PackerMoves R Q) (b : Nat) : Moves R Q (putCode b) := by
  have hC := h.toClosed
  refine Moves.andThen hC (moves_readCodeLen hC b) fun l s => ?_
  split
  · trivial
  · exact (moves_readCodeBits hC b s).andThen hC fun w t _ => moves_bwPutn h _ _ t

/-- A read of SRC answers a byte in the same state, or a fault. -/
theorem readSrc_cases (a : Nat) (s : State) : (∃ v, readSrc a s = .ok v s) ∨ ∃ f, readSrc a s = .fault f := by
  unfold readSrc orFault
  split
  · split
    · exact .inl ⟨_, rfl⟩
    · exact .inr ⟨_, rfl⟩
  · exact .inr ⟨_, rfl⟩

/-- The packer's operations leave `SRC_LEN` and `EPOS`. -/
theorem packerKeeps : PackerMoves (fun s t => t.srcLen = s.srcLen ∧ t.epos = s.epos) (fun s t => t.srcLen = s.srcLen ∧ t.epos = s.epos) where
  refl := fun _ => ⟨rfl, rfl⟩
  trans := fun h k => ⟨k.1.trans h.1, k.2.trans h.2⟩
  after := fun h k => ⟨k.1.trans h.1, k.2.trans h.2⟩
  push := fun _ _ _ => ⟨rfl, rfl⟩
  put := fun _ _ _ => ⟨rfl, rfl⟩
  clear := fun _ => ⟨rfl, rfl⟩

theorem moves_codesLoop (h : EncoderMoves R Q) (k : Nat) : Moves R Q (codesLoop k) := by
  have hC := h.toClosed
  induction k with
  | zero => exact fun s => h.refl s
  | succ k ih =>
    intro s
    unfold codesLoop
    split
    · rename_i hlt
      rcases readSrc_cases s.epos.toNat s with ⟨v, hr⟩ | ⟨f, hr⟩ <;> rw [hr]
      · rw [Res.andThen_ok]
        have h1 := moves_putCode h.toPackerMoves v.toNat s
        have h2 := moves_putCode packerKeeps v.toNat s
        cases hp : putCode v.toNat s with
        | ok a u =>
          rw [hp] at h1 h2
          rw [Res.andThen_ok]
          have h3 : R u { u with epos := u.epos + 1 } := h.ahead u (by rw [h2.1, h2.2]; exact hlt)
          exact Responds.of_trans hC (h.trans h1 h3) (ih _)
        | raised u => rw [hp] at h1; exact h1
        | fault f => trivial
        | refused f => trivial
      · trivial
    · exact h.refl s

theorem moves_encCodes (h : EncoderMoves R Q) : Moves R Q encCodes := fun s =>
  Responds.of_trans h.toClosed (h.start s) (moves_codesLoop h _ _)

theorem moves_fcCount (h : CounterMoves R Q) (b : Byte) : Moves R Q (fcCount b) :=
  Moves.andThen h.toClosed (moves_readFreq h.toClosed b.toNat) fun v s => h.count s b (v + 1)

theorem moves_scanLoop (h : CounterMoves R Q) (k : Nat) : Moves R Q (scanLoop k) := by
  have hC := h.toClosed
  induction k with
  | zero => exact fun s => h.refl s
  | succ k ih =>
    intro s
    unfold scanLoop
    split
    · rename_i hlt
      rcases readSrc_cases s.epos.toNat s with ⟨v, hr⟩ | ⟨f, hr⟩ <;> rw [hr]
      · rw [Res.andThen_ok]
        unfold fcCount readFreq orFault writeFreq
        split
        · simp only [Res.andThen_ok]
          exact Responds.of_trans hC (h.trans (h.count s v _) (h.ahead _ hlt)) (ih _)
        · trivial
      · trivial
    · exact h.refl s

theorem moves_fcScan (h : CounterMoves R Q) : Moves R Q fcScan := fun s =>
  Responds.of_trans h.toClosed (h.trans (h.clear s) (h.start _)) (moves_scanLoop h _ _)

theorem moves_walk (h : CodebookMoves R Q) (d i : Nat) (path : List Bit) : Moves R Q (walk d i path) := by
  have hC := h.toClosed
  induction d generalizing i path with
  | zero => exact fun s => trivial
  | succ d ih =>
    refine Moves.andThen hC (moves_readNode hC i) fun e s => ?_
    cases e with
    | leaf sym f =>
      dsimp only
      split
      · exact h.code s sym _ _
      · trivial
    | internal f l r =>
      refine (ih _ _ s).andThen hC fun _ t _ => ?_
      split
      · exact h.refl t
      · exact ih _ _ t

theorem moves_cbGen (h : CodebookMoves R Q) : Moves R Q cbGen := by
  intro s
  unfold cbGen
  dsimp only
  refine Responds.of_trans h.toClosed (h.clear s) ?_
  split
  · exact h.refl _
  · exact moves_walk h _ _ _ _

/-! ### Deserialization -/

theorem moves_allocNode (h : ParserMoves R Q) : Moves R Q allocNode := by
  intro s
  unfold allocNode
  split
  · exact h.raised s
  · exact h.alloc s (by omega)

theorem moves_desNode (h : ParserMoves R Q) (d : Nat) : Moves R Q (desNode d) := by
  have hC := h.toClosed
  induction d with
  | zero => exact fun s => h.raised s
  | succ d ih =>
    refine Moves.andThen hC (moves_allocNode h) fun i s => ?_
    split
    · exact h.raised s
    · refine Moves.andThen hC (moves_brGet h.toUnpackerMoves) (fun m s => ?_) s
      split
      · split
        · exact h.raised s
        · refine (moves_brGetn h.toUnpackerMoves 8 s).andThen hC fun v t _ => ?_
          exact (moves_writeNode h.writeNode i _ t).andThen hC fun _ u _ => hC.refl u
      · refine (ih s).andThen hC fun l t _ => (ih t).andThen hC fun r u _ => ?_
        exact (moves_writeNode h.writeNode i _ u).andThen hC fun _ w _ => hC.refl w

theorem moves_setParsedRoot (h : ParserMoves R Q) (r : Nat) : Moves R Q (setParsedRoot r) := by
  refine Moves.andThen h.toClosed (moves_readNode h.toClosed r) fun e s => ?_
  cases e with
  | leaf sym f =>
    dsimp only
    unfold writeNode
    split
    · rename_i hj
      exact h.trans (h.writeNode s _ _ hj) (h.trans (h.alloc _ hj) (h.root _ _))
    · trivial
  | internal f a b => exact h.root s _

theorem moves_tbDes (h : ParserMoves R Q) : Moves R Q tbDes := by
  intro s
  unfold tbDes
  dsimp only
  have h0 := h.init s
  refine Responds.of_trans h.toClosed h0 ?_
  split
  · exact h.raised _
  · refine (moves_brGet h.toUnpackerMoves _).andThen h.toClosed fun p t _ => ?_
    split
    · exact (moves_desNode h desBound t).andThen h.toClosed fun r u _ => moves_setParsedRoot h r u
    · exact h.root t NIL

theorem moves_decTree (h : ParserMoves R Q) : Moves R Q decTree :=
  Moves.andThen h.toClosed (moves_tbDes h) fun _ => moves_brAlign h.toUnpackerMoves

/-! ### Symbols -/

theorem moves_descendBit (h : DescentMoves R Q) (b : Bit) : Moves R Q (descendBit b) := by
  have hC := h.toClosed
  intro s
  refine (moves_readNode hC s.dnode.toNat s).andThen hC fun e t _ =>
    (moves_readChild hC h.free b e t).andThen hC fun c u _ => ?_
  split
  · exact h.unreachable u
  · refine (moves_readNode hC c.toNat u).andThen hC fun e v _ => ?_
    cases e with
    | leaf sym f => exact h.leaf v c
    | internal f l r => exact h.inner v c

theorem moves_emitSymbol (h : SymbolMoves R Q) (sym : Byte) : Moves R Q (emitSymbol sym) := by
  intro s
  unfold emitSymbol pushDst
  split
  · exact h.trans (h.push s sym ‹_›) (h.emitted _)
  · trivial

theorem moves_symbolLoop (h : SymbolMoves R Q) (k : Nat) : Moves R Q (symbolLoop k) := by
  have hC := h.toClosed
  induction k with
  | zero => exact fun s => h.truncated s
  | succ k ih =>
    intro s
    unfold symbolLoop
    split
    · exact h.truncated s
    · refine (moves_brGet h.toUnpackerMoves s).andThen hC fun b t _ =>
        (moves_descendBit h.toDescentMoves b t).andThen hC fun m u _ => ?_
      cases m with
      | none => exact ih u
      | some sym => exact moves_emitSymbol h sym u

theorem moves_decSymbol (h : SymbolMoves R Q) : Moves R Q decSymbol := by
  exact fun s => Responds.of_trans h.toClosed (h.atRoot s) (moves_symbolLoop h (roundsLeft s) (atRoot s))

/-- The updates of DEC_LEN (R182). -/
structure LengthMoves (R Q : State → State → Prop) : Prop extends UnpackerMoves R Q where
  count : ∀ s v, R s { s with count := v }
  raised : ∀ s, Q s (s.raised .malformedContainer)

theorem moves_countByte (h : LengthMoves R Q) : Moves R Q countByte :=
  Moves.andThen h.toClosed (moves_brGetbyte h.toUnpackerMoves) fun _ s => h.count s _

theorem moves_checkCount (h : LengthMoves R Q) : Moves R Q checkCount := by
  intro s
  unfold checkCount
  split
  · exact h.raised s
  · exact h.refl s

theorem moves_decLen (h : LengthMoves R Q) : Moves R Q decLen := by
  intro s
  unfold decLen
  split
  · exact h.raised s
  · exact Responds.of_trans h.toClosed (h.count s 0)
      ((Moves.repeatOp h.toClosed (moves_countByte h) 8 _).andThen h.toClosed fun _ t _ => moves_checkCount h t)

/-! ### Container elements -/

theorem moves_consume (h : UnpackerMoves R Q) (k : Nat) (e : ErrKind) (hr : ∀ s, Q s (s.raised e)) :
    Moves R Q (consume k e) := by
  intro s
  unfold consume
  split
  · exact hr s
  · rename_i hf
    exact h.ahead s k (by simpa [fewerThan] using hf)

theorem moves_tEmpty (h : ParserMoves R Q) : Moves R Q tEmpty :=
  Moves.andThen h.toClosed (moves_consume h.toUnpackerMoves _ _ h.raised) fun _ s => h.root s NIL

theorem moves_tPresent (h : ParserMoves R Q) : Moves R Q tPresent := moves_consume h.toUnpackerMoves _ _ h.raised

theorem moves_nLeaf (h : ParserMoves R Q) (sym : Byte) : Moves R Q (nLeaf sym) := by
  have hC := h.toClosed
  have hc := fun k => moves_consume h.toUnpackerMoves k .malformedContainer h.raised
  exact Moves.andThen hC (moves_allocNode h) fun i => Moves.andThen hC (hc 1) fun _ => Moves.andThen hC (hc 8) fun _ =>
    moves_writeNode h.writeNode i _

theorem moves_nInternal (h : ParserMoves R Q) : Moves R Q nInternal :=
  Moves.andThen h.toClosed (moves_allocNode h) fun _ => moves_consume h.toUnpackerMoves _ _ h.raised

theorem moves_fLength (h : LengthMoves R Q) (len : Word64) : Moves R Q (fLength len) := by
  refine Moves.andThen h.toClosed (moves_consume h.toUnpackerMoves _ _ h.raised) fun _ s => ?_
  exact Responds.of_trans h.toClosed (h.count s len) (moves_checkCount h _)

theorem moves_followCode (h : SymbolMoves R Q) (bs : List Bit) : Moves R Q (followCode bs) := by
  have hC := h.toClosed
  induction bs with
  | nil => exact fun s => trivial
  | cons b bs ih =>
    refine Moves.andThen hC (moves_consume h.toUnpackerMoves _ _ h.truncated) fun _ =>
      Moves.andThen hC (moves_descendBit h.toDescentMoves b) fun m s => ?_
    cases m with
    | none => exact ih s
    | some sym =>
      dsimp only
      split
      · exact moves_emitSymbol h sym s
      · trivial

theorem moves_fCode (h : SymbolMoves R Q) (bs : List Bit) : Moves R Q (fCode bs) := fun s =>
  Responds.of_trans h.toClosed (h.atRoot s) (moves_followCode h bs _)

theorem moves_fPad (h : UnpackerMoves R Q) : Moves R Q fPad := by
  intro s
  unfold fPad
  split
  · exact h.refl s
  · exact h.align s

theorem moves_symbolsLoop (h : SymbolMoves R Q) (k : Nat) : Moves R Q (symbolsLoop k) := by
  induction k with
  | zero => exact fun s => h.truncated s
  | succ k ih =>
    intro s
    unfold symbolsLoop
    split
    · exact (moves_decSymbol h s).andThen h.toClosed fun _ t _ => ih t
    · exact h.refl s

theorem moves_decSymbols (h : SymbolMoves R Q) (h0 : ∀ s, R s { s with emitted := 0 }) : Moves R Q decSymbols := fun s =>
  Responds.of_trans h.toClosed (h0 s) (moves_symbolsLoop h _ _)

end Sys2Proof.Machine
end

