-- ==== Sys2Proof/Laws/Table.lean ====
section
/-!
SUPPORT. Tables and sets of indices: read after write, other entries unchanged, the canonical form kept.
-/

namespace Sys2Proof.Machine

variable {α : Type}

@[simp] theorem Table.get_nil (i : Nat) : Table.get ([] : Table α) i = none := rfl

theorem Table.get_cons (k : Nat) (v : α) (t : Table α) (i : Nat) :
    Table.get ((k, v) :: t) i = if i = k then some v else Table.get t i := rfl

@[simp] theorem Table.get_set_self (t : Table α) (i : Nat) (v : α) : Table.get (Table.set t i v) i = some v := by
  induction t with
  | nil => simp [Table.set, Table.get]
  | cons p t ih =>
    obtain ⟨k, w⟩ := p
    unfold Table.set
    split
    · simp [Table.get]
    · split
      · simp [Table.get]
      · simp [Table.get, *]

theorem Table.get_set_ne (t : Table α) {i j : Nat} (v : α) (h : j ≠ i) :
    Table.get (Table.set t i v) j = Table.get t j := by
  induction t with
  | nil => simp [Table.set, Table.get, h]
  | cons p t ih =>
    obtain ⟨k, w⟩ := p
    unfold Table.set
    split
    · simp [Table.get, h]
    · split
      · rename_i hk
        subst hk
        simp [Table.get, h]
      · simp [Table.get, ih]

theorem Table.get_set (t : Table α) (i j : Nat) (v : α) :
    Table.get (Table.set t i v) j = if j = i then some v else Table.get t j := by
  split
  · rename_i h; subst h; simp
  · rename_i h; exact Table.get_set_ne t v h

theorem Table.risesFrom_mono {lo lo' : Nat} (h : lo' ≤ lo) (t : Table α) :
    Table.risesFrom lo t = true → Table.risesFrom lo' t = true := by
  cases t with
  | nil => simp [Table.risesFrom]
  | cons p t =>
    obtain ⟨k, w⟩ := p
    simp only [Table.risesFrom, Bool.and_eq_true, decide_eq_true_eq]
    rintro ⟨h1, h2⟩
    exact ⟨by omega, h2⟩

theorem Table.risesFrom_set {lo i : Nat} (hi : lo ≤ i) (t : Table α) (v : α)
    (h : Table.risesFrom lo t = true) : Table.risesFrom lo (Table.set t i v) = true := by
  induction t generalizing lo with
  | nil => simp [Table.set, Table.risesFrom, hi]
  | cons p t ih =>
    obtain ⟨k, w⟩ := p
    simp only [Table.risesFrom, Bool.and_eq_true, decide_eq_true_eq] at h
    unfold Table.set
    split
    · simp only [Table.risesFrom, Bool.and_eq_true, decide_eq_true_eq]
      exact ⟨hi, by omega, h.2⟩
    · split
      · rename_i hk
        subst hk
        simp [Table.risesFrom, h]
      · simp only [Table.risesFrom, Bool.and_eq_true, decide_eq_true_eq]
        exact ⟨h.1, ih (by omega) h.2⟩

/-- Every write keeps the canonical form. -/
theorem Table.wf_set (t : Table α) (i : Nat) (v : α) (h : Table.wf t = true) : Table.wf (Table.set t i v) = true :=
  Table.risesFrom_set (Nat.zero_le i) t v h

/-- Every write of a byte keeps the canonical form of a byte space. -/
theorem Memory.wf_set (m : Memory) (a : Nat) (v : Byte) (h : Memory.wf m = true) :
    Memory.wf (Table.set m a v) = true := Table.wf_set m a v h

theorem Table.get_none_of_risesFrom {lo i : Nat} (t : Table α) (h : Table.risesFrom lo t = true) (hi : i < lo) :
    Table.get t i = none := by
  induction t generalizing lo with
  | nil => rfl
  | cons p t ih =>
    obtain ⟨k, w⟩ := p
    simp only [Table.risesFrom, Bool.and_eq_true, decide_eq_true_eq] at h
    rw [Table.get_cons, if_neg (by omega)]
    exact ih h.2 (by omega)

/-- Canonical tables with the same reads are the same data. -/
theorem Table.ext_of_risesFrom {lo : Nat} (t u : Table α) (ht : Table.risesFrom lo t = true)
    (hu : Table.risesFrom lo u = true) (h : ∀ i, Table.get t i = Table.get u i) : t = u := by
  induction t generalizing u lo with
  | nil =>
    cases u with
    | nil => rfl
    | cons p u => obtain ⟨k, w⟩ := p; simpa [Table.get] using h k
  | cons p t ih =>
    obtain ⟨k, w⟩ := p
    cases u with
    | nil => simpa [Table.get] using h k
    | cons q u =>
      obtain ⟨k', w'⟩ := q
      simp only [Table.risesFrom, Bool.and_eq_true, decide_eq_true_eq] at ht hu
      have hk : k = k' := by
        by_contra hne
        rcases Nat.lt_or_gt_of_ne hne with hlt | hgt
        · have := h k
          rw [Table.get_cons, Table.get_cons, if_pos rfl, if_neg hne,
            Table.get_none_of_risesFrom u hu.2 (by omega)] at this
          cases this
        · have := h k'
          rw [Table.get_cons, Table.get_cons, if_pos rfl, if_neg (fun e => hne e.symm),
            Table.get_none_of_risesFrom t ht.2 (by omega)] at this
          cases this
      subst hk
      have hw : w = w' := by simpa [Table.get] using h k
      subst hw
      congr 1
      refine ih (lo := k + 1) u ht.2 hu.2 fun i => ?_
      by_cases hi : i = k
      · subst hi
        rw [Table.get_none_of_risesFrom t ht.2 (by omega), Table.get_none_of_risesFrom u hu.2 (by omega)]
      · simpa [Table.get_cons, hi] using h i

theorem Table.ext_of_wf (t u : Table α) (ht : Table.wf t = true) (hu : Table.wf u = true)
    (h : ∀ i, Table.get t i = Table.get u i) : t = u := Table.ext_of_risesFrom t u ht hu h

theorem Table.get_map_range' (lo n : Nat) (v : α) (i : Nat) :
    Table.get ((List.range' lo n).map fun i => (i, v)) i = if lo ≤ i ∧ i < lo + n then some v else none := by
  induction n generalizing lo with
  | zero => simp
  | succ n ih =>
    simp only [List.range'_succ, List.map_cons, Table.get_cons, ih]
    by_cases h : i = lo
    · subst h; simp
    · simp only [h, if_false]
      congr 1
      simp only [eq_iff_iff]
      omega

@[simp] theorem Table.get_fill (n : Nat) (v : α) (i : Nat) :
    Table.get (Table.fill n v) i = if i < n then some v else none := by
  have := Table.get_map_range' 0 n v i
  simpa [Table.fill, List.range_eq_range'] using this

/-- A table listed by a function. -/
theorem Table.get_map_range (n : Nat) (f : Nat → α) (i : Nat) :
    Table.get ((List.range n).map fun a => (a, f a)) i = if i < n then some (f i) else none := by
  have key : ∀ (l : List Nat), Table.get (l.map fun a => (a, f a)) i = if i ∈ l then some (f i) else none := by
    intro l
    induction l with
    | nil => rfl
    | cons a l ih =>
      simp only [List.map_cons, Table.get, ih, List.mem_cons]
      by_cases h : i = a
      · subst h; simp
      · simp [h]
  rw [key]
  simp only [List.mem_range]

theorem Table.risesFrom_map_range' (lo n : Nat) (v : α) :
    Table.risesFrom lo ((List.range' lo n).map fun i => (i, v)) = true := by
  induction n generalizing lo with
  | zero => simp [Table.risesFrom]
  | succ n ih => simp [List.range'_succ, Table.risesFrom, ih]

theorem Table.wf_fill (n : Nat) (v : α) : Table.wf (Table.fill n v) = true := by
  have := Table.risesFrom_map_range' 0 n v
  simpa [Table.wf, Table.fill, List.range_eq_range'] using this

theorem mem_insertIx (l : List Nat) (i j : Nat) : j ∈ insertIx l i ↔ j = i ∨ j ∈ l := by
  induction l with
  | nil => simp [insertIx]
  | cons k l ih =>
    unfold insertIx
    split
    · simp
    · split
      · rename_i h; subst h; simp
      · simp only [List.mem_cons, ih]; tauto

@[simp] theorem mem_eraseIx (l : List Nat) (i j : Nat) : j ∈ eraseIx l i ↔ j ∈ l ∧ j ≠ i := by
  simp [eraseIx]

theorem length_insertIx {l : List Nat} {i : Nat} (h : i ∉ l) : (insertIx l i).length = l.length + 1 := by
  induction l with
  | nil => rfl
  | cons k l ih =>
    unfold insertIx
    simp only [List.mem_cons, not_or] at h
    split
    · rfl
    · rw [if_neg h.1, List.length_cons, ih h.2, List.length_cons]

theorem length_eraseIx {l : List Nat} {i : Nat} (h : l.Nodup) (hi : i ∈ l) : (eraseIx l i).length + 1 = l.length := by
  have e : eraseIx l i = l.erase i := by rw [eraseIx, h.erase_eq_filter]
  rw [e, List.length_erase_of_mem hi]
  have := List.length_pos_of_mem hi
  omega

theorem risesFromIx_mono {lo lo' : Nat} (h : lo' ≤ lo) (l : List Nat) :
    risesFromIx lo l = true → risesFromIx lo' l = true := by
  cases l with
  | nil => simp [risesFromIx]
  | cons k l =>
    simp only [risesFromIx, Bool.and_eq_true, decide_eq_true_eq]
    rintro ⟨h1, h2⟩
    exact ⟨by omega, h2⟩

theorem risesFromIx_insertIx {lo i : Nat} (hi : lo ≤ i) (l : List Nat) (h : risesFromIx lo l = true) :
    risesFromIx lo (insertIx l i) = true := by
  induction l generalizing lo with
  | nil => simp [insertIx, risesFromIx, hi]
  | cons k l ih =>
    simp only [risesFromIx, Bool.and_eq_true, decide_eq_true_eq] at h
    unfold insertIx
    split
    · simp only [risesFromIx, Bool.and_eq_true, decide_eq_true_eq]
      exact ⟨hi, by omega, h.2⟩
    · split
      · simp only [risesFromIx, Bool.and_eq_true, decide_eq_true_eq]
        exact h
      · simp only [risesFromIx, Bool.and_eq_true, decide_eq_true_eq]
        exact ⟨h.1, ih (by omega) h.2⟩

theorem risesFromIx_eraseIx {lo : Nat} (i : Nat) (l : List Nat) (h : risesFromIx lo l = true) :
    risesFromIx lo (eraseIx l i) = true := by
  induction l generalizing lo with
  | nil => simp [eraseIx, risesFromIx]
  | cons k l ih =>
    simp only [risesFromIx, Bool.and_eq_true, decide_eq_true_eq] at h
    have := ih h.2
    simp only [eraseIx, List.filter_cons] at this ⊢
    split
    · simp only [risesFromIx, Bool.and_eq_true, decide_eq_true_eq]
      exact ⟨h.1, this⟩
    · exact risesFromIx_mono (by omega) _ this

end Sys2Proof.Machine
end

