-- ==== Sys2Proof/Laws/Packer.lean ====
section
/-!
SUPPORT. The packer: one lemma per operation that says everything it does where DST has room (R140 to R145).
-/

namespace Sys2Proof.Machine

/-! ### Bits of a byte -/

theorem streamBit_setStreamBit (v : Byte) (k j : Nat) (b : Bit) (hk : k < 8) (hj : j < 8) :
    streamBit (setStreamBit v k b) j = if j = k then b else streamBit v j := by
  unfold streamBit setStreamBit
  interval_cases k <;> interval_cases j <;> cases b <;> simp

theorem bitsOf_byte (v : Byte) : bitsOf 8 v.toNat = (List.range 8).map (streamBit v) := by
  simp [bitsOf, streamBit, BitVec.getLsbD]

theorem byte_ext {v w : Byte} (h : ∀ j, j < 8 → streamBit v j = streamBit w j) : v = w := by
  apply BitVec.eq_of_getLsbD_eq
  intro i hi
  have := h (7 - i) (by omega)
  simpa [streamBit, show 7 - (7 - i) = i by omega] using this

/-! ### The bits that DST holds -/

theorem flatMap_congr_range {β : Type} {n : Nat} {f g : Nat → List β} (h : ∀ a, a < n → f a = g a) :
    (List.range n).flatMap f = (List.range n).flatMap g := by
  induction n with
  | zero => rfl
  | succ n ih =>
    rw [List.range_succ, List.flatMap_append, List.flatMap_append, ih fun a ha => h a (by omega)]
    simp [h n (by omega)]

/-! ### What an operation of the packer does -/

/-- From `s` to `t` the packer accepts exactly the bits `bs`. -/
structure Appends (s : State) (bs : List Bit) (t : State) : Prop where
  bits : packedBits t = packedBits s ++ bs
  same : t = { s with acc := t.acc, nbits := t.nbits, dst := t.dst, dstLen := t.dstLen }
  below : DstOnlyAppended s t
  count : 8 * t.dstLen.toNat + t.nbits.toNat = 8 * s.dstLen.toNat + s.nbits.toNat + bs.length
  clean : AccClean s → AccClean t
  held : ∀ a, s.dstLen.toNat ≤ a → a < t.dstLen.toNat → (Table.get t.dst a).isSome = true

theorem Appends.refl (s : State) : Appends s [] s where
  bits := by simp
  same := rfl
  below := fun _ _ => rfl
  count := by simp
  clean := id
  held := fun a h1 h2 => by omega

theorem Appends.dstLen_le {s t : State} {bs : List Bit} (h : Appends s bs t) : s.dstLen.toNat ≤ t.dstLen.toNat := by
  have := h.count
  have := s.nbits.isLt
  have := t.nbits.isLt
  omega

theorem Appends.trans {s t u : State} {as bs : List Bit} (h : Appends s as t) (k : Appends t bs u) :
    Appends s (as ++ bs) u where
  bits := by rw [k.bits, h.bits, List.append_assoc]
  same := by rw [k.same, h.same]
  below := fun a ha => by
    have h1 := h.dstLen_le
    have h2 := k.dstLen_le
    rw [k.below a (by omega), h.below a (by omega)]
  count := by have := h.count; have := k.count; simp; omega
  clean := fun hc => k.clean (h.clean hc)
  held := fun a h1 h2 => by
    by_cases ha : a < t.dstLen.toNat
    · rw [k.below a (.inl ha)]; exact h.held a h1 ha
    · exact k.held a (by omega) h2

theorem Appends.dstCap {s t : State} {bs : List Bit} (h : Appends s bs t) : t.dstCap = s.dstCap := by rw [h.same]

theorem Appends.roomFor {s t : State} {bs : List Bit} {k : Nat} (h : Appends s bs t) (hr : RoomFor s (bs.length + k)) :
    RoomFor t k := by
  have := h.count
  have h1 := hr.1
  refine ⟨?_, ?_⟩
  · rw [h.dstCap]; omega
  · rw [h.dstCap]; exact hr.2

theorem RoomFor.mono {s : State} {j k : Nat} (h : RoomFor s k) (hj : j ≤ k) : RoomFor s j :=
  ⟨le_trans (by have := Nat.div_le_div_right (c := 8) (show s.nbits.toNat + j ≤ s.nbits.toNat + k by omega); omega) h.1, h.2⟩

theorem toNat_add_one_of_lt {w : Nat} {x : BitVec w} {m : Nat} (h : x.toNat < m) (hm : m < 2 ^ w) :
    (x + 1).toNat = x.toNat + 1 := by
  have : 1 < 2 ^ w := by omega
  have h1 : (1 : BitVec w).toNat = 1 := by
    show (BitVec.ofNat w 1).toNat = 1
    rw [BitVec.toNat_ofNat, Nat.mod_eq_of_lt this]
  rw [BitVec.toNat_add, h1, Nat.mod_eq_of_lt (by omega)]

/-- The write of a byte: room is all it needs. -/
theorem pushDst_of_room {s : State} (v : Byte) (h : RoomBytes s 1) :
    pushDst v s = .ok () { s with dst := Table.set s.dst s.dstLen.toNat v, dstLen := s.dstLen + 1 } ∧
      (s.dstLen + 1).toNat = s.dstLen.toNat + 1 := by
  have h1 := h.1
  have h2 := h.2
  refine ⟨?_, toNat_add_one_of_lt (by omega : s.dstLen.toNat < s.dstCap) h2⟩
  rw [pushDst, if_pos (by omega)]

theorem pushDst_below {s : State} (v : Byte) (h : RoomBytes s 1) :
    DstOnlyAppended s { s with dst := Table.set s.dst s.dstLen.toNat v, dstLen := s.dstLen + 1 } := by
  intro a ha
  have := (pushDst_of_room v h).2
  exact Table.get_set_ne _ _ (by simp only at ha; omega)

theorem dstBits_pushed {s : State} (v : Byte) (h : RoomBytes s 1) (t : State)
    (hd : t.dst = Table.set s.dst s.dstLen.toNat v) (hl : t.dstLen = s.dstLen + 1) :
    dstBits t = dstBits s ++ bitsOf 8 v.toNat := by
  unfold dstBits
  rw [hl, (pushDst_of_room v h).2, List.range_succ, List.flatMap_append]
  congr 1
  · apply flatMap_congr_range
    intro a ha
    rw [hd, Table.get_set_ne _ _ (by omega)]
  · simp [hd]

/-- BW_PUT (R141). -/
theorem bwPut_of_room {s : State} (b : Bit) (h : RoomFor s 1) : ∃ t, bwPut b s = .ok () t ∧ Appends s [b] t := by
  have hn := s.nbits.isLt
  by_cases h7 : s.nbits.toNat = 7
  · have hr : RoomBytes s 1 := ⟨by have := h.1; rw [h7] at this; omega, h.2⟩
    obtain ⟨hp, hl⟩ := pushDst_of_room (setStreamBit s.acc s.nbits.toNat b) hr
    refine ⟨{ s with
        acc := 0, nbits := 0, dst := Table.set s.dst s.dstLen.toNat (setStreamBit s.acc s.nbits.toNat b),
        dstLen := s.dstLen + 1 }, by simp only [bwPut, if_pos h7, hp, Res.andThen_ok], ?_, rfl, pushDst_below _ hr, ?_, ?_, ?_⟩
    · unfold packedBits
      rw [dstBits_pushed (setStreamBit s.acc s.nbits.toNat b) hr _ rfl rfl, bitsOf_byte]
      simp only [accBits, List.append_assoc]
      congr 1
      rw [h7]
      show (List.range (7 + 1)).map _ ++ [] = (List.range 7).map _ ++ [b]
      rw [List.append_nil, List.range_succ, List.map_append]
      congr 1
      · apply List.map_congr_left
        intro j hj
        rw [List.mem_range] at hj
        rw [streamBit_setStreamBit _ _ _ _ (by omega) (by omega), if_neg (by omega)]
      · simp [streamBit_setStreamBit]
    · simp only [hl, h7]; simp; omega
    · intro _ j _ _; simp [streamBit]
    · intro a h1 h2
      simp only [hl] at h2
      have : a = s.dstLen.toNat := by omega
      subst this
      simp
  · have hb : (s.nbits + 1).toNat = s.nbits.toNat + 1 :=
      toNat_add_one_of_lt (by omega : s.nbits.toNat < 7) (by decide)
    refine ⟨{ s with acc := setStreamBit s.acc s.nbits.toNat b, nbits := s.nbits + 1 },
      by simp only [bwPut, if_neg h7], ?_, rfl, fun _ _ => rfl, ?_, ?_, fun a h1 h2 => ?_⟩
    · unfold packedBits
      rw [List.append_assoc]
      congr 1
      simp only [accBits, hb]
      rw [List.range_succ, List.map_append]
      congr 1
      · apply List.map_congr_left
        intro j hj
        rw [List.mem_range] at hj
        rw [streamBit_setStreamBit _ _ _ _ (by omega) (by omega), if_neg (by omega)]
      · simp [streamBit_setStreamBit _ _ _ _ hn hn]
    · simp only [hb]; simp; omega
    · intro hc j h1 h2
      simp only [hb] at h1
      simp only
      rw [streamBit_setStreamBit _ _ _ _ (by omega) h2, if_neg (by omega)]
      exact hc j (by omega) h2
    · simp only at h2; omega

/-- BW_PUT of a sequence. -/
theorem putBits_of_room {s : State} (bs : List Bit) (h : RoomFor s bs.length) :
    ∃ t, putBits bs s = .ok () t ∧ Appends s bs t := by
  induction bs generalizing s with
  | nil => exact ⟨s, rfl, .refl s⟩
  | cons b bs ih =>
    rw [List.length_cons] at h
    obtain ⟨t, ht, hat⟩ := bwPut_of_room b (h.mono (by omega))
    obtain ⟨u, hu, hau⟩ := ih (hat.roomFor (by rw [List.length_singleton, Nat.add_comm]; exact h))
    refine ⟨u, ?_, hat.trans hau⟩
    show (bwPut b s).andThen (fun _ s => putBits bs s) = _
    rw [ht, Res.andThen_ok, hu]

/-- A BW_PUT that has ended had room. -/
theorem bwPut_ok {s t : State} {b : Bit} (hd : s.dstLen.toNat ≤ s.dstCap) (hc : s.dstCap < 2 ^ 64)
    (h : bwPut b s = .ok () t) : Appends s [b] t ∧ t.dstLen.toNat ≤ t.dstCap := by
  have hn := s.nbits.isLt
  have hroom : RoomFor s 1 := by
    refine ⟨?_, hc⟩
    by_cases h7 : s.nbits.toNat = 7
    · have : s.dstLen.toNat < s.dstCap := by
        by_contra hlt
        simp only [bwPut, if_pos h7, pushDst, if_neg hlt, Res.andThen_refused] at h
        cases h
      omega
    · omega
  obtain ⟨u, hu, ha⟩ := bwPut_of_room b hroom
  rw [h] at hu
  cases hu
  refine ⟨ha, ?_⟩
  have h1 := ha.count
  have h2 := hroom.1
  rw [ha.dstCap]
  simp only [List.length_singleton] at h1
  omega

/-- A sequence of BW_PUT that has ended had room. -/
theorem putBits_ok {s t : State} {bs : List Bit} (hd : s.dstLen.toNat ≤ s.dstCap) (hc : s.dstCap < 2 ^ 64)
    (h : putBits bs s = .ok () t) : Appends s bs t ∧ t.dstLen.toNat ≤ t.dstCap := by
  induction bs generalizing s with
  | nil => cases h; exact ⟨.refl _, hd⟩
  | cons b bs ih =>
    have h : (bwPut b s).andThen (fun _ s => putBits bs s) = .ok () t := h
    obtain ⟨_, u, hu, hr⟩ := Res.andThen_eq_ok h
    obtain ⟨h1, h2⟩ := bwPut_ok hd hc hu
    obtain ⟨h3, h4⟩ := ih h2 (by rw [h1.dstCap]; exact hc) hr
    exact ⟨h1.trans h3, h4⟩

/-- BW_PUTN (R142). -/
theorem bwPutn_of_room {s : State} (n : Nat) (v : CodeWord) (h : RoomFor s n) :
    ∃ t, bwPutn n v s = .ok () t ∧ Appends s (bitsOf n v.toNat) t :=
  putBits_of_room _ (by rwa [length_bitsOf])

theorem padLen_add (k : Nat) : (k + padLen k) % 8 = 0 ∧ padLen k < 8 := by unfold padLen; omega

/-- BW_ALIGN and BW_FLUSH (R143, R144): the packer ends at a byte boundary. -/
theorem bwAlign_of_room {s : State} (h : RoomFor s (padLen s.nbits.toNat)) :
    ∃ t, bwAlign s = .ok () t ∧ Appends s (List.replicate (padLen s.nbits.toNat) false) t ∧ t.nbits = 0 := by
  obtain ⟨t, ht, ha⟩ := putBits_of_room (s := s) (List.replicate (padLen s.nbits.toNat) false) (by simpa using h)
  refine ⟨t, ht, ha, ?_⟩
  have h1 := ha.count
  have h2 := padLen_add s.nbits.toNat
  have h3 := t.nbits.isLt
  rw [List.length_replicate] at h1
  apply BitVec.eq_of_toNat_eq
  simp
  omega

/-- BW_PUTBYTE (R145) at a byte boundary puts the eight bits of the byte. -/
theorem bwPutbyte_of_room {s : State} (v : Byte) (h : RoomBytes s 1) (hn : s.nbits = 0) :
    ∃ t, bwPutbyte v s = .ok () t ∧ Appends s (bitsOf 8 v.toNat) t ∧ t.nbits = 0 := by
  obtain ⟨hp, hl⟩ := pushDst_of_room v h
  refine ⟨_, hp, ⟨?_, rfl, pushDst_below v h, ?_, id, ?_⟩, hn⟩
  · unfold packedBits
    rw [dstBits_pushed v h _ rfl rfl]
    simp [accBits, hn]
  · simp only [hl, hn, length_bitsOf]; omega
  · intro a h1 h2
    simp only [hl] at h2
    have : a = s.dstLen.toNat := by omega
    subst this
    simp

/-- Two states with the same bits put, the packer empty in both, hold the same bytes of DST. -/
theorem dstBits_of_aligned {s : State} (h : s.nbits = 0) : packedBits s = dstBits s := by
  simp [packedBits, accBits, h]

end Sys2Proof.Machine
end

