-- ==== Sys2Proof/Laws/Trees.lean ====
section
/-!
SUPPORT. Abstract trees (R20, R21, R61): sizes, paths, and a tree held in a range of the node memory.
-/

namespace Sys2Proof.Machine

/-! ### Sizes -/

theorem HTree.syms_pos (x : HTree) : 0 < x.syms.length := by
  induction x with
  | leaf s => simp [HTree.syms]
  | node l r hl hr => simp only [HTree.syms, List.length_append]; omega

/-- A tree with n Leaves has n − 1 Internal nodes. -/
theorem HTree.size_eq (x : HTree) : x.size + 1 = 2 * x.syms.length := by
  induction x with
  | leaf s => simp [HTree.size, HTree.syms]
  | node l r hl hr => simp only [HTree.size, HTree.syms, List.length_append]; omega

/-- No Leaf of a tree with n Leaves is deeper than n − 1. -/
theorem HTree.depth_lt (x : HTree) : x.depth < x.syms.length := by
  induction x with
  | leaf s => simp [HTree.depth, HTree.syms]
  | node l r hl hr => simp only [HTree.depth, HTree.syms, List.length_append]; omega

theorem HTree.depth_lt_size (x : HTree) : x.depth < x.size := by
  induction x with
  | leaf s => simp [HTree.depth, HTree.size]
  | node l r hl hr => simp only [HTree.depth, HTree.size]; omega

theorem HTree.length_bits (x : HTree) : x.bits.length = x.size + 8 * x.syms.length := by
  induction x with
  | leaf s => simp [HTree.bits, HTree.size, HTree.syms, bitsOf]
  | node l r hl hr => simp only [HTree.bits, HTree.size, HTree.syms, List.length_cons, List.length_append]; omega

/-! ### Paths -/

theorem HTree.mem_syms_of_at {x : HTree} {p : List Bit} {b : Byte} (h : x.at p = some b) : b ∈ x.syms := by
  induction x generalizing p with
  | leaf s => cases p <;> simp_all [HTree.at, HTree.syms]
  | node l r hl hr =>
    cases p with
    | nil => simp [HTree.at] at h
    | cons c p =>
      simp only [HTree.at] at h
      rw [HTree.syms, List.mem_append]
      split at h
      · exact .inr (hr h)
      · exact .inl (hl h)

theorem HTree.at_of_mem_syms {x : HTree} {b : Byte} (h : b ∈ x.syms) : ∃ p, x.at p = some b := by
  induction x with
  | leaf s => exact ⟨[], by simp_all [HTree.at, HTree.syms]⟩
  | node l r hl hr =>
    rw [HTree.syms, List.mem_append] at h
    rcases h with h | h
    · obtain ⟨p, hp⟩ := hl h
      exact ⟨false :: p, by simpa [HTree.at] using hp⟩
    · obtain ⟨p, hp⟩ := hr h
      exact ⟨true :: p, by simpa [HTree.at] using hp⟩

theorem HTree.length_le_depth {x : HTree} {p : List Bit} {b : Byte} (h : x.at p = some b) : p.length ≤ x.depth := by
  induction x generalizing p with
  | leaf s => cases p <;> simp_all [HTree.at]
  | node l r hl hr =>
    cases p with
    | nil => simp
    | cons c p =>
      simp only [HTree.at] at h
      simp only [HTree.depth, List.length_cons]
      split at h
      · have := hr h; omega
      · have := hl h; omega

/-- No path to a Leaf goes through another Leaf. -/
theorem HTree.at_append {x : HTree} {p q : List Bit} {b c : Byte} (h : x.at p = some b) (k : x.at (p ++ q) = some c) :
    q = [] ∧ b = c := by
  induction x generalizing p with
  | leaf s => cases p <;> cases q <;> simp_all [HTree.at]
  | node l r hl hr =>
    cases p with
    | nil => simp [HTree.at] at h
    | cons d p =>
      simp only [HTree.at, List.cons_append] at h k
      split at h
      · rw [if_pos ‹_›] at k; exact hr h k
      · rw [if_neg ‹_›] at k; exact hl h k

theorem HTree.codeAt_ne_nil {x : HTree} {p : List Bit} {b : Byte} (h : x.codeAt p = some b) : p ≠ [] := by
  rintro rfl
  cases x <;> simp [HTree.codeAt, HTree.at] at h

theorem HTree.mem_syms_of_codeAt {x : HTree} {p : List Bit} {b : Byte} (h : x.codeAt p = some b) : b ∈ x.syms := by
  cases x with
  | leaf s => simp only [HTree.codeAt] at h; split at h <;> simp_all [HTree.syms]
  | node l r => exact HTree.mem_syms_of_at h

theorem HTree.codeAt_of_mem_syms {x : HTree} {b : Byte} (h : b ∈ x.syms) : ∃ p, x.codeAt p = some b := by
  cases x with
  | leaf s => exact ⟨[false], by simp_all [HTree.codeAt, HTree.syms]⟩
  | node l r => exact HTree.at_of_mem_syms h

theorem HTree.length_codeAt {x : HTree} {p : List Bit} {b : Byte} (h : x.codeAt p = some b) :
    p.length ≤ max x.depth 1 := by
  cases x with
  | leaf s => simp only [HTree.codeAt] at h; split at h <;> simp_all
  | node l r => exact le_trans (HTree.length_le_depth h) (le_max_left _ _)

theorem HTree.codeAt_append {x : HTree} {p q : List Bit} {b c : Byte} (h : x.codeAt p = some b)
    (k : x.codeAt (p ++ q) = some c) : q = [] ∧ b = c := by
  cases x with
  | leaf s =>
    simp only [HTree.codeAt] at h k
    split at h <;> split at k <;> simp_all
  | node l r => exact HTree.at_append h k

theorem HTree.at_inj {x : HTree} {p q : List Bit} {b : Byte} (hn : x.syms.Nodup) (h : x.at p = some b)
    (k : x.at q = some b) : p = q := by
  induction x generalizing p q with
  | leaf s => cases p <;> cases q <;> simp_all [HTree.at]
  | node l r hl hr =>
    rw [HTree.syms, List.nodup_append] at hn
    obtain ⟨hnl, hnr, hd⟩ := hn
    cases p with
    | nil => simp [HTree.at] at h
    | cons c p =>
      cases q with
      | nil => simp [HTree.at] at k
      | cons d q =>
        simp only [HTree.at] at h k
        cases c <;> cases d <;> simp only [if_true, Bool.false_eq_true, if_false] at h k
        · rw [hl hnl h k]
        · exact absurd rfl (hd _ (HTree.mem_syms_of_at h) _ (HTree.mem_syms_of_at k))
        · exact absurd rfl (hd _ (HTree.mem_syms_of_at k) _ (HTree.mem_syms_of_at h))
        · rw [hr hnr h k]

theorem HTree.codeAt_inj {x : HTree} {p q : List Bit} {b : Byte} (hn : x.syms.Nodup) (h : x.codeAt p = some b)
    (k : x.codeAt q = some b) : p = q := by
  cases x with
  | leaf s => simp only [HTree.codeAt] at h k; split at h <;> split at k <;> simp_all
  | node l r => exact HTree.at_inj hn h k

/-! ### A tree in the node memory -/

/-- `IsTree`, every entry at an index from `lo` to below `hi`. -/
def TreeIn (nodes : Table NodeEntry) (lo hi : Nat) : Nat → HTree → Prop
  | i, .leaf sym => lo ≤ i ∧ i < hi ∧ ∃ f, Table.get nodes i = some (.leaf sym f)
  | i, .node a b =>
    lo ≤ i ∧ i < hi ∧ ∃ f l r, Table.get nodes i = some (.internal f l r) ∧ TreeIn nodes lo hi l.toNat a ∧
      TreeIn nodes lo hi r.toNat b

theorem TreeIn.isTree {nodes : Table NodeEntry} {lo hi i : Nat} {x : HTree} (hh : hi ≤ 511) (h : TreeIn nodes lo hi i x) :
    IsTree nodes i x := by
  induction x generalizing i with
  | leaf s => exact ⟨by have := h.2.1; omega, h.2.2⟩
  | node a b ha hb =>
    obtain ⟨h1, h2, f, l, r, hg, hl, hr⟩ := h
    exact ⟨by omega, f, l, r, hg, ha hl, hb hr⟩

theorem TreeIn.congr {n m : Table NodeEntry} {lo hi i : Nat} {x : HTree} (h : TreeIn n lo hi i x)
    (hnm : ∀ j, lo ≤ j → j < hi → Table.get m j = Table.get n j) : TreeIn m lo hi i x := by
  induction x generalizing i with
  | leaf s =>
    obtain ⟨h1, h2, f, hf⟩ := h
    exact ⟨h1, h2, f, by rw [hnm i h1 h2, hf]⟩
  | node a b ha hb =>
    obtain ⟨h1, h2, f, l, r, hg, hl, hr⟩ := h
    exact ⟨h1, h2, f, l, r, by rw [hnm i h1 h2, hg], ha hl, hb hr⟩

theorem TreeIn.mono {n : Table NodeEntry} {lo hi lo' hi' i : Nat} {x : HTree} (h : TreeIn n lo hi i x) (h1 : lo' ≤ lo)
    (h2 : hi ≤ hi') : TreeIn n lo' hi' i x := by
  induction x generalizing i with
  | leaf s => exact ⟨by have := h.1; omega, by have := h.2.1; omega, h.2.2⟩
  | node a b ha hb =>
    obtain ⟨h1', h2', f, l, r, hg, hl, hr⟩ := h
    exact ⟨by omega, by omega, f, l, r, hg, ha hl, hb hr⟩

theorem TreeIn.lt {n : Table NodeEntry} {lo hi i : Nat} {x : HTree} (h : TreeIn n lo hi i x) : i < hi := by
  cases x <;> exact h.2.1

theorem IsTree.lt {n : Table NodeEntry} {i : Nat} {x : HTree} (h : IsTree n i x) : i < 511 := by
  cases x <;> exact h.1

theorem ne_NIL_of_lt {i : NodeIx} (h : i.toNat < 511) : i ≠ NIL := by
  rintro rfl; exact absurd h (by decide)

theorem toNat_ofNat_of_lt {i : Nat} (h : i < 512) : (BitVec.ofNat 9 i).toNat = i := by
  rw [BitVec.toNat_ofNat, Nat.mod_eq_of_lt (by omega)]

theorem readNode_of_get {s : State} {i : Nat} {e : NodeEntry} (hi : i < 511) (h : Table.get s.node i = some e) :
    readNode i s = .ok e s := by
  unfold readNode orFault
  rw [if_pos hi, h]

theorem writeNode_of_lt {s : State} {i : Nat} (e : NodeEntry) (hi : i < 511) :
    writeNode i e s = .ok () { s with node := Table.set s.node i e } := by
  unfold writeNode
  rw [if_pos hi]

end Sys2Proof.Machine
end

