-- ==== Sys2Proof/Laws/Codes.lean ====
section
/-!
SUPPORT. Codes: walk on an abstract tree (R130, R131), the bits of a code in `CODE_BITS` (R22), the code stream (R167).
-/

namespace Sys2Proof.Machine

/-! ### A code in `CODE_BITS` -/

theorem leftAligned_getLsbD (path : List Bit) (h : path.length ≤ 255) (j : Nat) (hj : j < 255) :
    (leftAligned path).getLsbD (254 - j) = path.getD j false := by
  unfold leftAligned
  rw [BitVec.getLsbD_ofNat, Nat.testBit_mul_two_pow]
  by_cases hl : j < path.length
  · rw [show 254 - j - (255 - path.length) = path.length - 1 - j by omega, testBit_natOf _ _ hl]
    simp [show 254 - j < 255 by omega, show 255 - path.length ≤ 254 - j by omega, List.getD, hl]
  · rw [List.getD_eq_default _ _ (by omega)]
    simp [show ¬ 255 - path.length ≤ 254 - j by omega]

/-- Taking a code's bits out of `CODE_BITS` gives its path back (R142, R167). -/
theorem bitsOf_codeValue (path : List Bit) (h : path.length ≤ 255) :
    bitsOf path.length (codeValue path.length (leftAligned path)).toNat = path := by
  have hv : (codeValue path.length (leftAligned path)).toNat = natOf path := by
    unfold codeValue leftAligned
    have h1 := natOf_lt path
    have h2 : natOf path * 2 ^ (255 - path.length) < 2 ^ 255 := by
      calc natOf path * 2 ^ (255 - path.length) < 2 ^ path.length * 2 ^ (255 - path.length) :=
            Nat.mul_lt_mul_of_pos_right h1 (by positivity)
        _ = 2 ^ 255 := by rw [← pow_add]; congr 1; omega
    rw [BitVec.toNat_ushiftRight, BitVec.toNat_ofNat, Nat.mod_eq_of_lt h2, Nat.shiftRight_eq_div_pow,
      Nat.mul_div_cancel _ (by positivity)]
  rw [hv, bitsOf_natOf]

/-- The entries of a symbol hold a code. -/
structure CodeIs (s : State) (b : Byte) (path : List Bit) : Prop where
  len : Table.get s.codeLen b.toNat = some (BitVec.ofNat 8 path.length)
  bits : Table.get s.codeBits b.toNat = some (leftAligned path)

theorem CodeIs.codeBitsOf {s : State} {b : Byte} {path : List Bit} (h : CodeIs s b path) (hl : path.length ≤ 255) :
    codeBitsOf s b.toNat = path := by
  unfold Machine.codeBitsOf
  rw [h.len, h.bits]
  simp only [Option.map_some, Option.getD_some, BitVec.toNat_ofNat]
  rw [Nat.mod_eq_of_lt (by omega)]
  apply List.ext_getElem
  · simp
  · intro j h1 h2
    rw [List.getElem_map, List.getElem_range, leftAligned_getLsbD _ hl _ (by omega), List.getD_eq_getElem _ _ h2]

theorem CodeIs.hasCode {s : State} {b : Byte} {path : List Bit} (h : CodeIs s b path) (hl : path.length ≤ 255)
    (hn : path ≠ []) : HasCode s b.toNat := by
  refine ⟨⟨_, h.len, fun h0 => hn ?_⟩, by rw [h.bits]; rfl⟩
  have := congrArg BitVec.toNat h0
  rw [BitVec.toNat_ofNat, Nat.mod_eq_of_lt (by omega)] at this
  exact List.length_eq_zero_iff.1 this

/-! ### CB_GEN -/

theorem byte_toNat_ne {b c : Byte} (h : b ≠ c) : b.toNat ≠ c.toNat := fun he => h (BitVec.eq_of_toNat_eq he)

/-- walk gives every Leaf below a node its path (R130, R131). -/
theorem walk_of_tree {x : HTree} {d i : Nat} {s : State} {path : List Bit} (h : IsTree s.node i x) (hd : x.depth < d)
    (hp : path.length + x.depth ≤ 255) (hn : x.syms.Nodup) :
    ∃ t, walk d i path s = .ok () t ∧ (∀ b q, x.at q = some b → CodeIs t b (path ++ q)) ∧
      (∀ b : Byte, b ∉ x.syms → Table.get t.codeLen b.toNat = Table.get s.codeLen b.toNat ∧
        Table.get t.codeBits b.toNat = Table.get s.codeBits b.toNat) ∧
      t = { s with codeLen := t.codeLen, codeBits := t.codeBits } := by
  induction x generalizing d i s path with
  | leaf sym =>
    obtain ⟨hi, f, hf⟩ := h
    cases d with
    | zero => simp at hd
    | succ d =>
      refine ⟨_, by simp only [walk, readNode_of_get hi hf, Res.andThen_ok, if_pos (show path.length ≤ 255 by omega)]; rfl,
        fun b q hq => ?_, fun b hb => ?_, rfl⟩
      · cases q with
        | nil =>
          simp only [HTree.at, Option.some.injEq] at hq
          subst hq
          rw [List.append_nil]
          exact ⟨Table.get_set_self .., Table.get_set_self ..⟩
        | cons c q => simp [HTree.at] at hq
      · simp only [HTree.syms, List.mem_singleton] at hb
        exact ⟨Table.get_set_ne _ _ (byte_toNat_ne hb), Table.get_set_ne _ _ (byte_toNat_ne hb)⟩
  | node a b iha ihb =>
    obtain ⟨hi, f, l, r, hf, hl, hr⟩ := h
    rw [HTree.syms, List.nodup_append] at hn
    obtain ⟨hna, hnb, hdj⟩ := hn
    simp only [HTree.depth] at hd hp
    cases d with
    | zero => simp at hd
    | succ d =>
      obtain ⟨t, ht, htc, htk, hts⟩ := iha (d := d) (path := path ++ [false]) hl (by omega) (by simp; omega) hna
      obtain ⟨u, hu, huc, huk, hus⟩ := ihb (d := d) (s := t) (path := path ++ [true]) (i := r.toNat)
        (by rw [hts]; exact hr) (by omega) (by simp; omega) hnb
      refine ⟨u, ?_, fun c q hq => ?_, fun c hc => ?_, by rw [hus, hts]⟩
      · simp only [walk, readNode_of_get hi hf, Res.andThen_ok, ht, if_neg (ne_NIL_of_lt hr.lt), hu]
      · cases q with
        | nil => simp [HTree.at] at hq
        | cons e q =>
          simp only [HTree.at] at hq
          cases e with
          | true =>
            have := huc c q (by simpa using hq)
            simpa using this
          | false =>
            have hq : a.at q = some c := by simpa using hq
            have h1 := htc c q hq
            have h2 := huk c fun hm => hdj _ (HTree.mem_syms_of_at hq) _ hm rfl
            constructor
            · rw [h2.1, h1.len]; simp
            · rw [h2.2, h1.bits]; simp
      · rw [HTree.syms, List.mem_append] at hc
        have h1 := htk c fun hm => hc (.inl hm)
        have h2 := huk c fun hm => hc (.inr hm)
        exact ⟨by rw [h2.1, h1.1], by rw [h2.2, h1.2]⟩

/-- CB_GEN on the tree that `ROOT` and `NODE` hold (R130). -/
theorem cbGen_of_root {s : State} {T : Option HTree} (h : RootIs s T)
    (hT : ∀ x, T = some x → x.depth ≤ 255 ∧ x.syms.Nodup) :
    ∃ t, cbGen s = .ok () t ∧ (∀ x b p, T = some x → x.codeAt p = some b → CodeIs t b p) ∧
      (∀ b : Byte, (∀ x, T = some x → b ∉ x.syms) →
        Table.get t.codeLen b.toNat = some 0 ∧ Table.get t.codeBits b.toNat = Table.get s.codeBits b.toNat) ∧
      t = { s with codeLen := t.codeLen, codeBits := t.codeBits } := by
  have h0 : ∀ b : Byte, Table.get (Table.fill 256 (0 : BitVec 8)) b.toNat = some 0 := fun b => by
    rw [Table.get_fill, if_pos b.isLt]
  cases T with
  | none =>
    refine ⟨{ s with codeLen := Table.fill 256 0 }, ?_, fun x _ _ hx => (nomatch hx), fun b _ => ⟨h0 b, rfl⟩, rfl⟩
    simp only [cbGen, if_pos (show s.root = NIL from h)]
  | some x =>
    obtain ⟨hdx, hnx⟩ := hT x rfl
    cases x with
    | leaf sym =>
      obtain ⟨h1, f, l, hf, hl⟩ := h
      have hlt : s.root.toNat < 511 := by
        have := s.root.isLt
        have : s.root.toNat ≠ 511 := fun he => h1 (BitVec.eq_of_toNat_eq he)
        omega
      obtain ⟨t, ht, htc, htk, hts⟩ := walk_of_tree (x := .leaf sym) (d := 510)
        (s := { s with codeLen := Table.fill 256 0 }) (path := [false]) hl (by simp [HTree.depth]) (by simp [HTree.depth]) hnx
      refine ⟨t, ?_, fun x b p hx hb => ?_, fun b hb => ?_, by rw [hts]⟩
      · simp only [cbGen, if_neg h1]
        show walk (510 + 1) s.root.toNat [] { s with codeLen := Table.fill 256 0 } = _
        rw [walk, readNode_of_get (s := { s with codeLen := Table.fill 256 0 }) hlt hf]
        simp only [Res.andThen_ok, List.nil_append, if_true]
        rw [ht, Res.andThen_ok]
      · cases hx
        simp only [HTree.codeAt] at hb
        split at hb
        · cases hb
          subst_vars
          exact htc _ [] rfl
        · cases hb
      · have := htk b (hb _ rfl)
        exact ⟨by rw [this.1]; exact h0 b, this.2⟩
    | node a b =>
      have hlt := IsTree.lt h
      obtain ⟨t, ht, htc, htk, hts⟩ := walk_of_tree (x := .node a b) (d := pathBound)
        (s := { s with codeLen := Table.fill 256 0 }) (path := []) (i := s.root.toNat) h
        (by unfold pathBound; omega) (by simpa using hdx) hnx
      refine ⟨t, ?_, fun x c p hx hc => ?_, fun c hc => ?_, by rw [hts]⟩
      · simp only [cbGen, if_neg (ne_NIL_of_lt hlt), ht]
      · cases hx; exact htc c p hc
      · have := htk c (hc _ rfl)
        exact ⟨by rw [this.1]; exact h0 c, this.2⟩

/-! ### ENC_CODES -/

theorem readSrc_of_placed {s : State} {a : Nat} {v : Byte} (ha : a < s.srcLen.toNat) (hv : Table.get s.src a = some v) :
    readSrc a s = .ok v s := by
  unfold readSrc orFault
  rw [if_pos ha, hv]

theorem length_codeBitsOf {s : State} {b : Nat} {l : BitVec 8} (h : Table.get s.codeLen b = some l) :
    (codeBitsOf s b).length = l.toNat := by
  simp [codeBitsOf, h]

/-- The code of a byte is put bit by bit (R167). -/
theorem putCode_of_room {s : State} {b : Nat} (h : HasCode s b) (hr : RoomFor s (codeBitsOf s b).length) :
    ∃ t, putCode b s = .ok () t ∧ Appends s (codeBitsOf s b) t := by
  obtain ⟨⟨l, hl, hl0⟩, hw⟩ := h
  obtain ⟨w, hw⟩ := Option.isSome_iff_exists.1 hw
  rw [length_codeBitsOf hl] at hr
  obtain ⟨t, ht, hat⟩ := bwPutn_of_room l.toNat (codeValue l.toNat w) hr
  have hb : bitsOf l.toNat (codeValue l.toNat w).toNat = codeBitsOf s b := by
    unfold bitsOf codeBitsOf codeValue
    rw [hl, hw]
    apply List.map_congr_left
    intro j hj
    have hj : j < l.toNat := by simpa using hj
    have := l.isLt
    rw [Option.getD_some]
    show (w >>> (255 - l.toNat)).getLsbD (l.toNat - 1 - j) = _
    rw [BitVec.getLsbD_ushiftRight]
    congr 1
    omega
  rw [hb] at hat
  refine ⟨t, ?_, hat⟩
  simp only [putCode, readCodeLen, readCodeBits, orFault, hl, hw, Res.andThen_ok, if_neg hl0, ht]

/-- The codes of the bytes of SRC from `e` on. -/
def codesFrom (s : State) (e k : Nat) : List Bit :=
  (List.range' e k).flatMap fun a => codeBitsOf s ((Table.get s.src a).getD 0).toNat

theorem codesFrom_congr {s t : State} (e k : Nat) (h1 : t.src = s.src) (h2 : t.codeLen = s.codeLen)
    (h3 : t.codeBits = s.codeBits) : codesFrom t e k = codesFrom s e k := by
  unfold codesFrom codeBitsOf
  rw [h1, h2, h3]

/-- The first `k` rounds of the loop of ENC_CODES (R167): the codes of the next `k` bytes, then the rounds that are left. -/
theorem codesLoop_of_room {k : Nat} {s : State} (he : s.epos.toNat + k ≤ s.srcLen.toNat)
    (hc : ∀ a, s.epos.toNat ≤ a → a < s.epos.toNat + k → ∃ v : Byte, Table.get s.src a = some v ∧ HasCode s v.toNat)
    (hr : RoomFor s (codesFrom s s.epos.toNat k).length) :
    ∃ t, (∀ m, codesLoop (k + m) s = codesLoop m { t with epos := s.epos + BitVec.ofNat 64 k }) ∧
      Appends s (codesFrom s s.epos.toNat k) t := by
  induction k generalizing s with
  | zero => exact ⟨s, fun m => by rw [Nat.zero_add, BitVec.add_zero], .refl s⟩
  | succ k ih =>
    have hlt : s.epos.toNat < s.srcLen.toNat := by omega
    obtain ⟨v, hv, hcv⟩ := hc _ (le_refl _) (by omega)
    have hcons : codesFrom s s.epos.toNat (k + 1) = codeBitsOf s v.toNat ++ codesFrom s (s.epos.toNat + 1) k := by
      simp [codesFrom, List.range'_succ, hv]
    rw [hcons, List.length_append] at hr
    rw [hcons]
    obtain ⟨t, ht, hat⟩ := putCode_of_room hcv (hr.mono (by omega))
    have hts := hat.same
    have hte : t.epos = s.epos := by rw [hts]
    have htl : t.srcLen = s.srcLen := by rw [hts]
    have he1 : (t.epos + 1).toNat = s.epos.toNat + 1 := by
      rw [hte]; exact toNat_add_one_of_lt hlt s.srcLen.isLt
    have hcf : codesFrom { t with epos := t.epos + 1 } (s.epos.toNat + 1) k = codesFrom s (s.epos.toNat + 1) k :=
      codesFrom_congr _ _ (by rw [hts]) (by rw [hts]) (by rw [hts])
    obtain ⟨u, hu, hau⟩ := ih (s := { t with epos := t.epos + 1 })
      (by show (t.epos + 1).toNat + k ≤ t.srcLen.toNat; rw [he1, htl]; omega)
      (by
        intro a h1 h2
        rw [show ({ t with epos := t.epos + 1 } : State).epos.toNat = s.epos.toNat + 1 from he1] at h1 h2
        obtain ⟨w, hw, hcw⟩ := hc a (by omega) (by omega)
        exact ⟨w, by rw [hts]; exact hw, by unfold HasCode at hcw ⊢; rw [hts]; exact hcw⟩)
      (by show RoomFor t _; rw [show ({ t with epos := t.epos + 1 } : State).epos.toNat = s.epos.toNat + 1 from he1, hcf]
          exact hat.roomFor hr)
    rw [show ({ t with epos := t.epos + 1 } : State).epos.toNat = s.epos.toNat + 1 from he1, hcf] at hau
    refine ⟨{ u with epos := s.epos }, fun m => ?_, hat.trans ⟨hau.bits, ?_, hau.below, hau.count, hau.clean, hau.held⟩⟩
    · rw [show k + 1 + m = k + m + 1 by omega]
      simp only [codesLoop, if_pos hlt, readSrc_of_placed hlt hv, Res.andThen_ok, ht]
      rw [hu m]
      refine congrArg (fun e => codesLoop m { u with epos := e }) ?_
      show t.epos + 1 + BitVec.ofNat 64 k = _
      rw [hte, BitVec.add_assoc, show (1 : Word64) = BitVec.ofNat 64 1 from rfl, ← BitVec.ofNat_add, Nat.add_comm]
    · rw [hau.same, hte]

theorem codesFrom_all (s : State) : codesFrom s 0 s.srcLen.toNat = codeStream s := by
  unfold codesFrom codeStream
  rw [List.range_eq_range']

/-- ENC_CODES (R167): the codes of all bytes of SRC, in order. -/
theorem encCodes_of_room {s : State} (hs : SrcPlaced s)
    (hc : ∀ a v, a < s.srcLen.toNat → Table.get s.src a = some v → HasCode s v.toNat)
    (hr : RoomFor s (codeStream s).length) :
    ∃ t, encCodes s = .ok () { t with epos := s.srcLen } ∧ Appends s (codeStream s) t := by
  rw [← codesFrom_all] at hr ⊢
  obtain ⟨t, ht, hat⟩ := codesLoop_of_room (k := s.srcLen.toNat) (s := { s with epos := 0 })
    (by show (0 : Word64).toNat + _ ≤ _; simp)
    (fun a _ ha => by
      have ha : a < s.srcLen.toNat := by simpa using ha
      obtain ⟨v, hv⟩ := Option.isSome_iff_exists.1 (hs a ha)
      exact ⟨v, hv, hc a v ha hv⟩) hr
  refine ⟨{ t with epos := s.epos }, ?_, ⟨hat.bits, ?_, hat.below, hat.count, hat.clean, hat.held⟩⟩
  · unfold encCodes
    rw [show s.srcLen.toNat = s.srcLen.toNat + 0 from rfl, ht 0]
    exact congrArg (fun e => Res.ok () { t with epos := e }) (by simp : 0#64 + BitVec.ofNat 64 s.srcLen.toNat = s.srcLen)
  · rw [hat.same]

/-- ENC_CODES where a byte has no code, after bytes that have one: refused (R167, U8). -/
theorem encCodes_of_uncoded {s : State} {a : Nat} {v : Byte} (ha : a < s.srcLen.toNat) (hv : Table.get s.src a = some v)
    (hl : Table.get s.codeLen v.toNat = some 0)
    (hc : ∀ b, b < a → ∃ w : Byte, Table.get s.src b = some w ∧ HasCode s w.toNat)
    (hr : RoomFor s ((List.range a).flatMap fun b => codeBitsOf s ((Table.get s.src b).getD 0).toNat).length) :
    encCodes s = .refused .noCode := by
  rw [List.range_eq_range'] at hr
  obtain ⟨t, ht, hat⟩ := codesLoop_of_room (k := a) (s := { s with epos := 0 })
    (by show (0 : Word64).toNat + _ ≤ _; simp; omega) (fun b _ hb => hc b (by simpa using hb)) hr
  obtain ⟨m, hm⟩ : ∃ m, s.srcLen.toNat = a + (m + 1) := ⟨s.srcLen.toNat - a - 1, by omega⟩
  have hts := hat.same
  have he : (0 + BitVec.ofNat 64 a : Word64).toNat = a := by
    rw [show (0 + BitVec.ofNat 64 a : Word64) = BitVec.ofNat 64 a from BitVec.zero_add _, BitVec.toNat_ofNat, Nat.mod_eq_of_lt (by have := s.srcLen.isLt; omega)]
  have hlt : a < t.srcLen.toNat := by rw [hts]; exact ha
  have hv' : Table.get t.src a = some v := by rw [hts]; exact hv
  have hl' : Table.get t.codeLen v.toNat = some 0 := by rw [hts]; exact hl
  unfold encCodes
  rw [hm, ht (m + 1)]
  simp only [codesLoop, he, if_pos hlt, readSrc, orFault, hv', Res.andThen_ok, putCode, readCodeLen, hl', if_true,
    Res.andThen_refused]

end Sys2Proof.Machine
end

