-- ==== Sys2Proof/Laws/Construction.lean ====
section
/-!
SUPPORT. The construction of the tree: the priority collection, TB_INIT, TB_MERGE, TB_BUILD (R100 to R106).
-/

namespace Sys2Proof.Machine

/-! ### Sequences of operations and rising lists -/

theorem forEach_append {β : Type} (f : β → Op Unit) (xs ys : List β) (s : State) :
    forEach f (xs ++ ys) s = (forEach f xs s).andThen fun _ s => forEach f ys s := by
  induction xs generalizing s with
  | nil => rfl
  | cons x xs ih =>
    simp only [List.cons_append, forEach, Res.andThen_assoc, ih]

theorem insertIx_append {l : List Nat} {i : Nat} (h : ∀ j ∈ l, j < i) : insertIx l i = l ++ [i] := by
  induction l with
  | nil => rfl
  | cons k l ih =>
    have hk := h k (by simp)
    rw [insertIx, if_neg (by omega), if_neg (by omega), ih fun j hj => h j (by simp [hj])]
    rfl

theorem risesFromIx_iff {lo : Nat} {l : List Nat} :
    risesFromIx lo l = true ↔ l.Pairwise (· < ·) ∧ ∀ i ∈ l, lo ≤ i := by
  induction l generalizing lo with
  | nil => simp [risesFromIx]
  | cons k l ih =>
    simp only [risesFromIx, Bool.and_eq_true, decide_eq_true_eq, ih, List.pairwise_cons, List.mem_cons, forall_eq_or_imp]
    constructor
    · rintro ⟨h1, h2, h3⟩
      exact ⟨⟨fun i hi => by have := h3 i hi; omega, h2⟩, h1, fun i hi => by have := h3 i hi; omega⟩
    · rintro ⟨⟨h1, h2⟩, h3, h4⟩
      exact ⟨h3, h2, fun i hi => by have := h1 i hi; omega⟩

theorem nodup_of_rises {l : List Nat} (h : risesFromIx 0 l = true) : l.Nodup :=
  (risesFromIx_iff.1 h).1.imp (fun h => Nat.ne_of_lt h)

theorem eq_singleton_of_rises {l : List Nat} {r : Nat} (h : risesFromIx 0 l = true) (hm : ∀ i, i ∈ l ↔ i = r) : l = [r] :=
  List.perm_singleton.1 ((List.perm_ext_iff_of_nodup (nodup_of_rises h) (List.nodup_singleton r)).2 (by simpa using hm))

/-! ### The priority collection (R100) -/

/-- Every node of a list exists. -/
def Readable (s : State) (l : List Nat) : Prop := ∀ i ∈ l, i < 511 ∧ (Table.get s.node i).isSome = true

theorem readNode_of_readable {s : State} {l : List Nat} {i : Nat} (h : Readable s l) (hi : i ∈ l) :
    ∃ e, Table.get s.node i = some e ∧ readNode i s = .ok e s ∧ nodeFreq s i = e.freq.toNat := by
  obtain ⟨h1, h2⟩ := h i hi
  obtain ⟨e, he⟩ := Option.isSome_iff_exists.1 h2
  exact ⟨e, he, readNode_of_get h1 he, by simp [nodeFreq, he]⟩

theorem KeyBefore.trans {s : State} {a b c : Nat} (h : KeyBefore s a b) (k : KeyBefore s b c) : KeyBefore s a c := by
  unfold KeyBefore at *; omega

theorem KeyBefore.asymm {s : State} {a b : Nat} (h : KeyBefore s a b) : ¬ KeyBefore s b a := by
  unfold KeyBefore at *; omega

/-- A nonempty list of nodes has a least one, and leastOf finds it. -/
theorem leastOf_exists {s : State} {l : List Nat} (h : Readable s l) (hl : l ≠ []) :
    ∃ a e, a ∈ l ∧ Table.get s.node a = some e ∧ leastOf l s = .ok (some (a, e.freq)) s ∧
      ∀ i ∈ l, i ≠ a → KeyBefore s a i := by
  induction l with
  | nil => exact absurd rfl hl
  | cons i l ih =>
    obtain ⟨e, he, hre, hfe⟩ := readNode_of_readable h (i := i) (by simp)
    by_cases hn : l = []
    · subst hn
      refine ⟨i, e, by simp, he, by simp only [leastOf, hre, Res.andThen_ok], fun j hj hne => ?_⟩
      simp at hj; exact absurd hj hne
    · have hl' : Readable s l := fun j hj => h j (by simp [hj])
      obtain ⟨a, g, ha, hg, hr, hmin⟩ := ih hl' hn
      obtain ⟨g', hg', -, hfa⟩ := readNode_of_readable hl' ha
      rw [hg] at hg'
      cases hg'
      by_cases hk : keyLt e.freq i g.freq a = true
      · refine ⟨i, e, by simp, he, ?_, fun j hj hne => ?_⟩
        · simp only [leastOf, hre, Res.andThen_ok, hr, hk, if_true]
        · have hia : KeyBefore s i a := by
            unfold KeyBefore
            rw [hfe, hfa]
            simpa [keyLt] using hk
          have hj : j ∈ l := by simpa [hne] using hj
          by_cases hja : j = a
          · subst hja; exact hia
          · exact hia.trans (hmin j hj hja)
      · refine ⟨a, g, by simp [ha], hg, ?_, fun j hj hne => ?_⟩
        · simp only [leastOf, hre, Res.andThen_ok, hr, hk, Bool.false_eq_true, if_false]
        · rcases List.mem_cons.1 hj with rfl | hj
          · unfold KeyBefore
            rw [hfe, hfa]
            simp only [keyLt, Bool.or_eq_true, Bool.and_eq_true, decide_eq_true_eq, not_or, not_and] at hk
            omega
          · exact hmin j hj hne

theorem leastOf_of_least {s : State} {l : List Nat} {a : Nat} {e : NodeEntry} (h : Readable s l) (ha : a ∈ l)
    (he : Table.get s.node a = some e) (hmin : ∀ i ∈ l, i ≠ a → KeyBefore s a i) :
    leastOf l s = .ok (some (a, e.freq)) s := by
  obtain ⟨b, g, hb, hg, hr, hbm⟩ := leastOf_exists h (List.ne_nil_of_mem ha)
  have hba : b = a := by
    by_contra hne
    exact (hmin b hb hne).asymm (hbm a ha fun e => hne e.symm)
  subst hba
  rw [he] at hg
  cases hg
  exact hr

theorem removeLeast_of_least {s : State} {a : Nat} {e : NodeEntry} (h : Readable s s.active) (ha : a ∈ s.active)
    (he : Table.get s.node a = some e) (hmin : ∀ i ∈ s.active, i ≠ a → KeyBefore s a i) :
    removeLeast s = .ok (a, e.freq) { s with active := eraseIx s.active a } := by
  simp only [removeLeast, leastOf_of_least h ha he hmin, Res.andThen_ok]

/-! ### TB_MERGE -/

/-- TB_MERGE (R102): the two least nodes become the children of the next Internal node, the first removed on the left. -/
theorem tbMerge_of_least {s : State} {a b : Nat} {ea eb : NodeEntry} (h : Readable s s.active) (hn : s.nint.toNat < 255)
    (ha : a ∈ s.active) (hb : b ∈ s.active) (hab : a ≠ b) (hea : Table.get s.node a = some ea)
    (heb : Table.get s.node b = some eb) (hma : ∀ i ∈ s.active, i ≠ a → KeyBefore s a i)
    (hmb : ∀ i ∈ s.active, i ≠ a → i ≠ b → KeyBefore s b i) :
    tbMerge s = .ok () { s with
      node := Table.set s.node (256 + s.nint.toNat)
        (.internal (ea.freq + eb.freq) (BitVec.ofNat 9 a) (BitVec.ofNat 9 b)),
      active := insertIx (eraseIx (eraseIx s.active a) b) (256 + s.nint.toNat), nint := s.nint + 1 } := by
  have h2 := removeLeast_of_least (s := { s with active := eraseIx s.active a }) (a := b) (e := eb)
    (fun i hi => h i ((mem_eraseIx _ _ _).1 hi).1) ((mem_eraseIx _ _ _).2 ⟨hb, hab.symm⟩) heb
    (fun i hi hne => hmb i ((mem_eraseIx _ _ _).1 hi).1 ((mem_eraseIx _ _ _).1 hi).2 hne)
  simp only [tbMerge, removeLeast_of_least h ha hea hma, Res.andThen_ok, h2]
  rw [writeNode_of_lt _ (by show 256 + s.nint.toNat < 511; omega)]
  rfl

/-! ### TB_INIT -/

/-- TB_INIT (R101): the Leaves of the symbols that occur. -/
theorem initLeaves {s : State} (hf : FreqWritten s) (ha : s.active = []) (hn : s.n = 0) (k : Nat) (hk : k ≤ 256) :
    ∃ t, forEach initLeaf (List.range k) s = .ok () t ∧
      t.active = (List.range k).filter (fun b => freqAt s b != 0) ∧ t.n.toNat = t.active.length ∧
      (∀ b, b < k → freqAt s b ≠ 0 →
        Table.get t.node b = some (.leaf (BitVec.ofNat 8 b) (BitVec.ofNat 64 (freqAt s b)))) ∧
      (∀ i, k ≤ i ∨ freqAt s i = 0 → Table.get t.node i = Table.get s.node i) ∧
      t = { s with n := t.n, active := t.active, node := t.node } := by
  induction k with
  | zero => exact ⟨s, rfl, by simpa using ha, by simp [ha, hn], by simp, fun _ _ => rfl, rfl⟩
  | succ k ih =>
    obtain ⟨t, ht, hta, htn, htl, htk, hts⟩ := ih (by omega)
    obtain ⟨v, hv⟩ := Option.isSome_iff_exists.1 (hf k (by omega))
    have hvt : Table.get t.freq k = some v := by rw [hts]; exact hv
    have hfk : freqAt s k = v.toNat := by simp [freqAt, hv]
    rw [List.range_succ, forEach_append, ht, Res.andThen_ok, List.filter_append]
    by_cases h0 : v = 0
    · subst h0
      refine ⟨t, ?_, ?_, htn, fun b hb hb0 => ?_, fun i hi => ?_, hts⟩
      · simp only [forEach, initLeaf, readFreq, orFault, hvt, Res.andThen_ok, if_true]
      · rw [hta]
        simp [hfk]
      · have : b ≠ k := by rintro rfl; exact hb0 hfk
        exact htl b (by omega) hb0
      · exact htk i (by omega)
    · have hv0 : v.toNat ≠ 0 := fun e => h0 (BitVec.eq_of_toNat_eq e)
      have hlt : ∀ j ∈ t.active, j < k := by
        intro j hj
        rw [hta] at hj
        simpa using (List.mem_filter.1 hj).1
      have hlen : t.active.length ≤ k := by
        rw [hta]
        exact le_trans (List.length_filter_le _ _) (by simp)
      have hn1 : (t.n + 1).toNat = t.n.toNat + 1 := by
        have h2 : t.n.toNat < 257 := by omega
        rw [BitVec.toNat_add, Nat.mod_eq_of_lt (show t.n.toNat + (1 : BitVec 9).toNat < 2 ^ 9 by
          show t.n.toNat + 1 < 512; omega)]
        rfl
      refine ⟨{ t with
          n := t.n + 1, active := t.active ++ [k], node := Table.set t.node k (.leaf (BitVec.ofNat 8 k) v) }, ?_, ?_, ?_,
        fun b hb hb0 => ?_, fun i hi => ?_, ?_⟩
      · simp only [forEach, initLeaf, readFreq, orFault, hvt, Res.andThen_ok, if_neg h0,
          writeNode_of_lt _ (show k < 511 by omega), activate, insertIx_append hlt]
      · rw [hta]
        simp [hfk, hv0]
      · simp only [hn1, List.length_append, List.length_singleton, htn]
      · show Table.get (Table.set t.node k _) b = _
        by_cases hbk : b = k
        · subst hbk
          rw [Table.get_set_self, hfk, BitVec.ofNat_toNat, BitVec.setWidth_eq]
        · rw [Table.get_set_ne _ _ hbk]
          exact htl b (by omega) hb0
      · have : i ≠ k := by
          rintro rfl
          rcases hi with hi | hi
          · omega
          · exact hv0 (hfk ▸ hi)
        show Table.get (Table.set t.node k _) i = _
        rw [Table.get_set_ne _ _ this]
        exact htk i (by omega)
      · rw [hts]

theorem tbInit_of_written {s : State} (hf : FreqWritten s) :
    ∃ t, tbInit s = .ok () t ∧ t.active = present s ∧ t.n.toNat = (present s).length ∧
      (∀ b, b < 256 → freqAt s b ≠ 0 →
        Table.get t.node b = some (.leaf (BitVec.ofNat 8 b) (BitVec.ofNat 64 (freqAt s b)))) ∧
      (∀ i, 256 ≤ i ∨ freqAt s i = 0 → Table.get t.node i = Table.get s.node i) ∧
      t = { s with n := t.n, nint := 0, nalloc := 0, root := NIL, active := t.active, node := t.node } := by
  obtain ⟨t, ht, hta, htn, htl, htk, hts⟩ := initLeaves
    (s := { s with n := 0, nint := 0, nalloc := 0, root := NIL, active := [] }) hf rfl rfl 256 (le_refl _)
  exact ⟨t, ht, hta, by rw [htn, hta]; rfl, htl, htk, by rw [hts]⟩

theorem mem_present {s : State} {b : Nat} : b ∈ present s ↔ b < 256 ∧ freqAt s b ≠ 0 := by
  simp [present]

theorem present_rises (s : State) : risesFromIx 0 (present s) = true :=
  risesFromIx_iff.2 ⟨List.pairwise_lt_range.filter _, fun _ _ => Nat.zero_le _⟩

theorem length_present_le (s : State) : (present s).length ≤ 256 :=
  le_trans (List.length_filter_le _ _) (by simp)

/-! ### The forest of active trees -/

/-- The sum of a tree's frequencies. -/
def HTree.weight (g : Nat → Nat) (x : HTree) : Nat := (x.syms.map fun b => g b.toNat).sum

theorem HTree.weight_node (g : Nat → Nat) (x y : HTree) : (HTree.node x y).weight g = x.weight g + y.weight g := by
  simp [HTree.weight, HTree.syms]

/-- The active nodes are the roots of the trees `F`, each with the sum of its frequencies. -/
structure Forest (g : Nat → Nat) (s : State) (F : List (Nat × HTree)) : Prop where
  mem : ∀ i, i ∈ s.active ↔ i ∈ F.map Prod.fst
  rises : risesFromIx 0 s.active = true
  nodup : (F.map Prod.fst).Nodup
  trees : ∀ p ∈ F, TreeIn s.node 0 (256 + s.nint.toNat) p.1 p.2
  weights : ∀ p ∈ F, nodeFreq s p.1 = p.2.weight g

theorem Forest.perm {g : Nat → Nat} {s : State} {F G : List (Nat × HTree)} (h : Forest g s F) (hp : F.Perm G) :
    Forest g s G where
  mem := fun i => by rw [h.mem, (hp.map Prod.fst).mem_iff]
  rises := h.rises
  nodup := (hp.map Prod.fst).nodup_iff.1 h.nodup
  trees := fun p hm => h.trees p (hp.mem_iff.2 hm)
  weights := fun p hm => h.weights p (hp.mem_iff.2 hm)

theorem TreeIn.get_isSome {n : Table NodeEntry} {lo hi i : Nat} {x : HTree} (h : TreeIn n lo hi i x) :
    (Table.get n i).isSome = true := by
  cases x with
  | leaf s => obtain ⟨-, -, f, hf⟩ := h; rw [hf]; rfl
  | node a b => obtain ⟨-, -, f, l, r, hf, -, -⟩ := h; rw [hf]; rfl

theorem Forest.readable {g : Nat → Nat} {s : State} {F : List (Nat × HTree)} (h : Forest g s F)
    (hn : s.nint.toNat ≤ 255) : Readable s s.active := by
  intro i hi
  obtain ⟨p, hp, rfl⟩ := List.mem_map.1 ((h.mem i).1 hi)
  have ht := h.trees p hp
  exact ⟨by have := ht.lt; omega, ht.get_isSome⟩

theorem perm_cons_of_mem {F : List (Nat × HTree)} {p : Nat × HTree} (h : p ∈ F) : F.Perm (p :: F.erase p) :=
  List.perm_cons_erase h

/-- All trees' frequencies. -/
def totalWeight (g : Nat → Nat) (F : List (Nat × HTree)) : Nat := (F.map fun p => p.2.weight g).sum

/-- One merge of a forest of at least two trees (R102). -/
theorem Forest.merge {g : Nat → Nat} {s : State} {F : List (Nat × HTree)} (h : Forest g s F) (h2 : 2 ≤ F.length)
    (hn : s.nint.toNat < 255) (hw : totalWeight g F < 2 ^ 64) :
    ∃ t x F', tbMerge s = .ok () t ∧ Forest g t ((256 + s.nint.toNat, x) :: F') ∧ F'.length + 2 = F.length ∧
      totalWeight g ((256 + s.nint.toNat, x) :: F') = totalWeight g F ∧
      (((256 + s.nint.toNat, x) :: F').flatMap fun p => p.2.syms).Perm (F.flatMap fun p => p.2.syms) ∧
      t.nint.toNat = s.nint.toNat + 1 ∧ t = { s with node := t.node, active := t.active, nint := t.nint } := by
  have hr := h.readable (by omega)
  have hlenA : s.active.length = F.length := by
    rw [← List.length_map (f := Prod.fst) (as := F)]
    exact ((List.perm_ext_iff_of_nodup (nodup_of_rises h.rises) h.nodup).2 h.mem).length_eq
  have hA : s.active ≠ [] := by rintro e; rw [e] at hlenA; simp at hlenA; omega
  obtain ⟨a, ea, ha, hea, -, hma⟩ := leastOf_exists hr hA
  have hE : eraseIx s.active a ≠ [] := by
    intro e
    have hp : s.active.Perm [a] := by
      refine (List.perm_ext_iff_of_nodup (nodup_of_rises h.rises) (List.nodup_singleton a)).2 fun i => ?_
      constructor
      · intro hi
        by_contra hne
        have : i ∈ eraseIx s.active a := (mem_eraseIx _ _ _).2 ⟨hi, by simpa using hne⟩
        rw [e] at this
        simp at this
      · intro hi
        rw [List.mem_singleton] at hi
        subst hi
        exact ha
    have := hp.length_eq
    simp at this
    omega
  obtain ⟨b, eb, hb, heb, -, hmb⟩ := leastOf_exists (l := eraseIx s.active a)
    (fun i hi => hr i ((mem_eraseIx _ _ _).1 hi).1) hE
  obtain ⟨hbA, hba⟩ := (mem_eraseIx _ _ _).1 hb
  have hmerge := tbMerge_of_least hr hn ha hbA hba.symm hea heb hma
    (fun i hi h1 h2 => hmb i ((mem_eraseIx _ _ _).2 ⟨hi, h1⟩) h2)
  -- the two trees
  obtain ⟨⟨a', x⟩, hxF, rfl⟩ := List.mem_map.1 ((h.mem a).1 ha)
  obtain ⟨⟨b', y⟩, hyF, rfl⟩ := List.mem_map.1 ((h.mem b).1 hbA)
  simp only at *
  have hp1 := perm_cons_of_mem hxF
  have hyF1 : (b', y) ∈ F.erase (a', x) := by
    have : (b', y) ∈ (a', x) :: F.erase (a', x) := hp1.mem_iff.1 hyF
    rcases List.mem_cons.1 this with e | e
    · exact absurd (congrArg Prod.fst e) hba
    · exact e
  have hp2 : F.Perm ((a', x) :: (b', y) :: (F.erase (a', x)).erase (b', y)) :=
    hp1.trans ((perm_cons_of_mem hyF1).cons _)
  generalize (F.erase (a', x)).erase (b', y) = F2 at hp2
  have hG := h.perm hp2
  have hnd := hG.nodup
  simp only [List.map_cons, List.nodup_cons, List.mem_cons, not_or] at hnd
  obtain ⟨⟨hab, haF⟩, hbF, hF2⟩ := hnd
  have hx := hG.trees (a', x) (by simp)
  have hy := hG.trees (b', y) (by simp)
  have hwx := hG.weights (a', x) (by simp)
  have hwy := hG.weights (b', y) (by simp)
  simp only [nodeFreq, hea, heb, Option.map_some, Option.getD_some] at hwx hwy
  have hwt : totalWeight g F = x.weight g + (y.weight g + totalWeight g F2) := by
    have : totalWeight g F = totalWeight g ((a', x) :: (b', y) :: F2) := by
      unfold totalWeight; exact (hp2.map _).sum_eq
    rw [this]
    simp [totalWeight]
  have hsum : (ea.freq + eb.freq).toNat = x.weight g + y.weight g := by
    rw [BitVec.toNat_add, hwx, hwy, Nat.mod_eq_of_lt (by omega)]
  have hn1 : (s.nint + 1).toNat = s.nint.toNat + 1 := toNat_add_one_of_lt hn (by decide)
  refine ⟨_, .node x y, F2, hmerge, ?_, ?_, ?_, ?_, hn1, rfl⟩
  · have hfresh : ∀ p ∈ F2, p.1 ≠ 256 + s.nint.toNat := fun p hp => by
      have := (hG.trees p (by simp [hp])).lt
      omega
    refine ⟨fun i => ?_, ?_, ?_, fun p hp => ?_, fun p hp => ?_⟩
    · show i ∈ insertIx (eraseIx (eraseIx s.active a') b') (256 + s.nint.toNat) ↔ _
      rw [mem_insertIx, mem_eraseIx, mem_eraseIx, hG.mem]
      simp only [List.map_cons, List.mem_cons]
      constructor
      · rintro (rfl | ⟨⟨h1 | h1 | h1, h2⟩, h3⟩)
        · exact .inl rfl
        · exact absurd h1 h2
        · exact absurd h1 h3
        · exact .inr h1
      · rintro (rfl | h1)
        · exact .inl rfl
        · exact .inr ⟨⟨.inr (.inr h1), fun e => haF (e ▸ h1)⟩, fun e => hbF (e ▸ h1)⟩
    · exact risesFromIx_insertIx (Nat.zero_le _) _ (risesFromIx_eraseIx _ _ (risesFromIx_eraseIx _ _ h.rises))
    · simp only [List.map_cons, List.nodup_cons]
      refine ⟨fun hm => ?_, hF2⟩
      obtain ⟨p, hp, he⟩ := List.mem_map.1 hm
      exact hfresh p hp he
    · show TreeIn (Table.set s.node (256 + s.nint.toNat) _) 0 (256 + (s.nint + 1).toNat) p.1 p.2
      rw [hn1]
      have keep : ∀ {i : Nat} {z : HTree}, TreeIn s.node 0 (256 + s.nint.toNat) i z →
          TreeIn (Table.set s.node (256 + s.nint.toNat)
            (.internal (ea.freq + eb.freq) (BitVec.ofNat 9 a') (BitVec.ofNat 9 b'))) 0 (256 + (s.nint.toNat + 1)) i z :=
        fun hz => TreeIn.mono (hz.congr fun j _ hj => Table.get_set_ne _ _ (by omega)) (le_refl _) (by omega)
      rcases List.mem_cons.1 hp with rfl | hp
      · have h1 := hx.lt
        have h2 := hy.lt
        refine ⟨Nat.zero_le _, by simp only; omega, _, _, _, Table.get_set_self .., ?_, ?_⟩
        · rw [toNat_ofNat_of_lt (by simp only at h1; omega)]; exact keep hx
        · rw [toNat_ofNat_of_lt (by simp only at h2; omega)]; exact keep hy
      · exact keep (hG.trees p (by simp [hp]))
    · show nodeFreq { s with node := Table.set s.node (256 + s.nint.toNat) _, active := _, nint := _ } p.1 = _
      unfold nodeFreq
      rcases List.mem_cons.1 hp with rfl | hp
      · simp only [Table.get_set_self, Option.map_some, Option.getD_some, NodeEntry.freq, HTree.weight_node]
        exact hsum
      · simp only [Table.get_set_ne _ _ (hfresh p hp)]
        exact hG.weights p (by simp [hp])
  · have := hp2.length_eq
    simp only [List.length_cons] at this
    omega
  · rw [hwt]
    simp [totalWeight, HTree.weight_node, Nat.add_assoc]
  · refine List.Perm.trans ?_ (hp2.symm.flatMap_right _)
    simp [HTree.syms]

/-- N − 1 merges of a forest of N ≥ 2 trees leave one tree, at the last Internal node (R103, R106). -/
theorem Forest.mergeAll {g : Nat → Nat} {m : Nat} {s : State} {F : List (Nat × HTree)} (h : Forest g s F)
    (hl : F.length = m + 2) (hn : s.nint.toNat + m < 255) (hw : totalWeight g F < 2 ^ 64) :
    ∃ t x, repeatOp tbMerge (m + 1) s = .ok () t ∧ Forest g t [(256 + s.nint.toNat + m, x)] ∧
      x.weight g = totalWeight g F ∧ x.syms.Perm (F.flatMap fun p => p.2.syms) ∧
      t.nint.toNat = s.nint.toNat + m + 1 ∧ t = { s with node := t.node, active := t.active, nint := t.nint } := by
  induction m generalizing s F with
  | zero =>
    obtain ⟨t, x, F', ht, hf, hlen, hwt, hp, htn, hts⟩ := h.merge (by omega) (by omega) hw
    have hF' : F' = [] := List.length_eq_zero_iff.1 (by omega)
    subst hF'
    refine ⟨t, x, ?_, by simpa using hf, by simpa [totalWeight] using hwt, by simpa using hp, by omega, hts⟩
    simp only [repeatOp, ht, Res.andThen_ok]
  | succ m ih =>
    obtain ⟨t, x, F', ht, hf, hlen, hwt, hp, htn, hts⟩ := h.merge (by omega) (by omega) hw
    obtain ⟨u, y, hu, huf, huw, hup, hun, hus⟩ := ih hf (by simp only [List.length_cons]; omega) (by omega) (by omega)
    refine ⟨u, y, ?_, ?_, by rw [huw, hwt], hup.trans hp, by omega, by rw [hus, hts]⟩
    · rw [repeatOp, ht, Res.andThen_ok, hu]
    · have e : 256 + t.nint.toNat + m = 256 + s.nint.toNat + (m + 1) := by omega
      rw [← e]; exact huf

/-! ### TB_BUILD -/

theorem map_syms_leaves (l : List Nat) (h : ∀ b ∈ l, b < 256) :
    ((l.map fun b => (b, HTree.leaf (BitVec.ofNat 8 b))).flatMap fun p => p.2.syms).map BitVec.toNat = l := by
  induction l with
  | nil => rfl
  | cons b l ih =>
    simp only [List.map_cons, List.flatMap_cons, HTree.syms, List.singleton_append, List.map_cons]
    rw [ih fun c hc => h c (by simp [hc]), BitVec.toNat_ofNat, Nat.mod_eq_of_lt (h b (by simp))]

theorem sum_filter_ne_zero (l : List Nat) (f : Nat → Nat) : ((l.filter fun b => f b != 0).map f).sum = (l.map f).sum := by
  induction l with
  | nil => rfl
  | cons b l ih =>
    rw [List.filter_cons]
    split
    · simp [ih]
    · rename_i h
      simp at h
      simp [ih, h]

theorem nodeFreq_leaf {s t : State} {b : Nat} {sym : Byte} (hs : freqAt s b < 2 ^ 64)
    (h : Table.get t.node b = some (.leaf sym (BitVec.ofNat 64 (freqAt s b)))) : nodeFreq t b = freqAt s b := by
  unfold nodeFreq
  rw [h]
  simp only [Option.map_some, Option.getD_some, NodeEntry.freq, BitVec.toNat_ofNat]
  exact Nat.mod_eq_of_lt hs

theorem freqAt_lt (s : State) (b : Nat) : freqAt s b < 2 ^ 64 := by
  unfold freqAt
  cases h : Table.get s.freq b with
  | none => simp
  | some v => simpa using v.isLt

/-- The Leaves that TB_INIT makes are a forest. -/
theorem Forest.ofInit {s t : State} (ha : t.active = present s)
    (hl : ∀ b, b < 256 → freqAt s b ≠ 0 →
      Table.get t.node b = some (.leaf (BitVec.ofNat 8 b) (BitVec.ofNat 64 (freqAt s b)))) :
    Forest (freqAt s) t ((present s).map fun b => (b, HTree.leaf (BitVec.ofNat 8 b))) := by
  refine ⟨fun i => ?_, ?_, ?_, fun p hp => ?_, fun p hp => ?_⟩
  · simp [ha, Function.comp_def]
  · rw [ha]; exact present_rises s
  · rw [List.map_map]
    simpa [Function.comp_def] using nodup_of_rises (present_rises s)
  · obtain ⟨b, hb, rfl⟩ := List.mem_map.1 hp
    obtain ⟨h1, h2⟩ := mem_present.1 hb
    exact ⟨Nat.zero_le _, by simp only; omega, _, hl b h1 h2⟩
  · obtain ⟨b, hb, rfl⟩ := List.mem_map.1 hp
    obtain ⟨h1, h2⟩ := mem_present.1 hb
    rw [nodeFreq_leaf (freqAt_lt s b) (hl b h1 h2)]
    simp [HTree.weight, HTree.syms, Nat.mod_eq_of_lt h1]

/-- TB_BUILD without a symbol (R105). -/
theorem tbBuild_of_none {s : State} (hf : FreqWritten s) (hp : present s = []) :
    tbBuild s = .ok () { s with n := 0, nint := 0, nalloc := 0, root := NIL, active := [] } := by
  obtain ⟨t, ht, hta, htn, htl, htk, hts⟩ := tbInit_of_written hf
  have htn0 : t.n = 0 := BitVec.eq_of_toNat_eq (by rw [htn, hp]; rfl)
  have hnode : t.node = s.node := by
    have h0 : ∀ b, b < 256 → freqAt s b = 0 := fun b hb => by
      by_contra h
      have : b ∈ present s := mem_present.2 ⟨hb, h⟩
      rw [hp] at this
      simp at this
    have hempty : ∀ (k : Nat) (u : State), k ≤ 256 → u.freq = s.freq → forEach initLeaf (List.range k) u = .ok () u := by
      intro k
      induction k with
      | zero => intro u _ _; rfl
      | succ k ih =>
        intro u hk hu
        rw [List.range_succ, forEach_append, ih u (by omega) hu, Res.andThen_ok]
        obtain ⟨v, hv⟩ := Option.isSome_iff_exists.1 (hf k (by omega))
        have hv0 : v = 0 := BitVec.eq_of_toNat_eq (by have := h0 k (by omega); simpa [freqAt, hv] using this)
        simp only [forEach, initLeaf, readFreq, orFault, hu, hv, Res.andThen_ok, hv0, if_true]
    have h1 : tbInit s = .ok () { s with n := 0, nint := 0, nalloc := 0, root := NIL, active := [] } :=
      hempty 256 _ (le_refl _) rfl
    rw [h1] at ht
    cases ht
    rfl
  rw [tbBuild, ht, Res.andThen_ok, if_pos htn0]
  rw [hts, htn0, hta, hp, hnode]

/-- TB_BUILD with one symbol (R104). -/
theorem tbBuild_of_one {s : State} {b : Nat} (hf : FreqWritten s) (hp : present s = [b]) :
    ∃ t, tbBuild s = .ok () t ∧
      Table.get t.node b = some (.leaf (BitVec.ofNat 8 b) (BitVec.ofNat 64 (freqAt s b))) ∧
      Table.get t.node 256 = some (.internal (BitVec.ofNat 64 (freqAt s b)) (BitVec.ofNat 9 b) NIL) ∧
      (∀ i, i ≠ b → i ≠ 256 → Table.get t.node i = Table.get s.node i) ∧
      RootIs t (some (.leaf (BitVec.ofNat 8 b))) ∧
      t = { s with n := 1, nint := 1, nalloc := 0, root := 256#9, active := [256], node := t.node } := by
  obtain ⟨t, ht, hta, htn, htl, htk, hts⟩ := tbInit_of_written hf
  have hbp : b ∈ present s := by rw [hp]; simp
  obtain ⟨hb, hb0⟩ := mem_present.1 hbp
  have htn1 : t.n = 1 := BitVec.eq_of_toNat_eq (by rw [htn, hp]; rfl)
  have hbl := htl b hb hb0
  have hrest : ∀ i, i ≠ b → i < 256 → freqAt s i = 0 := fun i hi hlt => by
    by_contra h
    have : i ∈ present s := mem_present.2 ⟨hlt, h⟩
    rw [hp] at this
    simp at this
    exact hi this
  refine ⟨{ t with
      node := Table.set t.node 256 (.internal (BitVec.ofNat 64 (freqAt s b)) (BitVec.ofNat 9 b) NIL),
      active := [256], nint := 1, root := 256#9 }, ?_, ?_, ?_, fun i h1 h2 => ?_, ?_, ?_⟩
  · rw [tbBuild, ht, Res.andThen_ok, if_neg (by rw [htn1]; decide), if_pos htn1]
    have hact : t.active = [b] := by rw [hta, hp]
    have hins : insertIx (eraseIx t.active b) 256 = [256] := by rw [hact]; simp [eraseIx, insertIx]
    simp only [buildOne, onlyActive, hact, Res.andThen_ok, readNode_of_get (show b < 511 by omega) hbl,
      writeNode_of_lt _ (show 256 < 511 by omega), NodeEntry.freq]
    simp [eraseIx, insertIx]
  · show Table.get (Table.set t.node 256 _) b = _
    rw [Table.get_set_ne _ _ (by omega)]; exact hbl
  · exact Table.get_set_self ..
  · show Table.get (Table.set t.node 256 _) i = _
    rw [Table.get_set_ne _ _ h2]
    by_cases hi : i < 256
    · exact htk i (.inr (hrest i h1 hi))
    · exact htk i (.inl (by omega))
  · refine ⟨by show (256#9 : BitVec 9) ≠ NIL; decide, BitVec.ofNat 64 (freqAt s b), BitVec.ofNat 9 b,
      Table.get_set_self t.node 256 _, ?_⟩
    rw [toNat_ofNat_of_lt (by omega)]
    refine ⟨by omega, BitVec.ofNat 64 (freqAt s b), ?_⟩
    show Table.get (Table.set t.node 256 _) b = _
    rw [Table.get_set_ne _ _ (by omega)]; exact hbl
  · rw [hts, htn1]

/-- TB_BUILD with at least two symbols (R103, R106). -/
theorem tbBuild_of_many {s : State} (hf : FreqWritten s) (hp : 2 ≤ (present s).length) (hw : freqSum s < 2 ^ 64) :
    ∃ t x, tbBuild s = .ok () t ∧ RootIs t (some x) ∧ (x.syms.map BitVec.toNat).Perm (present s) ∧
      t.n.toNat = (present s).length ∧ t.nint.toNat = (present s).length - 1 ∧
      t.root.toNat = 256 + (present s).length - 2 ∧ t.active = [t.root.toNat] ∧ nodeFreq t t.root.toNat = freqSum s ∧
      t = { s with
        n := t.n, nint := t.nint, nalloc := 0, root := t.root, active := t.active, node := t.node } := by
  obtain ⟨t, ht, hta, htn, htl, htk, hts⟩ := tbInit_of_written hf
  have hle := length_present_le s
  have htn0 : t.nint = 0 := by rw [hts]
  have hforest := Forest.ofInit hta htl
  have hW : totalWeight (freqAt s) ((present s).map fun b => (b, HTree.leaf (BitVec.ofNat 8 b))) = freqSum s := by
    unfold totalWeight freqSum
    rw [← sum_filter_ne_zero, List.map_map]
    congr 1
    apply List.map_congr_left
    intro b hb
    obtain ⟨h1, h2⟩ := mem_present.1 hb
    simp [HTree.weight, HTree.syms, Nat.mod_eq_of_lt h1]
  obtain ⟨m, hm⟩ : ∃ m, (present s).length = m + 2 := ⟨(present s).length - 2, by omega⟩
  have h0 : t.nint.toNat = 0 := by rw [htn0]; rfl
  obtain ⟨u, x, hu, huf, huw, hup, hun, hus⟩ := hforest.mergeAll (m := m) (by simpa using hm) (by omega)
    (by rw [hW]; exact hw)
  rw [h0, Nat.add_zero] at huf
  rw [hW] at huw
  have hact : u.active = [256 + m] := eq_singleton_of_rises huf.rises (by simpa using huf.mem)
  have htree := huf.trees (256 + m, x) (by simp)
  simp only at htree
  have hroot : (BitVec.ofNat 9 (256 + m)).toNat = 256 + m := toNat_ofNat_of_lt (by omega)
  refine ⟨{ u with root := BitVec.ofNat 9 (256 + m) }, x, ?_, ?_, ?_, ?_, ?_, ?_, ?_, ?_, ?_⟩
  · rw [tbBuild, ht, Res.andThen_ok, if_neg, if_neg]
    · unfold buildMany
      rw [htn, hm, show m + 2 - 1 = m + 1 by omega, hu, Res.andThen_ok]
      simp only [onlyActive, hact, Res.andThen_ok]
    · intro e; rw [e] at htn; simp at htn; omega
    · intro e; rw [e] at htn; simp at htn; omega
  · cases x with
    | leaf sym =>
      have h1 : 1 = _ := hup.length_eq
      have h2 := congrArg List.length (map_syms_leaves (present s) fun b hb => (mem_present.1 hb).1)
      rw [List.length_map] at h2
      omega
    | node a b =>
      show IsTree u.node (BitVec.ofNat 9 (256 + m)).toNat _
      rw [hroot]
      exact htree.isTree (by omega)
  · have := hup.map BitVec.toNat
    rwa [map_syms_leaves (present s) fun b hb => (mem_present.1 hb).1] at this
  · show u.n.toNat = _
    rw [hus]; exact htn
  · show u.nint.toNat = _
    omega
  · show (BitVec.ofNat 9 (256 + m)).toNat = _
    omega
  · show u.active = [(BitVec.ofNat 9 (256 + m)).toNat]
    rw [hroot, hact]
  · show nodeFreq u (BitVec.ofNat 9 (256 + m)).toNat = _
    rw [hroot, ← huw]
    exact huf.weights (256 + m, x) (by simp)
  · rw [hus, hts]

/-- What TB_BUILD leaves, whatever the counts (R103 to R106): the tree that `ROOT` and `NODE` hold has exactly one Leaf for
every symbol that occurs. -/
structure Built (s : State) (T : Option HTree) (t : State) : Prop where
  root : RootIs t T
  none_iff : T = none ↔ present s = []
  syms : ∀ x, T = some x → (x.syms.map BitVec.toNat).Perm (present s)
  count : t.n.toNat = (present s).length
  same : t = { s with
    n := t.n, nint := t.nint, nalloc := t.nalloc, root := t.root, active := t.active, node := t.node }

theorem tbBuild_of_written {s : State} (hf : FreqWritten s) (hw : freqSum s < 2 ^ 64) :
    ∃ t T, tbBuild s = .ok () t ∧ Built s T t := by
  rcases Nat.lt_or_ge (present s).length 2 with h | h
  · rcases hp : present s with _ | ⟨b, l⟩
    · refine ⟨_, none, tbBuild_of_none hf hp, rfl, by simp [hp], fun x hx => (nomatch hx), by rw [hp]; rfl, rfl⟩
    · have hl : l = [] := by
        rw [hp] at h
        simp only [List.length_cons] at h
        exact List.length_eq_zero_iff.1 (by omega)
      subst hl
      obtain ⟨t, ht, -, -, -, hr, hs⟩ := tbBuild_of_one hf hp
      have hb := (mem_present.1 (by rw [hp]; simp : b ∈ present s)).1
      refine ⟨t, _, ht, hr, by simp [hp], fun x hx => ?_, ?_, ?_⟩
      · cases hx
        rw [hp]
        simp [HTree.syms, Nat.mod_eq_of_lt hb]
      · rw [hs, hp]; rfl
      · rw [hs]
  · obtain ⟨t, x, ht, hr, hp, hn, -, -, -, -, hs⟩ := tbBuild_of_many hf h hw
    refine ⟨t, some x, ht, hr, ?_, fun y hy => by cases hy; exact hp, hn, by rw [hs]⟩
    constructor
    · intro e; cases e
    · intro e; rw [e] at h; simp at h

theorem Built.nodup {s t : State} {T : Option HTree} (h : Built s T t) {x : HTree} (hx : T = some x) : x.syms.Nodup := by
  have h1 := (h.syms x hx).nodup_iff.2 (nodup_of_rises (present_rises s))
  exact List.Nodup.of_map _ h1

theorem Built.length_le {s t : State} {T : Option HTree} (h : Built s T t) {x : HTree} (hx : T = some x) :
    x.syms.length ≤ 256 := by
  have h1 := (h.syms x hx).length_eq
  rw [List.length_map] at h1
  have := length_present_le s
  omega

theorem Built.mem {s t : State} {T : Option HTree} (h : Built s T t) {x : HTree} (hx : T = some x) {b : Byte}
    (hb : freqAt s b.toNat ≠ 0) : b ∈ x.syms := by
  have h1 := (h.syms x hx).mem_iff.2 (mem_present.2 ⟨b.isLt, hb⟩)
  obtain ⟨c, hc, he⟩ := List.mem_map.1 h1
  have : c = b := BitVec.eq_of_toNat_eq he
  rwa [this] at hc

end Sys2Proof.Machine
end

