-- ==== Sys2Proof/Laws/Counts.lean ====
section
/-!
SUPPORT. Counting: FC_COUNT and FC_SCAN, and the sum of all counts (R91 to R93).
-/

namespace Sys2Proof.Machine

theorem fcCount_of_written {s : State} {b : Byte} {v : Word64} (h : Table.get s.freq b.toNat = some v) :
    fcCount b s = .ok () { s with freq := Table.set s.freq b.toNat (v + 1) } := by
  simp only [fcCount, readFreq, orFault, h, Res.andThen_ok, writeFreq]

/-- The number of indices below `e` at which SRC holds `b`. -/
def occurrencesBelow (s : State) (e : Nat) (b : Byte) : Nat :=
  (List.range e).countP fun a => Table.get s.src a == some b

theorem occurrencesBelow_succ {s : State} {e : Nat} {v : Byte} (h : Table.get s.src e = some v) (b : Byte) :
    occurrencesBelow s (e + 1) b = occurrencesBelow s e b + if b = v then 1 else 0 := by
  unfold occurrencesBelow
  rw [List.range_succ, List.countP_append]
  congr 1
  by_cases hb : b = v
  · subst hb; simp [h]
  · have : ¬ v = b := fun e => hb e.symm
    simp [h, hb, this]

/-- The loop of FC_SCAN counts the rest of SRC (R92). -/
theorem scanLoop_of_placed {k : Nat} {s : State} (he : s.epos.toNat + k = s.srcLen.toNat) (hs : SrcPlaced s)
    (hf : ∀ b : Byte, Table.get s.freq b.toNat = some (BitVec.ofNat 64 (occurrencesBelow s s.epos.toNat b))) :
    ∃ t, scanLoop k s = .ok () t ∧
      (∀ b : Byte, Table.get t.freq b.toNat = some (BitVec.ofNat 64 (occurrencesBelow s s.srcLen.toNat b))) ∧
      t = { s with freq := t.freq, epos := s.srcLen } := by
  induction k generalizing s with
  | zero =>
    have : s.epos = s.srcLen := BitVec.eq_of_toNat_eq (by omega)
    refine ⟨s, rfl, by rw [← this]; exact hf, ?_⟩
    exact congrArg (fun e => { s with epos := e }) this
  | succ k ih =>
    have hlt : s.epos.toNat < s.srcLen.toNat := by omega
    obtain ⟨v, hv⟩ := Option.isSome_iff_exists.1 (hs _ hlt)
    have he1 : (s.epos + 1).toNat = s.epos.toNat + 1 := toNat_add_one_of_lt hlt s.srcLen.isLt
    obtain ⟨t, ht, htf, hts⟩ := ih (s := { s with
        freq := Table.set s.freq v.toNat (BitVec.ofNat 64 (occurrencesBelow s s.epos.toNat v) + 1), epos := s.epos + 1 })
      (by show (s.epos + 1).toNat + k = _; rw [he1]; show _ = s.srcLen.toNat; omega) hs
      (by
        intro b
        show Table.get (Table.set s.freq v.toNat _) b.toNat =
          some (BitVec.ofNat 64 (occurrencesBelow s (s.epos + 1).toNat b))
        rw [he1, occurrencesBelow_succ hv]
        by_cases hb : b = v
        · subst hb
          rw [Table.get_set_self, if_pos rfl, BitVec.ofNat_add]
          rfl
        · rw [Table.get_set_ne _ _ (byte_toNat_ne hb), if_neg hb, hf b, Nat.add_zero])
    refine ⟨t, ?_, htf, by rw [hts]⟩
    simp only [scanLoop, if_pos hlt, readSrc_of_placed hlt hv, fcCount_of_written (hf v), Res.andThen_ok, ht]

/-- FC_SCAN (R92). -/
theorem fcScan_of_placed {s : State} (hs : SrcPlaced s) :
    ∃ t, fcScan s = .ok () t ∧
      (∀ b : Byte, Table.get t.freq b.toNat = some (BitVec.ofNat 64 (occurrences s b))) ∧
      t = { s with freq := t.freq, epos := s.srcLen } := by
  obtain ⟨t, ht, htf, hts⟩ := scanLoop_of_placed (k := s.srcLen.toNat)
    (s := { s with freq := Table.fill 256 0, epos := 0 }) (by show (0 : Word64).toNat + _ = s.srcLen.toNat; simp) hs
    (by
      intro b
      show Table.get (Table.fill 256 (0 : Word64)) b.toNat = some (BitVec.ofNat 64 0)
      rw [Table.get_fill, if_pos b.isLt]
      rfl)
  exact ⟨t, by unfold fcScan fcClear; rw [Res.andThen_ok, ht], htf, by rw [hts]⟩

theorem sum_indicator (l : List Nat) (x : Nat) : (l.map fun b => if b = x then 1 else 0).sum = l.count x := by
  induction l with
  | nil => rfl
  | cons b l ih =>
    rw [List.map_cons, List.sum_cons, ih, List.count_cons, Nat.add_comm]
    simp

theorem sum_occurrencesBelow {s : State} {e : Nat} (h : ∀ a, a < e → (Table.get s.src a).isSome = true) :
    ((List.range 256).map fun b => occurrencesBelow s e (BitVec.ofNat 8 b)).sum = e := by
  induction e with
  | zero =>
    refine List.sum_eq_zero fun x hx => ?_
    obtain ⟨b, -, rfl⟩ := List.mem_map.1 hx
    rfl
  | succ e ih =>
    obtain ⟨v, hv⟩ := Option.isSome_iff_exists.1 (h e (by omega))
    have hmap : ((List.range 256).map fun b => occurrencesBelow s (e + 1) (BitVec.ofNat 8 b)) =
        (List.range 256).map fun b => occurrencesBelow s e (BitVec.ofNat 8 b) + if b = v.toNat then 1 else 0 := by
      apply List.map_congr_left
      intro b hb
      have hb : b < 256 := by simpa using hb
      rw [occurrencesBelow_succ hv]
      congr 1
      have : (BitVec.ofNat 8 b = v) ↔ b = v.toNat := by
        constructor
        · rintro rfl; rw [BitVec.toNat_ofNat, Nat.mod_eq_of_lt hb]
        · rintro rfl; simp
      simp only [this]
    rw [hmap, List.sum_map_add, ih fun a ha => h a (by omega), sum_indicator,
      List.count_eq_one_of_mem List.nodup_range (by simpa using v.isLt)]

theorem occurrencesBelow_le (s : State) (e : Nat) (b : Byte) : occurrencesBelow s e b ≤ e := by
  unfold occurrencesBelow
  exact le_trans List.countP_le_length (by simp)

/-- The counts add up to the length of the input (R93). -/
theorem freqSum_of_counted {s t : State} (hs : SrcPlaced s)
    (h : ∀ b : Byte, Table.get t.freq b.toNat = some (BitVec.ofNat 64 (occurrences s b))) : freqSum t = s.srcLen.toNat := by
  rw [← sum_occurrencesBelow hs]
  unfold freqSum
  congr 1
  apply List.map_congr_left
  intro b hb
  have hb : b < 256 := by simpa using hb
  have hbt : (BitVec.ofNat 8 b).toNat = b := by rw [BitVec.toNat_ofNat, Nat.mod_eq_of_lt hb]
  have := h (BitVec.ofNat 8 b)
  rw [hbt] at this
  unfold freqAt
  rw [this]
  have hle := occurrencesBelow_le s s.srcLen.toNat (BitVec.ofNat 8 b)
  have := s.srcLen.isLt
  show (BitVec.ofNat 64 (occurrencesBelow s s.srcLen.toNat (BitVec.ofNat 8 b))).toNat = _
  rw [BitVec.toNat_ofNat, Nat.mod_eq_of_lt (by omega)]

/-- A byte that occurs in SRC has a count that is not zero. -/
theorem occurrences_pos {s : State} {a : Nat} {v : Byte} (ha : a < s.srcLen.toNat) (hv : Table.get s.src a = some v) :
    0 < occurrences s v :=
  List.countP_pos_iff.2 ⟨a, by simpa using ha, by simp [hv]⟩

end Sys2Proof.Machine
end

