-- ==== Sys2Proof/Laws/Unpacker.lean ====
section
/-!
SUPPORT. The unpacker: one lemma per operation that says what it does where SRC holds the bits (R150 to R154).
-/

namespace Sys2Proof.Machine

/-! ### Bits of SRC -/

theorem HoldsBits.nil {s : State} {p : Nat} (h : p ≤ srcBits s) : HoldsBits s p [] := ⟨by simpa using h, fun j hj => by simp at hj⟩

theorem holdsBits_cons {s : State} {p : Nat} {b : Bit} {bs : List Bit} :
    HoldsBits s p (b :: bs) ↔ srcBitAt s p = some b ∧ HoldsBits s (p + 1) bs := by
  constructor
  · rintro ⟨h1, h2⟩
    simp only [List.length_cons] at h1 h2
    refine ⟨by simpa using h2 0 (by omega), by omega, fun j hj => ?_⟩
    have := h2 (j + 1) (by omega)
    rw [← Nat.add_assoc, Nat.add_right_comm] at this
    simpa using this
  · rintro ⟨h1, h2, h3⟩
    simp only [HoldsBits, List.length_cons]
    refine ⟨by omega, fun j hj => ?_⟩
    cases j with
    | zero => simpa using h1
    | succ j =>
      have := h3 j (by omega)
      rw [← Nat.add_assoc, Nat.add_right_comm]
      simpa using this

theorem holdsBits_append {s : State} {p : Nat} {as bs : List Bit} :
    HoldsBits s p (as ++ bs) ↔ HoldsBits s p as ∧ HoldsBits s (p + as.length) bs := by
  induction as generalizing p with
  | nil =>
    constructor
    · intro h
      exact ⟨.nil (by have := h.1; omega), by simpa using h⟩
    · rintro ⟨-, h⟩; simpa using h
  | cons a as ih =>
    rw [List.cons_append, holdsBits_cons, ih, holdsBits_cons, List.length_cons, and_assoc,
      show p + (as.length + 1) = p + 1 + as.length by omega]

theorem HoldsBits.congr {s t : State} {p : Nat} {bs : List Bit} (h : HoldsBits s p bs) (h1 : t.src = s.src)
    (h2 : t.srcLen = s.srcLen) : HoldsBits t p bs := by
  unfold HoldsBits srcBitAt srcBits at *
  rw [h1, h2]
  exact h

theorem HoldsBits.lt {s : State} {p : Nat} {b : Bit} {bs : List Bit} (h : HoldsBits s p (b :: bs)) : p < srcBits s := by
  have := h.1
  rw [List.length_cons] at this
  omega

theorem srcBits_lt (s : State) : srcBits s < 2 ^ 67 := by have := s.srcLen.isLt; unfold srcBits; omega

/-- The bits of a whole byte. -/
theorem holdsBits_byte {s : State} {p : Nat} {v : Byte} (hp : p % 8 = 0) (h : p + 8 ≤ srcBits s) :
    HoldsBits s p (bitsOf 8 v.toNat) ↔ Table.get s.src (p / 8) = some v := by
  have key : ∀ j, j < 8 → srcBitAt s (p + j) = (Table.get s.src (p / 8)).map fun v => streamBit v j := by
    intro j hj
    unfold srcBitAt
    rw [show (p + j) / 8 = p / 8 by omega, show (p + j) % 8 = j by omega]
  constructor
  · rintro ⟨-, h2⟩
    rw [length_bitsOf] at h2
    have h0 := h2 0 (by omega)
    rw [key 0 (by omega)] at h0
    cases hg : Table.get s.src (p / 8) with
    | none => rw [hg, bitsOf_byte] at h0; simp at h0
    | some w =>
      congr 1
      apply byte_ext
      intro j hj
      have := h2 j hj
      rw [key j hj, hg, bitsOf_byte] at this
      simpa [hj] using this
  · intro hg
    refine ⟨by simpa using h, fun j hj => ?_⟩
    rw [length_bitsOf] at hj
    rw [key j hj, hg, bitsOf_byte]
    simp [hj]

/-- SRC holds the bits of the bytes placed in it. -/
theorem holdsBits_bytes {s : State} {p : Nat} (f : Nat → Byte) (n : Nat) (hp : p % 8 = 0) (h : p + 8 * n ≤ srcBits s)
    (hg : ∀ a, a < n → Table.get s.src (p / 8 + a) = some (f a)) :
    HoldsBits s p ((List.range n).flatMap fun a => bitsOf 8 (f a).toNat) := by
  induction n with
  | zero => exact .nil (by simpa using h)
  | succ n ih =>
    rw [List.range_succ, List.flatMap_append, holdsBits_append]
    have hl : ((List.range n).flatMap fun a => bitsOf 8 (f a).toNat).length = 8 * n := by
      simp [List.length_flatMap, Nat.mul_comm]
    refine ⟨ih (by omega) fun a ha => hg a (by omega), ?_⟩
    rw [hl]
    simp only [List.flatMap_cons, List.flatMap_nil, List.append_nil]
    rw [holdsBits_byte (by omega) (by omega), show (p + 8 * n) / 8 = p / 8 + n by omega]
    exact hg n (by omega)

/-! ### Operations -/

theorem bp_add {s : State} {k : Nat} (h : s.bp.toNat + k ≤ srcBits s) :
    (s.bp + BitVec.ofNat 67 k).toNat = s.bp.toNat + k := by
  have := srcBits_lt s
  rw [BitVec.toNat_add, BitVec.toNat_ofNat, Nat.mod_eq_of_lt (a := k) (by omega), Nat.mod_eq_of_lt (by omega)]

theorem exhausted_of_lt {s : State} (h : s.bp.toNat < srcBits s) : exhausted s = false := by
  unfold exhausted
  rw [beq_eq_false_iff_ne]
  omega

/-- BR_GET (R151). -/
theorem brGet_of_placed {s : State} {v : Byte} (h : s.bp.toNat < srcBits s)
    (hv : Table.get s.src (s.bp.toNat / 8) = some v) :
    brGet s = .ok (streamBit v (s.bp.toNat % 8)) { s with bp := s.bp + 1 } := by
  unfold brGet readSrc
  rw [if_pos (by unfold srcBits at h; omega), hv]
  rfl

/-- BR_GET (R151) on the bits that SRC holds. -/
theorem brGet_of_holds {s : State} {b : Bit} {bs : List Bit} (h : HoldsBits s s.bp.toNat (b :: bs)) :
    brGet s = .ok b { s with bp := s.bp + 1 } ∧ (s.bp + 1).toNat = s.bp.toNat + 1 := by
  have hlt := h.lt
  refine ⟨?_, bp_add (k := 1) hlt⟩
  have hb := (holdsBits_cons.1 h).1
  unfold srcBitAt at hb
  rw [Option.map_eq_some_iff] at hb
  obtain ⟨v, hv, rfl⟩ := hb
  exact brGet_of_placed hlt hv

theorem shift_in (a : Nat) (b : Bit) :
    ((BitVec.ofNat 64 a <<< 1) ||| (BitVec.ofBool b).setWidth 64) = BitVec.ofNat 64 (2 * a + b.toNat) := by
  apply BitVec.eq_of_getLsbD_eq
  intro i hi
  have hb : b.toNat < 2 ^ 1 := by cases b <;> simp
  have h2 : (2 * a + b.toNat).testBit i = if i < 1 then b.toNat.testBit i else a.testBit (i - 1) := by
    simpa using Nat.testBit_two_pow_mul_add (i := 1) a hb i
  simp only [BitVec.getLsbD_or, BitVec.getLsbD_shiftLeft, BitVec.getLsbD_setWidth, BitVec.getLsbD_ofNat, h2]
  rcases i with _ | i
  · cases b <;> simp [BitVec.getLsbD]
  · simp [hi, show i < 64 by omega]

/-- The loop of BR_GETN (R152) on the bits that SRC holds. -/
theorem getLoop_of_holds {s : State} (bs : List Bit) (a : Nat) (h : HoldsBits s s.bp.toNat bs) :
    getLoop bs.length (BitVec.ofNat 64 a) s =
      .ok (BitVec.ofNat 64 (natOfFrom a bs)) { s with bp := s.bp + BitVec.ofNat 67 bs.length } := by
  induction bs generalizing s a with
  | nil =>
    show Res.ok (BitVec.ofNat 64 a) s = Res.ok (BitVec.ofNat 64 a) { s with bp := s.bp + 0#67 }
    rw [BitVec.add_zero]
  | cons b bs ih =>
    obtain ⟨hg, hbp⟩ := brGet_of_holds h
    have h1 : HoldsBits { s with bp := s.bp + 1 } (s.bp + 1).toNat bs := by
      rw [hbp]; exact (holdsBits_cons.1 h).2
    show (brGet s).andThen _ = _
    rw [hg, Res.andThen_ok, shift_in, ih _ h1]
    simp only [natOfFrom, List.length_cons, BitVec.add_assoc]
    congr 4
    rw [show (1 : BitVec 67) = BitVec.ofNat 67 1 from rfl, ← BitVec.ofNat_add, Nat.add_comm]

/-- The loop of BR_GETN (R152) with fewer bits left than it asks for: it comes to a byte that does not exist (R41). -/
theorem getLoop_of_short {k : Nat} {s : State} (v : Word64) (h : srcBits s < s.bp.toNat + (k + 1))
    (hp : ∀ a, s.bp.toNat / 8 ≤ a → a < s.srcLen.toNat → (Table.get s.src a).isSome = true) :
    getLoop (k + 1) v s = .fault .srcOutOfRange := by
  induction k generalizing s v with
  | zero =>
    have hn : ¬ s.bp.toNat / 8 < s.srcLen.toNat := by unfold srcBits at h; omega
    simp only [getLoop, brGet, readSrc, if_neg hn, Res.andThen_fault]
  | succ k ih =>
    by_cases hlt : s.bp.toNat < srcBits s
    · obtain ⟨b, hb⟩ := Option.isSome_iff_exists.1 (hp _ (le_refl _) (by unfold srcBits at hlt; omega))
      have h1 : (s.bp + 1).toNat = s.bp.toNat + 1 := bp_add (k := 1) hlt
      rw [getLoop, brGet_of_placed hlt hb, Res.andThen_ok]
      exact ih (s := { s with bp := s.bp + 1 }) _ (by show srcBits s < (s.bp + 1).toNat + _; omega)
        fun a ha => hp a (by have : (s.bp + 1).toNat / 8 ≤ a := ha; omega)
    · have hn : ¬ s.bp.toNat / 8 < s.srcLen.toNat := by unfold srcBits at hlt; omega
      simp only [getLoop, brGet, readSrc, if_neg hn, Res.andThen_fault]

/-- BR_GETN (R152) on the bits that SRC holds. -/
theorem brGetn_of_holds {s : State} (bs : List Bit) (h : HoldsBits s s.bp.toNat bs) :
    brGetn bs.length s = .ok (BitVec.ofNat 64 (natOf bs)) { s with bp := s.bp + BitVec.ofNat 67 bs.length } ∧
      (s.bp + BitVec.ofNat 67 bs.length).toNat = s.bp.toNat + bs.length :=
  ⟨getLoop_of_holds bs 0 h, bp_add h.1⟩

/-- BR_GETBYTE (R154). -/
theorem brGetbyte_of_placed {s : State} {v : Byte} (h : s.bp.toNat + 8 ≤ srcBits s)
    (hv : Table.get s.src (s.bp.toNat / 8) = some v) :
    brGetbyte s = .ok v { s with bp := s.bp + 8 } ∧ (s.bp + 8).toNat = s.bp.toNat + 8 := by
  refine ⟨?_, bp_add (k := 8) h⟩
  unfold brGetbyte readSrc
  rw [if_neg (by simpa [fewerThan] using h), if_pos (by unfold srcBits at h; omega), hv]
  rfl

/-- BR_ALIGN (R153). -/
theorem alignUp_toNat {bp : BitVec 67} (h : bp.toNat + 7 < 2 ^ 67) : (alignUp bp).toNat = 8 * ((bp.toNat + 7) / 8) := by
  unfold alignUp
  rw [BitVec.toNat_ofNat, Nat.mod_eq_of_lt (by omega)]

theorem alignUp_toNat_of_le {s : State} (h : s.bp.toNat ≤ srcBits s) :
    (alignUp s.bp).toNat = 8 * ((s.bp.toNat + 7) / 8) := by
  apply alignUp_toNat
  have := s.srcLen.isLt
  unfold srcBits at h
  omega

/-- A value of 8 bits read by BR_GETN, as a byte. -/
theorem setWidth_natOf_bitsOf (v : Byte) : (BitVec.ofNat 64 (natOf (bitsOf 8 v.toNat))).setWidth 8 = v := by
  rw [natOf_bitsOf v.isLt]
  apply BitVec.eq_of_toNat_eq
  have := v.isLt
  simp

end Sys2Proof.Machine
end

