-- ==== Sys2Proof/Laws/TreeField.lean ====
section
/-!
SUPPORT. Serialization and deserialization: ser_node and des_node on an abstract tree (R108, R110 to R113).
-/

namespace Sys2Proof.Machine

/-! ### Serialization -/

/-- ser_node puts the bits of its node's tree (R108). -/
theorem serNode_of_tree {x : HTree} {d i : Nat} {s : State} (h : IsTree s.node i x) (hd : x.depth < d)
    (hr : RoomFor s x.bits.length) : ∃ t, serNode d i s = .ok () t ∧ Appends s x.bits t := by
  induction x generalizing d i s with
  | leaf sym =>
    obtain ⟨hi, f, hf⟩ := h
    cases d with
    | zero => simp at hd
    | succ d =>
      simp only [HTree.bits, List.length_cons, length_bitsOf] at hr ⊢
      obtain ⟨t, ht, hat⟩ := bwPut_of_room markLeaf (hr.mono (by omega))
      obtain ⟨u, hu, hau⟩ := putBits_of_room (s := t) (bitsOf 8 sym.toNat) (hat.roomFor (by simpa using hr))
      refine ⟨u, ?_, hat.trans hau⟩
      simp only [serNode, readNode_of_get hi hf, Res.andThen_ok, ht, hu]
  | node a b iha ihb =>
    obtain ⟨hi, f, l, r, hf, hl, hrt⟩ := h
    cases d with
    | zero => simp at hd
    | succ d =>
      simp only [HTree.depth] at hd
      simp only [HTree.bits, List.length_cons, List.length_append] at hr ⊢
      obtain ⟨t, ht, hat⟩ := bwPut_of_room markInternal (hr.mono (by omega))
      have hrt' : RoomFor t (a.bits.length + b.bits.length) := hat.roomFor (hr.mono (by simp; omega))
      obtain ⟨u, hu, hau⟩ := iha (s := t) (d := d) (i := l.toNat) (by rw [hat.same]; exact hl) (by omega)
        (hrt'.mono (by omega))
      obtain ⟨v, hv, hav⟩ := ihb (s := u) (d := d) (i := r.toNat) (by rw [hau.same, hat.same]; exact hrt) (by omega)
        (hau.roomFor hrt')
      refine ⟨v, ?_, hat.trans (hau.trans hav)⟩
      simp only [serNode, readNode_of_get hi hf, Res.andThen_ok, ht, hu, hv]

/-- The whole of TB_SER (R107). -/
theorem tbSer_of_root {s : State} {T : Option HTree} (h : RootIs s T) (hd : ∀ x, T = some x → x.depth < pathBound)
    (hr : RoomFor s (treeField T).length) : ∃ t, tbSer s = .ok () t ∧ Appends s (treeField T) t := by
  unfold tbSer
  cases T with
  | none =>
    rw [if_pos (show s.root = NIL from h)]
    exact bwPut_of_room treeEmpty hr
  | some x =>
    simp only [treeField, List.length_cons] at hr ⊢
    obtain ⟨t, ht, hat⟩ := bwPut_of_room treePresent (hr.mono (by omega))
    have hrt : RoomFor t x.bits.length := hat.roomFor (hr.mono (by simp; omega))
    have hnode : t.node = s.node := by rw [hat.same]
    have hroot : t.root = s.root := by rw [hat.same]
    cases x with
    | leaf sym =>
      obtain ⟨h1, f, l, hf, hl⟩ := h
      have hlt : s.root.toNat < 511 := by
        have := s.root.isLt
        have : s.root.toNat ≠ 511 := fun he => h1 (BitVec.eq_of_toNat_eq he)
        omega
      rw [if_neg h1]
      obtain ⟨u, hu, hau⟩ := serNode_of_tree (s := t) (d := pathBound) (by rw [hnode]; exact hl)
        (by simp [HTree.depth, pathBound]) hrt
      refine ⟨u, ?_, hat.trans hau⟩
      rw [ht, Res.andThen_ok, hroot, readNode_of_get hlt (by rw [hnode]; exact hf), Res.andThen_ok]
      simpa using hu
    | node a b =>
      have hlt := IsTree.lt h
      obtain ⟨_, f, l, r, hf, hl, hrr⟩ := id h
      rw [if_neg (ne_NIL_of_lt hlt)]
      obtain ⟨u, hu, hau⟩ := serNode_of_tree (s := t) (d := pathBound) (by rw [hnode]; exact h) (hd _ rfl) hrt
      refine ⟨u, ?_, hat.trans hau⟩
      rw [ht, Res.andThen_ok, hroot, readNode_of_get hlt (by rw [hnode]; exact hf), Res.andThen_ok]
      simp only [readChild_internal, Res.andThen_ok, if_true, if_neg (ne_NIL_of_lt hrr.lt)]
      rw [hroot, hu]

/-! ### Deserialization -/

theorem allocNode_of_lt {s : State} (h : s.nalloc.toNat < 511) :
    allocNode s = .ok s.nalloc.toNat { s with nalloc := s.nalloc + 1 } ∧ (s.nalloc + 1).toNat = s.nalloc.toNat + 1 := by
  refine ⟨?_, toNat_add_one_of_lt h (by decide)⟩
  unfold allocNode
  rw [if_neg (by omega)]

theorem brGet_exists {s : State} {b : Bit} {bs : List Bit} (h : HoldsBits s s.bp.toNat (b :: bs)) :
    ∃ t, brGet s = .ok b t ∧ t.bp.toNat = s.bp.toNat + 1 ∧ t = { s with bp := t.bp } :=
  ⟨_, (brGet_of_holds h).1, (brGet_of_holds h).2, rfl⟩

theorem brGetn_exists {s : State} {bs : List Bit} (h : HoldsBits s s.bp.toNat bs) :
    ∃ t, brGetn bs.length s = .ok (BitVec.ofNat 64 (natOf bs)) t ∧ t.bp.toNat = s.bp.toNat + bs.length ∧
      t = { s with bp := t.bp } :=
  ⟨_, (brGetn_of_holds bs h).1, (brGetn_of_holds bs h).2, rfl⟩

theorem allocNode_exists {s : State} (h : s.nalloc.toNat < 511) :
    ∃ t, allocNode s = .ok s.nalloc.toNat t ∧ t.nalloc.toNat = s.nalloc.toNat + 1 ∧ t = { s with nalloc := t.nalloc } :=
  ⟨_, (allocNode_of_lt h).1, (allocNode_of_lt h).2, rfl⟩

theorem writeNode_exists {s : State} {i : Nat} (e : NodeEntry) (h : i < 511) :
    ∃ t, writeNode i e s = .ok () t ∧ Table.get t.node i = some e ∧
      (∀ j, j ≠ i → Table.get t.node j = Table.get s.node j) ∧ t = { s with node := t.node } :=
  ⟨_, writeNode_of_lt e h, Table.get_set_self .., fun _ hj => Table.get_set_ne _ _ hj, rfl⟩

theorem fewerThan_eq_false {s : State} {k : Nat} (h : s.bp.toNat + k ≤ srcBits s) : fewerThan k s = false := by
  unfold fewerThan
  rw [decide_eq_false_iff_not]
  omega

/-- The marker of a node, read after its entry has been allocated (R110). -/
theorem desNode_marker {s : State} {b : Bit} {bs : List Bit} (h : HoldsBits s s.bp.toNat (b :: bs))
    (hn : s.nalloc.toNat < 511) :
    ∃ t u, allocNode s = .ok s.nalloc.toNat t ∧ exhausted t = false ∧ brGet t = .ok b u ∧
      u.bp.toNat = s.bp.toNat + 1 ∧ u.nalloc.toNat = s.nalloc.toNat + 1 ∧
      u = { s with nalloc := u.nalloc, bp := u.bp } := by
  obtain ⟨t, ht, htn, hts⟩ := allocNode_exists hn
  have hbp : t.bp = s.bp := by rw [hts]
  have hh : HoldsBits t t.bp.toNat (b :: bs) := by rw [hbp]; exact h.congr (by rw [hts]) (by rw [hts])
  obtain ⟨u, hu, hub, hus⟩ := brGet_exists hh
  refine ⟨t, u, ht, exhausted_of_lt hh.lt, hu, by rw [hub, hbp], ?_, ?_⟩
  · rw [hus]; exact htn
  · rw [hus, hts]

/-- des_node on the bits of a Leaf (R110). -/
theorem desNode_of_leaf {sym : Byte} {s : State} (d : Nat) (h : HoldsBits s s.bp.toNat (HTree.leaf sym).bits)
    (hn : s.nalloc.toNat < 511) :
    ∃ t, desNode (d + 1) s = .ok s.nalloc.toNat t ∧ Table.get t.node s.nalloc.toNat = some (.leaf sym 0) ∧
      (∀ i, i ≠ s.nalloc.toNat → Table.get t.node i = Table.get s.node i) ∧
      t.nalloc.toNat = s.nalloc.toNat + 1 ∧ t.bp.toNat = s.bp.toNat + 9 ∧
      t = { s with nalloc := t.nalloc, node := t.node, bp := t.bp } := by
  simp only [HTree.bits] at h
  obtain ⟨t, u, ht, hte, hu, hub, hun, hus⟩ := desNode_marker h hn
  have h2 : HoldsBits u u.bp.toNat (bitsOf 8 sym.toNat) := by
    rw [hub]; exact (holdsBits_cons.1 h).2.congr (by rw [hus]) (by rw [hus])
  obtain ⟨v, hv, hvb, hvs⟩ := brGetn_exists h2
  have hf := h2.1
  rw [length_bitsOf] at hv hvb hf
  obtain ⟨w, hw, hwi, hwk, hws⟩ := writeNode_exists (s := v) (.leaf sym 0) hn
  have hwb : w.bp = v.bp := by rw [hws]
  have hwn : w.nalloc = u.nalloc := by rw [hws, hvs]
  refine ⟨w, ?_, hwi, fun i hi => ?_, by rw [hwn]; omega, by rw [hwb]; omega, by rw [hws, hvs, hus]⟩
  · simp only [desNode, ht, Res.andThen_ok, hte, Bool.false_eq_true, if_false, hu, if_true, fewerThan_eq_false hf, hv,
      setWidth_natOf_bitsOf, hw]
  · rw [hwk i hi, hvs, hus]

/-- des_node on the bits of a tree leaves that tree (R110, R112). -/
theorem desNode_of_holds {x : HTree} {d : Nat} {s : State} (h : HoldsBits s s.bp.toNat x.bits) (hd : x.depth < d)
    (hn : s.nalloc.toNat + x.size ≤ 511) :
    ∃ t, desNode d s = .ok s.nalloc.toNat t ∧ TreeIn t.node s.nalloc.toNat t.nalloc.toNat s.nalloc.toNat x ∧
      t.bp.toNat = s.bp.toNat + x.bits.length ∧ t.nalloc.toNat = s.nalloc.toNat + x.size ∧
      (∀ i, i < s.nalloc.toNat ∨ s.nalloc.toNat + x.size ≤ i → Table.get t.node i = Table.get s.node i) ∧
      t = { s with nalloc := t.nalloc, node := t.node, bp := t.bp } ∧
      ∀ i, s.nalloc.toNat ≤ i → i < t.nalloc.toNat → nodeFreq t i = 0 := by
  induction x generalizing d s with
  | leaf sym =>
    cases d with
    | zero => simp at hd
    | succ d =>
      simp only [HTree.size] at hn ⊢
      obtain ⟨t, ht, hti, htk, htn, htb, hts⟩ := desNode_of_leaf d h (by omega)
      exact ⟨t, ht, ⟨le_refl _, by omega, 0, hti⟩, by simpa [HTree.bits] using htb, htn, fun i hi => htk i (by omega), hts,
        fun i h1 h2 => by
          have : i = s.nalloc.toNat := by omega
          subst this
          simp [nodeFreq, hti, NodeEntry.freq]⟩
  | node a b iha ihb =>
    cases d with
    | zero => simp at hd
    | succ d =>
      simp only [HTree.depth] at hd
      simp only [HTree.bits, HTree.size, List.length_cons, List.length_append] at h hn ⊢
      obtain ⟨t, u, ht, hte, hu, hub, hun, hus⟩ := desNode_marker h (by omega)
      obtain ⟨hl, hr⟩ := holdsBits_append.1 (holdsBits_cons.1 h).2
      obtain ⟨v, hv, hvt, hvb, hvn, hvk, hvs, hvf⟩ := iha (d := d) (s := u)
        (by rw [hub]; exact hl.congr (by rw [hus]) (by rw [hus])) (by omega) (by omega)
      obtain ⟨w, hw, hwt, hwb, hwn, hwk, hws, hwf⟩ := ihb (d := d) (s := v)
        (by rw [hvb, hub]; exact hr.congr (by rw [hvs, hus]) (by rw [hvs, hus])) (by omega) (by omega)
      obtain ⟨z, hz, hzi, hzk, hzs⟩ := writeNode_exists (s := w)
        (.internal 0 (BitVec.ofNat 9 u.nalloc.toNat) (BitVec.ofNat 9 v.nalloc.toNat)) (show s.nalloc.toNat < 511 by omega)
      have hzb : z.bp = w.bp := by rw [hzs]
      have hzn : z.nalloc = w.nalloc := by rw [hzs]
      refine ⟨z, ?_, ⟨le_refl _, by rw [hzn]; omega, 0, _, _, hzi, ?_, ?_⟩, by rw [hzb]; omega, by rw [hzn]; omega,
        fun i hi => ?_, ?_, fun i h1 h2 => ?_⟩
      · simp only [desNode, ht, Res.andThen_ok, hte, Bool.false_eq_true, if_false, hu, markInternal, markLeaf, hv, hw, hz]
      · rw [toNat_ofNat_of_lt (by omega)]
        refine TreeIn.mono (hvt.congr fun j h1 h2 => ?_) (by omega) (by rw [hzn]; omega)
        rw [hzk j (by omega), hwk j (by omega)]
      · rw [toNat_ofNat_of_lt (by omega)]
        refine TreeIn.mono (hwt.congr fun j h1 h2 => ?_) (by omega) (by rw [hzn])
        exact hzk j (by omega)
      · rw [hzk i (by omega), hwk i (by omega), hvk i (by omega), hus]
      · rw [hzs, hws, hvs, hus]
      · rw [hzn] at h2
        have hk : ∀ {p q : State}, Table.get p.node i = Table.get q.node i → nodeFreq p i = nodeFreq q i := fun e => by
          unfold nodeFreq; rw [e]
        by_cases h0 : i = s.nalloc.toNat
        · subst h0
          simp [nodeFreq, hzi, NodeEntry.freq]
        · rw [hk (hzk i h0)]
          by_cases h3 : i < v.nalloc.toNat
          · rw [hk (hwk i (by omega))]
            exact hvf i (by omega) h3
          · exact hwf i (by omega) h2

/-- des_node on Internal markers until every entry is allocated (R111, R221 M3). -/
theorem desNode_of_full {k d : Nat} {s : State} (h : HoldsBits s s.bp.toNat (List.replicate k false)) (hd : k < d)
    (hn : s.nalloc.toNat + k = 511) :
    ∃ u : State, desNode d s = .raised (u.raised .malformedContainer) ∧ u.nalloc = 511 ∧
      u = { s with nalloc := u.nalloc, node := u.node, bp := u.bp } := by
  induction k generalizing d s with
  | zero =>
    cases d with
    | zero => simp at hd
    | succ d =>
      refine ⟨s, ?_, BitVec.eq_of_toNat_eq hn, rfl⟩
      simp only [desNode, allocNode, if_pos (show 511 ≤ s.nalloc.toNat by omega)]
      rfl
  | succ k ih =>
    cases d with
    | zero => simp at hd
    | succ d =>
      rw [List.replicate_succ] at h
      obtain ⟨t, u, ht, hte, hu, hub, hun, hus⟩ := desNode_marker h (by omega)
      obtain ⟨w, hw, hwn, hws⟩ := ih (d := d) (s := u)
        (by rw [hub]; exact (holdsBits_cons.1 h).2.congr (by rw [hus]) (by rw [hus])) (by omega) (by omega)
      refine ⟨w, ?_, hwn, by rw [hws, hus]⟩
      simp only [desNode, ht, Res.andThen_ok, hte, Bool.false_eq_true, if_false, hu, markLeaf, hw, Res.andThen_raised]

/-- des_node on a tree of more nodes than entries are left (R111, R221 M3). -/
theorem desNode_of_large {x : HTree} {d : Nat} {s : State} (h : HoldsBits s s.bp.toNat x.bits)
    (hd : 511 < d + s.nalloc.toNat) (hs : s.nalloc.toNat ≤ 511) (hn : 511 < s.nalloc.toNat + x.size) :
    ∃ u : State, desNode d s = .raised (u.raised .malformedContainer) ∧ u.nalloc = 511 ∧
      u = { s with nalloc := u.nalloc, node := u.node, bp := u.bp } := by
  induction x generalizing d s with
  | leaf sym => exact desNode_of_full (k := 0) ⟨by have := h.1; simp; omega, by simp⟩ (by omega) (by simp only [HTree.size] at hn; omega)
  | node a b iha ihb =>
    by_cases h511 : s.nalloc.toNat = 511
    · exact desNode_of_full (k := 0) ⟨by have := h.1; simp; omega, by simp⟩ (by omega) (by omega)
    · cases d with
      | zero => omega
      | succ d =>
        simp only [HTree.bits, HTree.size] at h hn
        obtain ⟨t, u, ht, hte, hu, hub, hun, hus⟩ := desNode_marker h (by omega)
        obtain ⟨hl, hr⟩ := holdsBits_append.1 (holdsBits_cons.1 h).2
        have hl : HoldsBits u u.bp.toNat a.bits := by rw [hub]; exact hl.congr (by rw [hus]) (by rw [hus])
        by_cases ha : 511 < u.nalloc.toNat + a.size
        · obtain ⟨w, hw, hwn, hws⟩ := iha (d := d) hl (by omega) (by omega) ha
          refine ⟨w, ?_, hwn, by rw [hws, hus]⟩
          simp only [desNode, ht, Res.andThen_ok, hte, Bool.false_eq_true, if_false, hu, markInternal, markLeaf, hw,
            Res.andThen_raised]
        · have hda : a.depth < d := by have := a.depth_lt; have := a.size_eq; omega
          obtain ⟨v, hv, -, hvb, hvn, -, hvs, -⟩ := desNode_of_holds (d := d) hl hda (by omega)
          obtain ⟨w, hw, hwn, hws⟩ := ihb (d := d) (s := v)
            (by rw [hvb, hub]; exact hr.congr (by rw [hvs, hus]) (by rw [hvs, hus])) (by omega) (by omega) (by omega)
          refine ⟨w, ?_, hwn, by rw [hws, hvs, hus]⟩
          simp only [desNode, ht, Res.andThen_ok, hte, Bool.false_eq_true, if_false, hu, markInternal, markLeaf, hv, hw,
            Res.andThen_raised]

/-- des_node where SRC ends before the bits of a tree are complete, whether the entries last for the tree or not (R221 M1, M2, M3). -/
theorem desNode_of_short {x : HTree} {d : Nat} {s : State} {p q : List Bit} (hpq : x.bits = p ++ q) (hq : q ≠ [])
    (h : HoldsBits s s.bp.toNat p) (he : srcBits s = s.bp.toNat + p.length)
    (hd : 511 < d + s.nalloc.toNat) (hn : s.nalloc.toNat ≤ 511) :
    ∃ u : State, desNode d s = .raised (u.raised .malformedContainer) ∧
      u = { s with nalloc := u.nalloc, node := u.node, bp := u.bp } := by
  have hfull : ∀ {d : Nat} {s : State} {p : List Bit}, HoldsBits s s.bp.toNat p → 511 < d + s.nalloc.toNat →
      s.nalloc.toNat = 511 → ∃ u : State, desNode d s = .raised (u.raised .malformedContainer) ∧
        u = { s with nalloc := u.nalloc, node := u.node, bp := u.bp } := by
    intro d s p h hd hn
    obtain ⟨u, hu, -, hus⟩ := desNode_of_full (k := 0) (d := d) (s := s) ⟨by have := h.1; simp; omega, by simp⟩ (by omega) (by omega)
    exact ⟨u, hu, hus⟩
  have hempty : ∀ {d : Nat} {s : State}, srcBits s = s.bp.toNat → s.nalloc.toNat < 511 →
      ∃ u : State, desNode (d + 1) s = .raised (u.raised .malformedContainer) ∧
        u = { s with nalloc := u.nalloc, node := u.node, bp := u.bp } := by
    intro d s he hn
    obtain ⟨t, ht, -, hts⟩ := allocNode_exists hn
    have hx : exhausted t = true := by
      unfold exhausted
      rw [beq_iff_eq, hts]
      exact he.symm
    exact ⟨t, by simp only [desNode, ht, Res.andThen_ok, hx, if_true]; rfl, by rw [hts]⟩
  induction x generalizing d s p q with
  | leaf sym =>
    by_cases h511 : s.nalloc.toNat = 511
    · exact hfull h hd h511
    cases d with
    | zero => omega
    | succ d =>
      cases p with
      | nil => exact hempty (by simpa using he) (by omega)
      | cons b p =>
        simp only [HTree.bits, List.cons_append, List.cons.injEq] at hpq
        obtain ⟨rfl, hpq⟩ := hpq
        obtain ⟨t, u, ht, hte, hu, hub, hun, hus⟩ := desNode_marker h (by omega)
        have hlen := congrArg List.length hpq
        rw [length_bitsOf, List.length_append] at hlen
        have hq1 : 0 < q.length := List.length_pos_iff.2 hq
        have hf : fewerThan 8 u = true := by
          unfold fewerThan
          rw [decide_eq_true_iff, hub, show srcBits u = srcBits s by rw [hus]; rfl, he, List.length_cons]
          omega
        refine ⟨u, ?_, by rw [hus]⟩
        simp only [desNode, ht, Res.andThen_ok, hte, Bool.false_eq_true, if_false, hu, if_true, hf]
        rfl
  | node a b iha ihb =>
    by_cases h511 : s.nalloc.toNat = 511
    · exact hfull h hd h511
    cases d with
    | zero => omega
    | succ d =>
      cases p with
      | nil => exact hempty (by simpa using he) (by omega)
      | cons c p =>
        simp only [HTree.bits, List.cons_append, List.cons.injEq] at hpq
        obtain ⟨rfl, hpq⟩ := hpq
        obtain ⟨t, u, ht, hte, hu, hub, hun, hus⟩ := desNode_marker h (by omega)
        have hsu : srcBits u = srcBits s := by rw [hus]; rfl
        have hp : HoldsBits u u.bp.toNat p := by
          rw [hub]; exact (holdsBits_cons.1 h).2.congr (by rw [hus]) (by rw [hus])
        rw [List.length_cons] at he
        have second : ∀ m, p = a.bits ++ m → b.bits = m ++ q → ∃ u' : State, desNode (d + 1) s =
            .raised (u'.raised .malformedContainer) ∧
            u' = { s with nalloc := u'.nalloc, node := u'.node, bp := u'.bp } := by
          rintro m rfl hm
          obtain ⟨h1, h2⟩ := holdsBits_append.1 hp
          rw [List.length_append] at he
          by_cases ha : 511 < u.nalloc.toNat + a.size
          · obtain ⟨w, hw, -, hws⟩ := desNode_of_large (d := d) h1 (by omega) (by omega) ha
            refine ⟨w, ?_, by rw [hws, hus]⟩
            simp only [desNode, ht, Res.andThen_ok, hte, Bool.false_eq_true, if_false, hu, markInternal, markLeaf, hw,
              Res.andThen_raised]
          have hda : a.depth < d := by have := a.depth_lt; have := a.size_eq; omega
          obtain ⟨v, hv, -, hvb, hvn, -, hvs, -⟩ := desNode_of_holds (d := d) h1 hda (by omega)
          obtain ⟨w, hw, hws⟩ := ihb (d := d) (s := v) hm hq
            (by rw [hvb]; exact h2.congr (by rw [hvs]) (by rw [hvs]))
            (by rw [show srcBits v = srcBits u by rw [hvs]; rfl]; omega) (by omega) (by omega)
          refine ⟨w, ?_, by rw [hws, hvs, hus]⟩
          simp only [desNode, ht, Res.andThen_ok, hte, Bool.false_eq_true, if_false, hu, markInternal, markLeaf, hv, hw,
            Res.andThen_raised]
        rcases List.append_eq_append_iff.1 hpq with ⟨m, h1, h2⟩ | ⟨m, h1, h2⟩
        · exact second m h1 h2
        · by_cases hm : m = []
          · subst hm
            exact second [] (by simpa using h1.symm) (by simpa using h2.symm)
          · obtain ⟨w, hw, hws⟩ := iha (d := d) (s := u) h1 hm hp (by omega) (by omega) (by omega)
            refine ⟨w, ?_, by rw [hws, hus]⟩
            simp only [desNode, ht, Res.andThen_ok, hte, Bool.false_eq_true, if_false, hu, markInternal, markLeaf, hw,
              Res.andThen_raised]

/-- TB_DES on a tree field leaves the tree (R109, R112). -/
theorem tbDes_of_holds {s : State} {T : Option HTree} (h : HoldsBits s s.bp.toNat (treeField T))
    (hs : ∀ x, T = some x → x.size ≤ 511) :
    ∃ t, tbDes s = .ok () t ∧ RootIs t T ∧ t.bp.toNat = s.bp.toNat + (treeField T).length ∧
      t = { s with n := 0, nint := 0, nalloc := t.nalloc, root := t.root, node := t.node, bp := t.bp } ∧
      ∀ i, i < t.nalloc.toNat → nodeFreq t i = 0 := by
  have h0 : ∀ {bs : List Bit}, HoldsBits s s.bp.toNat bs →
      HoldsBits { s with nalloc := 0, n := 0, nint := 0, root := NIL } s.bp.toNat bs := fun h => h.congr rfl rfl
  have hex : ∀ {b : Bit} {bs : List Bit}, HoldsBits s s.bp.toNat (b :: bs) →
      exhausted { s with nalloc := 0, n := 0, nint := 0, root := NIL } = false := fun h => exhausted_of_lt (h0 h).lt
  cases T with
  | none =>
    obtain ⟨t, ht, htb, hts⟩ := brGet_exists (h0 h)
    refine ⟨{ t with root := NIL }, ?_, rfl, htb, ?_, fun i hi => ?_⟩
    · simp only [tbDes, hex h, Bool.false_eq_true, if_false, ht, Res.andThen_ok, treeEmpty, treePresent]
    · rw [hts]
    · have hi : i < t.nalloc.toNat := hi
      rw [hts] at hi
      exact absurd hi (Nat.not_lt_zero _)
  | some x =>
    simp only [treeField] at h
    obtain ⟨t, ht, htb, hts⟩ := brGet_exists (h0 h)
    have hx : HoldsBits t t.bp.toNat x.bits := by
      rw [htb]; exact (holdsBits_cons.1 h).2.congr (by rw [hts]) (by rw [hts])
    have htn : t.nalloc.toNat = 0 := by rw [hts]; rfl
    have hsz := hs x rfl
    have hdp := x.depth_lt_size
    obtain ⟨u, hu, hut, hub, hun, huk, hus, huf⟩ := desNode_of_holds (d := desBound) hx (by unfold desBound; omega)
      (by omega)
    rw [htn] at hu hut
    have hlen : (treeField (some x)).length = x.bits.length + 1 := by simp [treeField]
    cases x with
    | leaf sym =>
      obtain ⟨-, -, f, hf⟩ := hut
      simp only [HTree.size] at hun hsz
      obtain ⟨v, hv, hvi, hvk, hvs⟩ := writeNode_exists (s := u) (i := u.nalloc.toNat)
        (.internal 0 (BitVec.ofNat 9 0) NIL) (by omega)
      refine ⟨{ v with nalloc := v.nalloc + 1, root := BitVec.ofNat 9 u.nalloc.toNat }, ?_, ⟨?_, 0, 0#9, ?_, ?_⟩, ?_, ?_,
        fun i hi => ?_⟩
      · simp only [tbDes, hex h, Bool.false_eq_true, if_false, ht, Res.andThen_ok, if_true, hu,
          setParsedRoot, readNode_of_get (show 0 < 511 by omega) hf, hv]
      · exact ne_NIL_of_lt (by rw [toNat_ofNat_of_lt (by omega)]; omega)
      · show Table.get v.node (BitVec.ofNat 9 u.nalloc.toNat).toNat = _
        rw [toNat_ofNat_of_lt (by omega)]
        exact hvi
      · refine ⟨by decide, f, ?_⟩
        show Table.get v.node 0 = _
        rw [hvk 0 (by omega), hf]
      · show v.bp.toNat = _
        rw [hvs, hlen]
        show u.bp.toNat = _
        rw [hub, htb]
        show s.bp.toNat + 1 + _ = _
        omega
      · rw [hvs, hus, hts]
      · have hi : i < (v.nalloc + 1).toNat := hi
        have hvn : v.nalloc = u.nalloc := by rw [hvs]
        rw [hvn, toNat_add_one_of_lt (m := 1023) (by omega) (by decide)] at hi
        show ((Table.get v.node i).map _).getD 0 = 0
        by_cases h0 : i = u.nalloc.toNat
        · rw [h0, hvi]; rfl
        · rw [hvk i h0]; exact huf i (by omega) (by omega)
    | node a b =>
      obtain ⟨-, -, f, l, r, hf, -, -⟩ := id hut
      refine ⟨{ u with root := BitVec.ofNat 9 0 }, ?_, ?_, ?_, ?_, fun i hi => huf i (by omega) hi⟩
      · simp only [tbDes, hex h, Bool.false_eq_true, if_false, ht, Res.andThen_ok, if_true, hu,
          setParsedRoot, readNode_of_get (show 0 < 511 by omega) hf]
      · exact hut.isTree (by omega)
      · show u.bp.toNat = _
        rw [hub, htb, hlen]
        show s.bp.toNat + 1 + _ = _
        omega
      · rw [hus, hts]

/-- The inversion law (R112): what TB_SER packs for a tree is its tree field, and TB_DES on a stream that begins with those
bits consumes exactly them, raises nothing, and leaves the same tree with every frequency 0. -/
theorem tbDes_inverts_tbSer {s u : State} {T : Option HTree} (h : RootIs s T)
    (hd : ∀ x, T = some x → x.depth < pathBound ∧ x.size ≤ 511) (hr : RoomFor s (treeField T).length) :
    ∃ (t : State) (bs : List Bit), tbSer s = .ok () t ∧ packedBits t = packedBits s ++ bs ∧
      (HoldsBits u u.bp.toNat bs → ∃ v, tbDes u = .ok () v ∧ RootIs v T ∧ v.bp.toNat = u.bp.toNat + bs.length ∧
        ∀ i, i < v.nalloc.toNat → nodeFreq v i = 0) := by
  obtain ⟨t, ht, hat⟩ := tbSer_of_root h (fun x hx => (hd x hx).1) hr
  refine ⟨t, treeField T, ht, hat.bits, fun hb => ?_⟩
  obtain ⟨v, hv, hvr, hvb, -, hvf⟩ := tbDes_of_holds hb fun x hx => (hd x hx).2
  exact ⟨v, hv, hvr, hvb, hvf⟩

/-- TB_DES where the tree field asks for a 512th node: 511 Internal markers, or a tree of more than 511 nodes (R111, R221
M3). -/
theorem tbDes_of_large {s : State}
    (h : HoldsBits s s.bp.toNat (treePresent :: List.replicate 511 markInternal) ∨
      ∃ x : HTree, 511 < x.size ∧ HoldsBits s s.bp.toNat (treeField (some x))) :
    ∃ u : State, tbDes s = .raised (u.raised .malformedContainer) ∧
      u = { s with n := 0, nint := 0, nalloc := 511, root := NIL, node := u.node, bp := u.bp } := by
  have key : ∀ bs : List Bit, HoldsBits s s.bp.toNat (treePresent :: bs) →
      (∀ t : State, t.nalloc = 0 → HoldsBits t t.bp.toNat bs → ∃ u : State,
        desNode desBound t = .raised (u.raised .malformedContainer) ∧ u.nalloc = 511 ∧
        u = { t with nalloc := u.nalloc, node := u.node, bp := u.bp }) →
      ∃ u : State, tbDes s = .raised (u.raised .malformedContainer) ∧
        u = { s with n := 0, nint := 0, nalloc := 511, root := NIL, node := u.node, bp := u.bp } := by
    intro bs hb hd
    have h0 : HoldsBits { s with nalloc := 0, n := 0, nint := 0, root := NIL } s.bp.toNat (treePresent :: bs) :=
      hb.congr rfl rfl
    obtain ⟨t, ht, htb, hts⟩ := brGet_exists h0
    obtain ⟨u, hu, hun, hus⟩ := hd t (by rw [hts])
      (by rw [htb]; exact (holdsBits_cons.1 hb).2.congr (by rw [hts]) (by rw [hts]))
    have hex : exhausted { s with nalloc := 0, n := 0, nint := 0, root := NIL } = false := exhausted_of_lt h0.lt
    refine ⟨u, ?_, by rw [hus, hts]; simp only [hun]⟩
    simp only [tbDes, hex, Bool.false_eq_true, if_false, ht, Res.andThen_ok, treePresent, if_true, hu, Res.andThen_raised]
  rcases h with h | ⟨x, hx, h⟩
  · exact key _ h fun t ht hb => desNode_of_full hb (by decide) (by rw [ht]; rfl)
  · exact key _ h fun t ht hb => desNode_of_large hb (by rw [ht]; decide) (by rw [ht]; decide) (by rw [ht]; show 511 < 0 + _; omega)

/-- TB_DES where SRC ends before the tree field is complete (R221 M1, M2, M3). -/
theorem tbDes_of_short {s : State} {T : Option HTree} {p q : List Bit} (hpq : treeField T = p ++ q) (hq : q ≠ [])
    (h : HoldsBits s s.bp.toNat p) (he : srcBits s = s.bp.toNat + p.length) :
    ∃ u : State, tbDes s = .raised (u.raised .malformedContainer) ∧
      u = { s with n := 0, nint := 0, nalloc := u.nalloc, root := NIL, node := u.node, bp := u.bp } := by
  have h0 : HoldsBits { s with nalloc := 0, n := 0, nint := 0, root := NIL } s.bp.toNat p := h.congr rfl rfl
  cases p with
  | nil =>
    refine ⟨{ s with nalloc := 0, n := 0, nint := 0, root := NIL }, ?_, rfl⟩
    have hx : exhausted { s with nalloc := 0, n := 0, nint := 0, root := NIL } = true := by
      unfold exhausted
      rw [beq_iff_eq]
      exact he.symm
    simp only [tbDes, hx, if_true]
    rfl
  | cons c p =>
    cases T with
    | none =>
      simp only [treeField, List.cons_append, List.cons.injEq] at hpq
      exact absurd (by simpa using hpq.2.symm) (by simp [hq])
    | some x =>
      simp only [treeField, List.cons_append, List.cons.injEq] at hpq
      obtain ⟨rfl, hpq⟩ := hpq
      obtain ⟨t, ht, htb, hts⟩ := brGet_exists h0
      have hx : HoldsBits t t.bp.toNat p := by
        rw [htb]; exact (holdsBits_cons.1 h).2.congr (by rw [hts]) (by rw [hts])
      have htn : t.nalloc.toNat = 0 := by rw [hts]; rfl
      rw [List.length_cons] at he
      obtain ⟨u, hu, hus⟩ := desNode_of_short (d := desBound) hpq hq hx
        (by rw [htb, show srcBits t = srcBits s by rw [hts]; rfl]; show _ = s.bp.toNat + 1 + _; omega)
        (by rw [htn]; decide) (by omega)
      have hex : exhausted { s with nalloc := 0, n := 0, nint := 0, root := NIL } = false := exhausted_of_lt h0.lt
      refine ⟨u, ?_, by rw [hus, hts]⟩
      simp only [tbDes, hex, Bool.false_eq_true, if_false, ht, Res.andThen_ok, if_true, hu,
        Res.andThen_raised]

end Sys2Proof.Machine
end

