-- ==== Sys2Proof/Laws/Symbols.lean ====
section
/-!
SUPPORT. The symbol decoder on an abstract tree (R184, R185), its errors (R222, R223), and F_CODE beside it (R68).
-/

namespace Sys2Proof.Machine

/-! ### One bit -/

/-- One step down from an Internal node that holds a tree (R184). -/
theorem descendBit_of_tree {s : State} {a b : HTree} (c : Bit) (h : IsTree s.node s.dnode.toNat (.node a b)) :
    ∃ i : NodeIx, IsTree s.node i.toNat (if c then b else a) ∧
      descendBit c s = match (if c then b else a) with
        | .leaf sym => .ok (some sym) { s with dnode := i }
        | .node _ _ => .ok none { s with dnode := i, dstate := .descending } := by
  obtain ⟨hi, f, l, r, hf, hl, hr⟩ := h
  have hch : IsTree s.node (if c then r else l).toNat (if c then b else a) := by
    cases c
    · exact hl
    · exact hr
  refine ⟨if c then r else l, hch, ?_⟩
  simp only [descendBit, readNode_of_get hi hf, Res.andThen_ok, readChild_internal, if_neg (ne_NIL_of_lt hch.lt)]
  generalize hx : (if c = true then b else a) = x at hch ⊢
  cases x with
  | leaf sym =>
    obtain ⟨hj, g, hg⟩ := hch
    rw [readNode_of_get hj hg]
    rfl
  | node a b =>
    obtain ⟨hj, g, l', r', hg, -, -⟩ := hch
    rw [readNode_of_get hj hg]
    rfl

theorem consume_one {s : State} {b : Bit} {bs : List Bit} (e : ErrKind) (h : HoldsBits s s.bp.toNat (b :: bs)) :
    consume 1 e s = .ok () { s with bp := s.bp + 1 } := by
  unfold consume
  rw [fewerThan_eq_false (by have := h.lt; omega)]
  rfl

/-! ### One symbol -/

/-- The descent along the path of a Leaf ends with its symbol, read from SRC or given as the code's bits. -/
theorem symbolLoop_of_path {a b : HTree} {path : List Bit} {s : State} {k : Nat} {sym : Byte}
    (h : IsTree s.node s.dnode.toNat (.node a b)) (hp : (HTree.node a b).at path = some sym)
    (hb : HoldsBits s s.bp.toNat path) (hk : path.length ≤ k) :
    ∃ t, symbolLoop k s = emitSymbol sym t ∧ followCode path s = emitSymbol sym t ∧
      t.bp.toNat = s.bp.toNat + path.length ∧ (∃ f, Table.get s.node t.dnode.toNat = some (.leaf sym f)) ∧
      t = { s with bp := t.bp, dnode := t.dnode, dstate := t.dstate } := by
  induction path generalizing a b s k with
  | nil => simp [HTree.at] at hp
  | cons c path ih =>
    cases k with
    | zero => simp at hk
    | succ k =>
      obtain ⟨hg, hg1⟩ := brGet_of_holds hb
      have hx := exhausted_of_lt hb.lt
      have hat : (if c then b else a).at path = some sym := by
        simp only [HTree.at] at hp
        cases c <;> simpa using hp
      have hb' : HoldsBits { s with bp := s.bp + 1 } (s.bp + 1).toNat path := by
        rw [hg1]; exact (holdsBits_cons.1 hb).2.congr rfl rfl
      obtain ⟨i, hi, hd⟩ := descendBit_of_tree (s := { s with bp := s.bp + 1 }) c h
      have hloop : symbolLoop (k + 1) s = (descendBit c { s with bp := s.bp + 1 }).andThen fun m s =>
          match m with
          | some sym => emitSymbol sym s
          | none => symbolLoop k s := by
        simp only [symbolLoop, hx, Bool.false_eq_true, if_false, hg, Res.andThen_ok]
        all_goals rfl
      have hcode : followCode (c :: path) s = (descendBit c { s with bp := s.bp + 1 }).andThen fun m s =>
          match m with
          | some sym => if path = [] then emitSymbol sym s else .refused .notACode
          | none => followCode path s := by
        simp only [followCode, consume_one _ hb, Res.andThen_ok]
        all_goals rfl
      generalize hy : (if c = true then b else a) = y at hat hi hd
      cases y with
      | leaf z =>
        obtain ⟨-, f, hf⟩ := hi
        cases path with
        | nil =>
          simp only [HTree.at, Option.some.injEq] at hat
          subst hat
          refine ⟨{ s with bp := s.bp + 1, dnode := i }, ?_, ?_, hg1, ⟨f, hf⟩, rfl⟩
          · rw [hloop, hd]; rfl
          · rw [hcode, hd]; rfl
        | cons d path => simp [HTree.at] at hat
      | node u v =>
        obtain ⟨t, ht, htf, htb, hti, hts⟩ := ih (s := { s with bp := s.bp + 1, dnode := i, dstate := .descending })
          (k := k) hi hat hb' (by simp only [List.length_cons] at hk; omega)
        refine ⟨t, ?_, ?_, ?_, hti, ?_⟩
        · rw [hloop, hd]; exact ht
        · rw [hcode, hd]; exact htf
        · rw [htb, List.length_cons]
          show (s.bp + 1).toNat + _ = _
          rw [hg1]; omega
        · rw [hts]

/-- The descent where SRC ends before the path of a Leaf does (R222). -/
theorem symbolLoop_of_short {a b : HTree} {p q : List Bit} {s : State} {k : Nat} {sym : Byte}
    (h : IsTree s.node s.dnode.toNat (.node a b)) (hp : (HTree.node a b).at (p ++ q) = some sym) (hq : q ≠ [])
    (hb : HoldsBits s s.bp.toNat p) (he : srcBits s = s.bp.toNat + p.length) (hk : p.length < k) :
    ∃ t : State, symbolLoop k s = .raised (t.raised .truncatedBitstream) ∧
      (t.dstate = if p = [] then s.dstate else .descending) ∧ t.bp.toNat = s.bp.toNat + p.length ∧
      t = { s with bp := t.bp, dnode := t.dnode, dstate := t.dstate } := by
  induction p generalizing a b s k with
  | nil =>
    refine ⟨s, ?_, by simp, by simp, rfl⟩
    cases k with
    | zero => rfl
    | succ k =>
      have hx : exhausted s = true := by
        unfold exhausted
        rw [beq_iff_eq]
        simpa using he.symm
      simp only [symbolLoop, hx, if_true]
      rfl
  | cons c p ih =>
    cases k with
    | zero => simp at hk
    | succ k =>
      obtain ⟨hg, hg1⟩ := brGet_of_holds hb
      have hx := exhausted_of_lt hb.lt
      have hat : (if c then b else a).at (p ++ q) = some sym := by
        simp only [HTree.at, List.cons_append] at hp
        cases c <;> simpa using hp
      have hb' : HoldsBits { s with bp := s.bp + 1 } (s.bp + 1).toNat p := by
        rw [hg1]; exact (holdsBits_cons.1 hb).2.congr rfl rfl
      obtain ⟨i, hi, hd⟩ := descendBit_of_tree (s := { s with bp := s.bp + 1 }) c h
      have hloop : symbolLoop (k + 1) s = (descendBit c { s with bp := s.bp + 1 }).andThen fun m s =>
          match m with
          | some sym => emitSymbol sym s
          | none => symbolLoop k s := by
        simp only [symbolLoop, hx, Bool.false_eq_true, if_false, hg, Res.andThen_ok]
        all_goals rfl
      generalize hy : (if c = true then b else a) = y at hat hi hd
      cases y with
      | leaf z =>
        cases hpq : p ++ q with
        | nil => exact absurd (List.append_eq_nil_iff.1 hpq).2 hq
        | cons d r => rw [hpq] at hat; simp [HTree.at] at hat
      | node u v =>
        obtain ⟨t, ht, htd, htb, hts⟩ := ih (s := { s with bp := s.bp + 1, dnode := i, dstate := .descending })
          (k := k) hi hat hb' (by
            show srcBits s = (s.bp + 1).toNat + _
            rw [hg1, he, List.length_cons]; omega) (by simp only [List.length_cons] at hk; omega)
        refine ⟨t, ?_, ?_, ?_, ?_⟩
        · rw [hloop, hd]; exact ht
        · rw [htd]; simp
        · rw [htb, List.length_cons]
          show (s.bp + 1).toNat + _ = _
          rw [hg1]; omega
        · rw [hts]

theorem atRoot_holds {s : State} {p : Nat} {bs : List Bit} (h : HoldsBits s p bs) : HoldsBits (atRoot s) p bs :=
  h.congr rfl rfl

theorem atRoot_not_exhausted {s : State} {b : Bit} {bs : List Bit} (h : HoldsBits s s.bp.toNat (b :: bs)) :
    exhausted (atRoot s) = false := exhausted_of_lt h.lt

/-- The root of the N = 1 tree, one step down (R104, R223). -/
theorem descendBit_of_one {s : State} {sym : Byte} (c : Bit) (h : RootIs s (some (.leaf sym))) (hd : s.dnode = s.root) :
    ∃ i : NodeIx, (∃ f, Table.get s.node i.toNat = some (.leaf sym f)) ∧
      descendBit c s = if c then .raised (s.raised .unreachableSymbol) else .ok (some sym) { s with dnode := i } := by
  obtain ⟨h1, f, l, hf, hl, g, hg⟩ := h
  have hlt : s.root.toNat < 511 := by
    have := s.root.isLt
    have : s.root.toNat ≠ 511 := fun he => h1 (BitVec.eq_of_toNat_eq he)
    omega
  refine ⟨l, ⟨g, hg⟩, ?_⟩
  simp only [descendBit, hd, readNode_of_get hlt hf, Res.andThen_ok, readChild_internal]
  cases c with
  | true => rfl
  | false =>
    simp only [Bool.false_eq_true, if_false, if_neg (ne_NIL_of_lt hl), readNode_of_get hl hg, Res.andThen_ok]

/-- DEC_SYMBOL, and F_CODE, on the code of a symbol (R68, R184). -/
theorem decSymbol_of_code {s : State} {x : HTree} {path : List Bit} {sym : Byte} (h : RootIs s (some x))
    (hp : x.codeAt path = some sym) (hb : HoldsBits s s.bp.toNat path) :
    ∃ t, decSymbol s = emitSymbol sym t ∧ fCode path s = emitSymbol sym t ∧
      t.bp.toNat = s.bp.toNat + path.length ∧ (∃ f, Table.get s.node t.dnode.toNat = some (.leaf sym f)) ∧
      t = { s with bp := t.bp, dnode := t.dnode, dstate := t.dstate } := by
  have hk : path.length ≤ roundsLeft s := by have := hb.1; unfold roundsLeft; omega
  cases x with
  | leaf z =>
    simp only [HTree.codeAt] at hp
    split at hp
    · rename_i hpath
      subst hpath
      cases hp
      obtain ⟨hg, hg1⟩ := brGet_of_holds (atRoot_holds hb)
      obtain ⟨i, hi, hd⟩ := descendBit_of_one (s := { atRoot s with bp := (atRoot s).bp + 1 }) false h rfl
      simp only [List.length_singleton] at hk
      obtain ⟨k, hk'⟩ : ∃ k, roundsLeft s = k + 1 := ⟨roundsLeft s - 1, by omega⟩
      refine ⟨{ atRoot s with bp := (atRoot s).bp + 1, dnode := i }, ?_, ?_, hg1, hi, rfl⟩
      · unfold decSymbol
        rw [hk']
        simp only [symbolLoop, atRoot_not_exhausted hb, Bool.false_eq_true, if_false, hg, Res.andThen_ok, hd]
      · unfold fCode
        simp only [followCode, consume_one _ (atRoot_holds hb), Res.andThen_ok, hd, Bool.false_eq_true, if_false, if_true]
    · cases hp
  | node a b =>
    obtain ⟨t, ht, htf, htb, hti, hts⟩ := symbolLoop_of_path (s := atRoot s) (k := roundsLeft s) h hp (atRoot_holds hb) hk
    exact ⟨t, ht, htf, htb, hti, hts⟩

/-- The symbol emitted: one byte of DST (R184). -/
theorem emitSymbol_of_room {s : State} (sym : Byte) (h : RoomBytes s 1) :
    ∃ t, emitSymbol sym s = .ok () t ∧ Table.get t.dst s.dstLen.toNat = some sym ∧
      t.dstLen.toNat = s.dstLen.toNat + 1 ∧ DstOnlyAppended s t ∧
      t = { s with dst := t.dst, dstLen := t.dstLen, emitted := s.emitted + 1, dstate := .atRoot } := by
  obtain ⟨hp, hl⟩ := pushDst_of_room sym h
  refine ⟨{ s with
      dst := Table.set s.dst s.dstLen.toNat sym, dstLen := s.dstLen + 1, emitted := s.emitted + 1, dstate := .atRoot },
    ?_, Table.get_set_self .., hl, pushDst_below sym h, rfl⟩
  simp only [emitSymbol, hp, Res.andThen_ok]

/-- DEC_SYMBOL where SRC ends within a code (R222). -/
theorem decSymbol_of_short {s : State} {x : HTree} {p q : List Bit} {sym : Byte} (h : RootIs s (some x))
    (hp : x.codeAt (p ++ q) = some sym) (hq : q ≠ []) (hb : HoldsBits s s.bp.toNat p)
    (he : srcBits s = s.bp.toNat + p.length) :
    ∃ t : State, decSymbol s = .raised (t.raised .truncatedBitstream) ∧
      (t.dstate = if p = [] then .atRoot else .descending) ∧ t.bp.toNat = srcBits s ∧
      t = { s with bp := t.bp, dnode := t.dnode, dstate := t.dstate } := by
  obtain ⟨k, hk⟩ : ∃ k, roundsLeft s = k + 1 := ⟨srcBits s - s.bp.toNat, rfl⟩
  cases x with
  | leaf z =>
    have hpn : p = [] := by
      simp only [HTree.codeAt] at hp
      split at hp
      · rename_i h1
        cases p with
        | nil => rfl
        | cons c p =>
          simp only [List.cons_append, List.cons.injEq, List.append_eq_nil_iff] at h1
          exact absurd h1.2.2 hq
      · cases hp
    subst hpn
    refine ⟨atRoot s, ?_, by simp [atRoot], by rw [he]; simp [atRoot], rfl⟩
    have hx : exhausted (atRoot s) = true := by
      unfold exhausted
      rw [beq_iff_eq]
      exact he.symm
    unfold decSymbol
    rw [hk]
    simp only [symbolLoop, hx, if_true]
    rfl
  | node a b =>
    obtain ⟨t, ht, htd, htb, hts⟩ := symbolLoop_of_short (s := atRoot s) (k := roundsLeft s) h hp hq (atRoot_holds hb) he
      (by unfold roundsLeft; omega)
    exact ⟨t, ht, htd, htb.trans he.symm, by rw [hts]; rfl⟩

/-- DEC_SYMBOL where the absent child of the N = 1 root is selected (R223). -/
theorem decSymbol_of_absent {s : State} {sym : Byte} (h : RootIs s (some (.leaf sym)))
    (hb : HoldsBits s s.bp.toNat [true]) :
    decSymbol s = .raised (State.raised { atRoot s with bp := s.bp + 1 } .unreachableSymbol) := by
  obtain ⟨k, hk⟩ : ∃ k, roundsLeft s = k + 1 := ⟨srcBits s - s.bp.toNat, rfl⟩
  obtain ⟨hg, hg1⟩ := brGet_of_holds (atRoot_holds hb)
  obtain ⟨i, hi, hd⟩ := descendBit_of_one (s := { atRoot s with bp := (atRoot s).bp + 1 }) true h rfl
  unfold decSymbol
  rw [hk]
  simp only [symbolLoop, atRoot_not_exhausted hb, Bool.false_eq_true, if_false, hg, Res.andThen_ok, hd, if_true,
    Res.andThen_raised]
  rfl

/-! ### What the symbol decoder can do to DST -/

/-- DST, `DST_LEN`, `EMITTED`, `COUNT` and `DST_CAP` stay. -/
def NothingEmitted (s t : State) : Prop :=
  t.dst = s.dst ∧ t.dstLen = s.dstLen ∧ t.emitted = s.emitted ∧ t.count = s.count ∧ t.dstCap = s.dstCap

/-- One byte has been written at `DST_LEN`; `DST_LEN` and `EMITTED` have grown by one. -/
def OneEmitted (s t : State) : Prop :=
  s.dstLen.toNat < s.dstCap ∧ (∃ v, t.dst = Table.set s.dst s.dstLen.toNat v) ∧ t.dstLen = s.dstLen + 1 ∧
    t.emitted = s.emitted + 1 ∧ t.count = s.count ∧ t.dstCap = s.dstCap

/-- An error has been raised with DST and `EMITTED` as they were. -/
def RaisedEmittingNothing (s t : State) : Prop := t.dst = s.dst ∧ t.emitted = s.emitted

theorem NothingEmitted.refl (s : State) : NothingEmitted s s := ⟨rfl, rfl, rfl, rfl, rfl⟩

theorem descentMoves_nothingEmitted : DescentMoves NothingEmitted RaisedEmittingNothing where
  refl := .refl
  trans := fun h k => ⟨k.1.trans h.1, k.2.1.trans h.2.1, k.2.2.1.trans h.2.2.1, k.2.2.2.1.trans h.2.2.2.1,
    k.2.2.2.2.trans h.2.2.2.2⟩
  after := fun h k => ⟨k.1.trans h.1, k.2.trans h.2.2.1⟩
  ahead := fun s _ _ => .refl s
  align := .refl
  atRoot := .refl
  leaf := fun s _ => .refl s
  inner := fun s _ => .refl s
  free := .refl
  truncated := fun _ => ⟨rfl, rfl⟩
  unreachable := fun _ => ⟨rfl, rfl⟩

/-- An operation that first emits nothing, then one symbol or an error. -/
theorem emits_andThen {α : Type} {s : State} {r : Res α} {k : α → Op Unit}
    (h : Responds NothingEmitted RaisedEmittingNothing s r)
    (hk : ∀ a t, NothingEmitted s t → Responds OneEmitted RaisedEmittingNothing t (k a t)) :
    Responds OneEmitted RaisedEmittingNothing s (r.andThen k) := by
  cases r with
  | ok a t =>
    have h1 := hk a t h
    obtain ⟨hd, hl, he, hc, hp⟩ := h
    rw [Res.andThen_ok]
    cases hkt : k a t with
    | ok b u => rw [hkt] at h1; unfold Responds OneEmitted at h1; rw [hd, hl, he, hc, hp] at h1; exact h1
    | raised u => rw [hkt] at h1; exact ⟨h1.1.trans hd, h1.2.trans he⟩
    | fault f => trivial
    | refused f => trivial
  | raised t => exact h
  | fault f => trivial
  | refused f => trivial

theorem emits_emitSymbol (sym : Byte) : Moves OneEmitted RaisedEmittingNothing (emitSymbol sym) := by
  intro s
  unfold emitSymbol pushDst
  split
  · exact ⟨‹_›, ⟨sym, rfl⟩, rfl, rfl, rfl, rfl⟩
  · trivial

/-- DEC_SYMBOL emits one symbol, or raises and has emitted none (R184, R226). -/
theorem emits_decSymbol : Moves OneEmitted RaisedEmittingNothing decSymbol := by
  have hD := descentMoves_nothingEmitted
  have loop : ∀ k, Moves OneEmitted RaisedEmittingNothing (symbolLoop k) := by
    intro k
    induction k with
    | zero => exact fun s => ⟨rfl, rfl⟩
    | succ k ih =>
      intro s
      unfold symbolLoop
      split
      · exact ⟨rfl, rfl⟩
      · refine emits_andThen (moves_brGet hD.toUnpackerMoves s) fun b t _ =>
          emits_andThen (moves_descendBit hD b t) fun m u _ => ?_
        cases m with
        | none => exact ih u
        | some sym => exact emits_emitSymbol sym u
  exact fun s => loop _ (atRoot s)

/-- F_CODE does so too (R68). -/
theorem emits_fCode (bs : List Bit) : Moves OneEmitted RaisedEmittingNothing (fCode bs) := by
  have hD := descentMoves_nothingEmitted
  have follow : Moves OneEmitted RaisedEmittingNothing (followCode bs) := by
    induction bs with
    | nil => exact fun s => trivial
    | cons b bs ih =>
      intro s
      refine emits_andThen (moves_consume hD.toUnpackerMoves _ _ hD.truncated s) fun _ t _ =>
        emits_andThen (moves_descendBit hD b t) fun m u _ => ?_
      cases m with
      | none => exact ih u
      | some sym =>
        dsimp only
        split
        · exact emits_emitSymbol sym u
        · trivial
  exact fun s => follow (atRoot s)

/-- Where the loop of DEC_SYMBOLS raises, the bytes of DST written are as many as `EMITTED` has grown (R185, R226). -/
theorem symbolsLoop_raised {k : Nat} {s t : State} (hc : s.dstCap < 2 ^ 64) (h : symbolsLoop k s = .raised t) :
    s.emitted.toNat ≤ t.emitted.toNat ∧
      ∀ a, s.dstLen.toNat + (t.emitted.toNat - s.emitted.toNat) ≤ a → Table.get t.dst a = Table.get s.dst a := by
  induction k generalizing s with
  | zero => cases h; exact ⟨le_refl _, fun _ _ => rfl⟩
  | succ k ih =>
    unfold symbolsLoop at h
    split at h
    · rename_i hlt
      have h1 := emits_decSymbol s
      cases hd : decSymbol s with
      | ok x u =>
        rw [hd] at h h1
        rw [Res.andThen_ok] at h
        obtain ⟨hroom, ⟨v, hv⟩, hl, he, hcount, hcap⟩ := h1
        have hl1 : u.dstLen.toNat = s.dstLen.toNat + 1 := by
          rw [hl]; exact toNat_add_one_of_lt hroom hc
        have he1 : u.emitted.toNat = s.emitted.toNat + 1 := by
          rw [he]; exact toNat_add_one_of_lt hlt s.count.isLt
        obtain ⟨g1, g2⟩ := ih (by rw [hcap]; exact hc) h
        refine ⟨by omega, fun a ha => ?_⟩
        rw [g2 a (by omega), hv, Table.get_set_ne _ _ (by omega)]
      | raised u =>
        rw [hd] at h h1
        cases h
        exact ⟨by rw [h1.2], fun a _ => by rw [h1.1]⟩
      | fault f => rw [hd] at h; cases h
      | refused f => rw [hd] at h; cases h
    · cases h

/-! ### All symbols -/

/-- What DEC_SYMBOLS has done when it has decoded a sequence of symbols (R184, R185). -/
structure Decoded (s : State) (codes : List (List Bit × Byte)) (t : State) : Prop where
  emitted : t.emitted.toNat = s.emitted.toNat + codes.length
  bp : t.bp.toNat = s.bp.toNat + (codes.flatMap Prod.fst).length
  dstLen : t.dstLen.toNat = s.dstLen.toNat + codes.length
  bytes : ∀ j (hj : j < codes.length), Table.get t.dst (s.dstLen.toNat + j) = some codes[j].2
  below : DstOnlyAppended s t
  same : t = { s with
    bp := t.bp, dst := t.dst, dstLen := t.dstLen, emitted := t.emitted, dnode := t.dnode, dstate := t.dstate }

/-- The first rounds of the loop of DEC_SYMBOLS decode the codes that SRC holds; the rounds that are left follow (R185). -/
theorem symbolsLoop_of_codes {x : HTree} {codes : List (List Bit × Byte)} {s : State}
    (h : RootIs s (some x)) (hc : ∀ c ∈ codes, x.codeAt c.1 = some c.2)
    (hb : HoldsBits s s.bp.toNat (codes.flatMap Prod.fst)) (hn : s.emitted.toNat + codes.length ≤ s.count.toNat)
    (hr : RoomBytes s codes.length) :
    ∃ t, (∀ m, symbolsLoop (codes.length + m) s = symbolsLoop m t) ∧ Decoded s codes t := by
  induction codes generalizing s with
  | nil => exact ⟨s, fun m => by simp, by simp, by simp, by simp, fun j hj => by simp at hj, fun _ _ => rfl, rfl⟩
  | cons c codes ih =>
    rw [List.flatMap_cons, holdsBits_append] at hb
    obtain ⟨hb1, hb2⟩ := hb
    rw [List.length_cons] at hn
    simp only [RoomBytes, List.length_cons] at hr
    obtain ⟨t, ht, -, htb, -, hts⟩ := decSymbol_of_code h (hc c (by simp)) hb1
    have htl : t.dstLen = s.dstLen := by rw [hts]
    have htc : t.dstCap = s.dstCap := by rw [hts]
    obtain ⟨u, hu, hud, hul, hua, hus⟩ := emitSymbol_of_room c.2 (s := t) (by unfold RoomBytes; rw [htl, htc]; omega)
    have hub : u.bp = t.bp := by rw [hus]
    have hue : u.emitted.toNat = s.emitted.toNat + 1 := by
      rw [hus]
      show (t.emitted + 1).toNat = _
      rw [hts]
      show (s.emitted + 1).toNat = _
      exact toNat_add_one_of_lt (m := s.count.toNat) (by omega) s.count.isLt
    have huc : u.count = s.count := by rw [hus, hts]
    have hucap : u.dstCap = s.dstCap := by rw [hus, hts]
    rw [htl] at hul
    obtain ⟨v, hv, hD⟩ := ih (s := u)
      (by unfold RootIs at h ⊢; rw [hus, hts]; exact h)
      (fun d hd => hc d (by simp [hd]))
      (by rw [hub, htb]; exact hb2.congr (by rw [hus, hts]) (by rw [hus, hts]))
      (by rw [hue, huc]; omega)
      (by unfold RoomBytes; rw [hul, hucap]; omega)
    have hvl := hD.dstLen
    refine ⟨v, fun m => ?_, ?_, ?_, ?_, ?_, ?_, ?_⟩
    · rw [List.length_cons, show codes.length + 1 + m = codes.length + m + 1 by omega]
      simp only [symbolsLoop, if_pos (show s.emitted.toNat < s.count.toNat by omega), ht, hu, Res.andThen_ok, hv]
    · rw [hD.emitted, hue, List.length_cons]; omega
    · rw [hD.bp, hub, htb, List.flatMap_cons, List.length_append]; omega
    · rw [hvl, hul, List.length_cons]; omega
    · intro j hj
      cases j with
      | zero =>
        rw [Nat.add_zero, hD.below _ (.inl (by omega)), ← htl, hud]
        rfl
      | succ j =>
        have := hD.bytes j (by simpa using hj)
        rw [hul] at this
        rw [show s.dstLen.toNat + (j + 1) = s.dstLen.toNat + 1 + j by omega, this]
        rfl
    · intro a ha
      have h1 : a < u.dstLen.toNat ∨ v.dstLen.toNat ≤ a := by omega
      have h2 : a < t.dstLen.toNat ∨ u.dstLen.toNat ≤ a := by rw [htl]; omega
      rw [hD.below a h1, hua a h2, hts]
    · rw [hD.same, hus, hts]

theorem codes_length_le {x : HTree} (codes : List (List Bit × Byte)) (hc : ∀ c ∈ codes, x.codeAt c.1 = some c.2) :
    codes.length ≤ (codes.flatMap Prod.fst).length := by
  induction codes with
  | nil => simp
  | cons c codes ih =>
    have := ih fun d hd => hc d (by simp [hd])
    have := List.length_pos_iff.2 (HTree.codeAt_ne_nil (hc c (by simp)))
    rw [List.flatMap_cons, List.length_append, List.length_cons]
    omega

/-- DEC_SYMBOLS where SRC holds the codes of a sequence of at most `COUNT` symbols: what has been done when they are decoded,
and that at least one round is left (R185). -/
theorem decSymbols_after_codes {x : HTree} {codes : List (List Bit × Byte)} {s : State}
    (h : RootIs s (some x)) (hc : ∀ c ∈ codes, x.codeAt c.1 = some c.2)
    (hb : HoldsBits s s.bp.toNat (codes.flatMap Prod.fst)) (hn : codes.length ≤ s.count.toNat)
    (hr : RoomBytes s codes.length) :
    ∃ t m, decSymbols s = symbolsLoop (m + 1) t ∧ Decoded { s with emitted := 0 } codes t := by
  obtain ⟨t, ht, hD⟩ := symbolsLoop_of_codes (s := { s with emitted := 0 }) h hc (hb.congr rfl rfl)
    (by show (0 : Word64).toNat + _ ≤ _; simp; exact hn) hr
  obtain ⟨m, hm⟩ : ∃ m, roundsLeft s = codes.length + (m + 1) := ⟨roundsLeft s - codes.length - 1, by
    have := codes_length_le codes hc
    have := hb.1
    unfold roundsLeft
    omega⟩
  exact ⟨t, m, by unfold decSymbols; rw [hm, ht], hD⟩

/-- DEC_SYMBOLS on the codes of a sequence of `COUNT` symbols (R185). -/
theorem decSymbols_of_codes {x : HTree} {codes : List (List Bit × Byte)} {s : State}
    (h : RootIs s (some x)) (hc : ∀ c ∈ codes, x.codeAt c.1 = some c.2)
    (hb : HoldsBits s s.bp.toNat (codes.flatMap Prod.fst)) (hn : s.count.toNat = codes.length)
    (hr : RoomBytes s codes.length) :
    ∃ t, decSymbols s = .ok () t ∧ t.emitted = s.count ∧
      t.bp.toNat = s.bp.toNat + (codes.flatMap Prod.fst).length ∧ t.dstLen.toNat = s.dstLen.toNat + codes.length ∧
      (∀ j (hj : j < codes.length), Table.get t.dst (s.dstLen.toNat + j) = some codes[j].2) ∧ DstOnlyAppended s t ∧
      t = { s with
        bp := t.bp, dst := t.dst, dstLen := t.dstLen, emitted := t.emitted, dnode := t.dnode, dstate := t.dstate } := by
  obtain ⟨t, m, ht, hD⟩ := decSymbols_after_codes h hc hb hn.ge hr
  have he : t.emitted.toNat = s.count.toNat := by
    have : t.emitted.toNat = 0 + codes.length := hD.emitted
    omega
  have hcnt : t.count = s.count := by rw [hD.same]
  refine ⟨t, ?_, BitVec.eq_of_toNat_eq he, hD.bp, hD.dstLen, hD.bytes, hD.below, hD.same⟩
  rw [ht]
  simp only [symbolsLoop, if_neg (show ¬ t.emitted.toNat < t.count.toNat by rw [hcnt]; omega)]

/-- DEC_SYMBOLS, after a sequence of symbols fewer than `COUNT`, is DEC_SYMBOL of the next one; an error it raises ends the
operation with the symbols before it in DST (R185, R226). -/
theorem decSymbols_raised {x : HTree} {codes : List (List Bit × Byte)} {s : State}
    (h : RootIs s (some x)) (hc : ∀ c ∈ codes, x.codeAt c.1 = some c.2)
    (hb : HoldsBits s s.bp.toNat (codes.flatMap Prod.fst)) (hn : codes.length < s.count.toNat)
    (hr : RoomBytes s codes.length) :
    ∃ t, Decoded { s with emitted := 0 } codes t ∧ ∀ u, decSymbol t = .raised u → decSymbols s = .raised u := by
  obtain ⟨t, m, ht, hD⟩ := decSymbols_after_codes h hc hb hn.le hr
  have he : t.emitted.toNat = 0 + codes.length := hD.emitted
  have hcnt : t.count = s.count := by rw [hD.same]
  refine ⟨t, hD, fun u hu => ?_⟩
  rw [ht]
  simp only [symbolsLoop, if_pos (show t.emitted.toNat < t.count.toNat by rw [hcnt]; omega), hu, Res.andThen_raised]

end Sys2Proof.Machine
end

