-- ==== Sys2Proof/Laws/Invariant.lean ====
section
/-!
SUPPORT. The primitive updates of every unit keep the invariant of the machine: what the one-lemma-per-operation framework
of Moves.lean asks for.
-/

namespace Sys2Proof.Machine

/-- A bit put at `NBITS` below 7 leaves the unused bits of `ACC` zero (R17). -/
theorem accClean_put {s : State} (b : Bit) (h7 : s.nbits.toNat ≠ 7) (h : AccClean s) :
    AccClean { s with acc := setStreamBit s.acc s.nbits.toNat b, nbits := s.nbits + 1 } := by
  have hn := s.nbits.isLt
  have h1 : (s.nbits + 1).toNat = s.nbits.toNat + 1 := toNat_add_one_of_lt (m := 7) (by omega) (by decide)
  intro j hj hj8
  have hj : (s.nbits + 1).toNat ≤ j := hj
  show streamBit (setStreamBit s.acc s.nbits.toNat b) j = false
  rw [streamBit_setStreamBit _ _ _ _ hn hj8, if_neg (by omega)]
  exact h j (by omega) hj8

/-- The relation that keeps the invariant. -/
def KeepsInv (s t : State) : Prop := StateInv s → StateInv t

theorem closed_keepsInv : Closed KeepsInv KeepsInv := ⟨fun _ h => h, fun h k i => k (h i), fun h k i => k (h i)⟩

theorem accClean_zero (s : State) (h : s.acc = 0) : AccClean s := by
  intro j _ _; rw [h]; simp [streamBit]

theorem get_set_some {α : Type} {t : Table α} {i j : Nat} {v : α} {P : Nat → Prop} (h : ∀ a, (Table.get t a).isSome = true → P a) (hi : P i) :
    (Table.get (Table.set t i v) j).isSome = true → P j := by
  rw [Table.get_set]
  split
  · rename_i e; intro _; rw [e]; exact hi
  · exact h j

/-- The packer's primitive updates keep the invariant. -/
theorem packerMoves_keepsInv : PackerMoves KeepsInv KeepsInv where
  toClosed := closed_keepsInv
  push := by
    intro s v hlt h
    have hl : (s.dstLen + 1).toNat = s.dstLen.toNat + 1 := toNat_add_one_of_lt hlt h.capsFit.2
    obtain ⟨h1,h2,h3,h4,h5,h6,h7,h8,h9,h10,h11,h12,h13,h14,h15,h16,h17,h18,h19,h20,h21,h22,h23,h24⟩ := h
    constructor <;> try assumption
    · exact Memory.wf_set _ _ _ h2
    · exact fun a => get_set_some (P := fun a => a < s.dstCap) h9 hlt
    · show (s.dstLen + 1).toNat ≤ s.dstCap; omega
  put := by
    intro s b h7' h
    have ha := accClean_put b h7' h.accClean
    obtain ⟨h1,h2,h3,h4,h5,h6,h7,h8,h9,h10,h11,h12,h13,h14,h15,h16,h17,h18,h19,h20,h21,h22,h23,h24⟩ := h
    constructor <;> assumption
  clear := by
    intro s h
    obtain ⟨h1,h2,h3,h4,h5,h6,h7,h8,h9,h10,h11,h12,h13,h14,h15,h16,h17,h18,h19,h20,h21,h22,h23,h24⟩ := h
    constructor <;> try assumption
    exact accClean_zero _ rfl

/-- The unpacker's do. -/
theorem unpackerMoves_keepsInv : UnpackerMoves KeepsInv KeepsInv where
  toClosed := closed_keepsInv
  ahead := by
    intro s k hk h
    have hb := bp_add hk
    obtain ⟨h1,h2,h3,h4,h5,h6,h7,h8,h9,h10,h11,h12,h13,h14,h15,h16,h17,h18,h19,h20,h21,h22,h23,h24⟩ := h
    constructor <;> try assumption
    intro _
    show (s.bp + BitVec.ofNat 67 k).toNat ≤ srcBits s
    omega
  align := by
    intro s h
    obtain ⟨h1,h2,h3,h4,h5,h6,h7,h8,h9,h10,h11,h12,h13,h14,h15,h16,h17,h18,h19,h20,h21,h22,h23,h24⟩ := h
    constructor <;> try assumption
    intro hb
    have := h23 hb
    show (alignUp s.bp).toNat ≤ srcBits s
    rw [alignUp_toNat_of_le this]
    unfold srcBits at *
    omega

/-- The tree builder's do. -/
theorem builderMoves_keepsInv : BuilderMoves KeepsInv KeepsInv where
  toClosed := closed_keepsInv
  init := by
    intro s h
    obtain ⟨h1,h2,h3,h4,h5,h6,h7,h8,h9,h10,h11,h12,h13,h14,h15,h16,h17,h18,h19,h20,h21,h22,h23,h24⟩ := h
    constructor <;> first | assumption | (intro i hi; cases hi) | (show (0 : BitVec _).toNat ≤ _; simp) | rfl
  writeNode := by
    intro s i e hi h
    obtain ⟨h1,h2,h3,h4,h5,h6,h7,h8,h9,h10,h11,h12,h13,h14,h15,h16,h17,h18,h19,h20,h21,h22,h23,h24⟩ := h
    constructor <;> try assumption
    · exact Table.wf_set _ _ _ h4
    · exact fun a => get_set_some (P := fun a => a < 511) h11 hi
  activate := by
    intro s i hi h
    obtain ⟨h1,h2,h3,h4,h5,h6,h7,h8,h9,h10,h11,h12,h13,h14,h15,h16,h17,h18,h19,h20,h21,h22,h23,h24⟩ := h
    constructor <;> try assumption
    · exact risesFromIx_insertIx (Nat.zero_le _) _ h7
    · intro j hj
      rcases (mem_insertIx _ _ _).1 hj with rfl | hj
      · exact hi
      · exact h14 j hj
  remove := by
    intro s i h
    obtain ⟨h1,h2,h3,h4,h5,h6,h7,h8,h9,h10,h11,h12,h13,h14,h15,h16,h17,h18,h19,h20,h21,h22,h23,h24⟩ := h
    constructor <;> try assumption
    · exact risesFromIx_eraseIx _ _ h7
    · intro j hj
      exact h14 j ((mem_eraseIx _ _ _).1 hj).1
  root := by
    intro s r h
    obtain ⟨h1,h2,h3,h4,h5,h6,h7,h8,h9,h10,h11,h12,h13,h14,h15,h16,h17,h18,h19,h20,h21,h22,h23,h24⟩ := h
    constructor <;> assumption
  merged := by
    intro s hn h
    have : (s.nint + 1).toNat = s.nint.toNat + 1 := toNat_add_one_of_lt hn (by decide)
    obtain ⟨h1,h2,h3,h4,h5,h6,h7,h8,h9,h10,h11,h12,h13,h14,h15,h16,h17,h18,h19,h20,h21,h22,h23,h24⟩ := h
    constructor <;> try assumption
    show (s.nint + 1).toNat ≤ 255; omega
  one := by
    intro s h
    obtain ⟨h1,h2,h3,h4,h5,h6,h7,h8,h9,h10,h11,h12,h13,h14,h15,h16,h17,h18,h19,h20,h21,h22,h23,h24⟩ := h
    constructor <;> try assumption
    show (1 : BitVec 9).toNat ≤ 255; decide
  count := by
    intro s k hk h
    obtain ⟨h1,h2,h3,h4,h5,h6,h7,h8,h9,h10,h11,h12,h13,h14,h15,h16,h17,h18,h19,h20,h21,h22,h23,h24⟩ := h
    constructor <;> assumption

/-- An error taken keeps it (R226). -/
theorem raised_keepsInv (s : State) (k : ErrKind) (hk : k ≠ .none) : KeepsInv s (s.raised k) := by
  intro h
  obtain ⟨h1,h2,h3,h4,h5,h6,h7,h8,h9,h10,h11,h12,h13,h14,h15,h16,h17,h18,h19,h20,h21,h22,h23,h24⟩ := h
  constructor <;> try assumption
  · show (0 : Word64).toNat ≤ s.dstCap; simp
  · exact ⟨fun _ => rfl, fun _ => hk⟩
  · intro hb; cases hb
  · intro hb; cases hb

/-- The tree parser's updates do. -/
theorem parserMoves_keepsInv : ParserMoves KeepsInv KeepsInv where
  toUnpackerMoves := unpackerMoves_keepsInv
  init := by
    intro s h
    obtain ⟨h1,h2,h3,h4,h5,h6,h7,h8,h9,h10,h11,h12,h13,h14,h15,h16,h17,h18,h19,h20,h21,h22,h23,h24⟩ := h
    constructor <;> first | assumption | (show (0 : BitVec _).toNat ≤ _; simp)
  writeNode := builderMoves_keepsInv.writeNode
  alloc := by
    intro s hn h
    have : (s.nalloc + 1).toNat = s.nalloc.toNat + 1 := toNat_add_one_of_lt hn (by decide)
    obtain ⟨h1,h2,h3,h4,h5,h6,h7,h8,h9,h10,h11,h12,h13,h14,h15,h16,h17,h18,h19,h20,h21,h22,h23,h24⟩ := h
    constructor <;> try assumption
    show (s.nalloc + 1).toNat ≤ 511; omega
  root := builderMoves_keepsInv.root
  raised := fun s => raised_keepsInv s _ (by decide)

/-- The fields the invariant does not speak of are free. -/
theorem keepsInv_of_free {s t : State} (h : t = { s with host := t.host, issue := t.issue, ret := t.ret, reply := t.reply, freeNext := t.freeNext }) : KeepsInv s t := by
  intro h'
  rw [h]
  obtain ⟨h1,h2,h3,h4,h5,h6,h7,h8,h9,h10,h11,h12,h13,h14,h15,h16,h17,h18,h19,h20,h21,h22,h23,h24⟩ := h'
  constructor <;> assumption

/-- A free value read keeps it. -/
theorem freeRead_keepsInv (s : State) : KeepsInv s s.freeRead := keepsInv_of_free rfl

/-- The descent's do. -/
theorem descentMoves_keepsInv : DescentMoves KeepsInv KeepsInv where
  toUnpackerMoves := unpackerMoves_keepsInv
  atRoot := by
    intro s h
    obtain ⟨h1,h2,h3,h4,h5,h6,h7,h8,h9,h10,h11,h12,h13,h14,h15,h16,h17,h18,h19,h20,h21,h22,h23,h24⟩ := h
    constructor <;> assumption
  leaf := by
    intro s c h
    obtain ⟨h1,h2,h3,h4,h5,h6,h7,h8,h9,h10,h11,h12,h13,h14,h15,h16,h17,h18,h19,h20,h21,h22,h23,h24⟩ := h
    constructor <;> assumption
  inner := by
    intro s c h
    obtain ⟨h1,h2,h3,h4,h5,h6,h7,h8,h9,h10,h11,h12,h13,h14,h15,h16,h17,h18,h19,h20,h21,h22,h23,h24⟩ := h
    constructor <;> assumption
  free := freeRead_keepsInv
  truncated := fun s => raised_keepsInv s _ (by decide)
  unreachable := fun s => raised_keepsInv s _ (by decide)

/-- The symbol decoder's do. -/
theorem symbolMoves_keepsInv : SymbolMoves KeepsInv KeepsInv where
  toDescentMoves := descentMoves_keepsInv
  push := packerMoves_keepsInv.push
  emitted := by
    intro s h
    obtain ⟨h1,h2,h3,h4,h5,h6,h7,h8,h9,h10,h11,h12,h13,h14,h15,h16,h17,h18,h19,h20,h21,h22,h23,h24⟩ := h
    constructor <;> assumption

/-- The frequency counter's do. -/
theorem counterMoves_keepsInv : CounterMoves KeepsInv KeepsInv where
  toClosed := closed_keepsInv
  clear := by
    intro s
    have key : ∀ F, Table.wf F = true → (∀ b, (Table.get F b).isSome = true → b < 256) → KeepsInv s { s with freq := F } := by
      intro F hF1 hF2 h
      obtain ⟨h1,h2,h3,h4,h5,h6,h7,h8,h9,h10,h11,h12,h13,h14,h15,h16,h17,h18,h19,h20,h21,h22,h23,h24⟩ := h
      constructor <;> assumption
    refine key _ (Table.wf_fill _ _) fun b hb => ?_
    rw [Table.get_fill] at hb
    by_contra hn
    rw [if_neg hn] at hb
    cases hb
  count := by
    intro s b v h
    obtain ⟨h1,h2,h3,h4,h5,h6,h7,h8,h9,h10,h11,h12,h13,h14,h15,h16,h17,h18,h19,h20,h21,h22,h23,h24⟩ := h
    constructor <;> try assumption
    · exact Table.wf_set _ _ _ h3
    · exact fun a => get_set_some (P := fun a => a < 256) h10 b.isLt
  start := by
    intro s h
    obtain ⟨h1,h2,h3,h4,h5,h6,h7,h8,h9,h10,h11,h12,h13,h14,h15,h16,h17,h18,h19,h20,h21,h22,h23,h24⟩ := h
    constructor <;> try assumption
    intro _; show (0 : Word64).toNat ≤ _; simp
  ahead := by
    intro s hlt h
    have := toNat_add_one_of_lt hlt s.srcLen.isLt
    obtain ⟨h1,h2,h3,h4,h5,h6,h7,h8,h9,h10,h11,h12,h13,h14,h15,h16,h17,h18,h19,h20,h21,h22,h23,h24⟩ := h
    constructor <;> try assumption
    intro _; show (s.epos + 1).toNat ≤ s.srcLen.toNat; omega

/-- The codebook generator's do. -/
theorem codebookMoves_keepsInv : CodebookMoves KeepsInv KeepsInv where
  toClosed := closed_keepsInv
  clear := by
    intro s
    have key : ∀ F, Table.wf F = true → (∀ b, (Table.get F b).isSome = true → b < 256) → KeepsInv s { s with codeLen := F } := by
      intro F hF1 hF2 h
      obtain ⟨h1,h2,h3,h4,h5,h6,h7,h8,h9,h10,h11,h12,h13,h14,h15,h16,h17,h18,h19,h20,h21,h22,h23,h24⟩ := h
      constructor <;> assumption
    refine key _ (Table.wf_fill _ _) fun b hb => ?_
    rw [Table.get_fill] at hb
    by_contra hn
    rw [if_neg hn] at hb
    cases hb
  code := by
    intro s b l w h
    obtain ⟨h1,h2,h3,h4,h5,h6,h7,h8,h9,h10,h11,h12,h13,h14,h15,h16,h17,h18,h19,h20,h21,h22,h23,h24⟩ := h
    constructor <;> try assumption
    · exact Table.wf_set _ _ _ h5
    · exact Table.wf_set _ _ _ h6
    · exact fun a => get_set_some (P := fun a => a < 256) h12 b.isLt
    · exact fun a => get_set_some (P := fun a => a < 256) h13 b.isLt

/-- The encoder's do. -/
theorem encoderMoves_keepsInv : EncoderMoves KeepsInv KeepsInv where
  toPackerMoves := packerMoves_keepsInv
  start := counterMoves_keepsInv.start
  ahead := counterMoves_keepsInv.ahead

/-- DEC_LEN's do. -/
theorem lengthMoves_keepsInv : LengthMoves KeepsInv KeepsInv where
  toUnpackerMoves := unpackerMoves_keepsInv
  count := by
    intro s v h
    obtain ⟨h1,h2,h3,h4,h5,h6,h7,h8,h9,h10,h11,h12,h13,h14,h15,h16,h17,h18,h19,h20,h21,h22,h23,h24⟩ := h
    constructor <;> assumption
  raised := fun s => raised_keepsInv s _ (by decide)

/-- The start of a run keeps it (R252). -/
theorem started_keepsInv (s : State) (p : Phase) (hp : p ≠ .error) : KeepsInv s (s.started p) := by
  intro h
  obtain ⟨h1,h2,h3,h4,h5,h6,h7,h8,h9,h10,h11,h12,h13,h14,h15,h16,h17,h18,h19,h20,h21,h22,h23,h24⟩ := h
  constructor <;> first | assumption | exact accClean_zero _ rfl | rfl | (intro i hi; cases hi) | (intro _; show (0 : BitVec _).toNat ≤ _; simp) | (show (0 : BitVec _).toNat ≤ _; simp) | skip
  constructor
  · intro h; exact absurd rfl h
  · intro h; exact absurd h hp

end Sys2Proof.Machine
end

