-- ==== Sys2Proof/Laws/PerInstr.lean ====
section
/-!
SUPPORT. Facts about every operation as syntax, one lemma per constructor: the family EncodedWidth says how many bits an
encoding has (R75, 30_encoding.md; operand bits: log 14).
-/

namespace Sys2Proof

/-- The bits of an operation's encoding: `CMD` is 8 bits, `UOPSEL` 5, a presence bit and a marker 1, the length field 64;
then the operand's. -/
def encodedBits : Instr → Nat
  | .compress | .decompress => 8
  | .fcCount _ | .bwPutbyte _ => 5 + 8
  | .bwPut _ => 5 + 1
  | .bwPutn _ _ => 5 + 8 + 255
  | .brGetn _ => 5 + 7
  | .fcClear | .fcScan | .tbInit | .tbMerge | .tbBuild | .tbSer | .tbDes | .cbGen => 5
  | .bwReset | .bwAlign | .bwFlush | .brReset | .brGet | .brAlign | .brGetbyte => 5
  | .encCount | .encBuild | .encCodebook | .encTree | .encLen | .encCodes | .encFlush => 5
  | .decTree | .decLen | .decSymbol | .decSymbols => 5
  | .tEmpty | .tPresent | .nInternal => 1
  | .nLeaf _ => 1 + 8
  | .fLength _ => 64
  | .fCode bits | .fPad bits => bits.length

end Sys2Proof

namespace Sys2Proof.Laws.EncodedWidth

/-- The encoding has the width of its format and operands, and belongs to a channel of its format. -/
def Statement (i : Instr) : Prop :=
  (encode i).length = encodedBits i ∧ (i.format = .cmd ↔ channel i = .cmd) ∧ (i.format = .uop ↔ channel i = .uop)

theorem compress : Statement .compress := by simp [Statement, encode, encodedBits, Instr.format, channel]
theorem decompress : Statement .decompress := by simp [Statement, encode, encodedBits, Instr.format, channel]
theorem fcClear : Statement .fcClear := by simp [Statement, encode, encodedBits, Instr.format, channel]
theorem fcCount (b : Byte) : Statement (.fcCount b) := by simp [Statement, encode, encodedBits, Instr.format, channel]
theorem fcScan : Statement .fcScan := by simp [Statement, encode, encodedBits, Instr.format, channel]
theorem tbInit : Statement .tbInit := by simp [Statement, encode, encodedBits, Instr.format, channel]
theorem tbMerge : Statement .tbMerge := by simp [Statement, encode, encodedBits, Instr.format, channel]
theorem tbBuild : Statement .tbBuild := by simp [Statement, encode, encodedBits, Instr.format, channel]
theorem tbSer : Statement .tbSer := by simp [Statement, encode, encodedBits, Instr.format, channel]
theorem tbDes : Statement .tbDes := by simp [Statement, encode, encodedBits, Instr.format, channel]
theorem cbGen : Statement .cbGen := by simp [Statement, encode, encodedBits, Instr.format, channel]
theorem bwReset : Statement .bwReset := by simp [Statement, encode, encodedBits, Instr.format, channel]
theorem bwPut (b : Bit) : Statement (.bwPut b) := by simp [Statement, encode, encodedBits, Instr.format, channel]
theorem bwPutn (n : BitVec 8) (v : CodeWord) : Statement (.bwPutn n v) := by simp [Statement, encode, encodedBits, Instr.format, channel]
theorem bwAlign : Statement .bwAlign := by simp [Statement, encode, encodedBits, Instr.format, channel]
theorem bwFlush : Statement .bwFlush := by simp [Statement, encode, encodedBits, Instr.format, channel]
theorem bwPutbyte (v : Byte) : Statement (.bwPutbyte v) := by simp [Statement, encode, encodedBits, Instr.format, channel]
theorem brReset : Statement .brReset := by simp [Statement, encode, encodedBits, Instr.format, channel]
theorem brGet : Statement .brGet := by simp [Statement, encode, encodedBits, Instr.format, channel]
theorem brGetn (n : BitVec 7) : Statement (.brGetn n) := by simp [Statement, encode, encodedBits, Instr.format, channel]
theorem brAlign : Statement .brAlign := by simp [Statement, encode, encodedBits, Instr.format, channel]
theorem brGetbyte : Statement .brGetbyte := by simp [Statement, encode, encodedBits, Instr.format, channel]
theorem encCount : Statement .encCount := by simp [Statement, encode, encodedBits, Instr.format, channel]
theorem encBuild : Statement .encBuild := by simp [Statement, encode, encodedBits, Instr.format, channel]
theorem encCodebook : Statement .encCodebook := by simp [Statement, encode, encodedBits, Instr.format, channel]
theorem encTree : Statement .encTree := by simp [Statement, encode, encodedBits, Instr.format, channel]
theorem encLen : Statement .encLen := by simp [Statement, encode, encodedBits, Instr.format, channel]
theorem encCodes : Statement .encCodes := by simp [Statement, encode, encodedBits, Instr.format, channel]
theorem encFlush : Statement .encFlush := by simp [Statement, encode, encodedBits, Instr.format, channel]
theorem decTree : Statement .decTree := by simp [Statement, encode, encodedBits, Instr.format, channel]
theorem decLen : Statement .decLen := by simp [Statement, encode, encodedBits, Instr.format, channel]
theorem decSymbol : Statement .decSymbol := by simp [Statement, encode, encodedBits, Instr.format, channel]
theorem decSymbols : Statement .decSymbols := by simp [Statement, encode, encodedBits, Instr.format, channel]
theorem tEmpty : Statement .tEmpty := by simp [Statement, encode, encodedBits, Instr.format, channel]
theorem tPresent : Statement .tPresent := by simp [Statement, encode, encodedBits, Instr.format, channel]
theorem nLeaf (sym : Byte) : Statement (.nLeaf sym) := by simp [Statement, encode, encodedBits, Instr.format, channel]
theorem nInternal : Statement .nInternal := by simp [Statement, encode, encodedBits, Instr.format, channel]
theorem fLength (len : Word64) : Statement (.fLength len) := by simp [Statement, encode, encodedBits, Instr.format, channel]
theorem fCode (bits : List Bit) : Statement (.fCode bits) := by simp [Statement, encode, encodedBits, Instr.format, channel]
theorem fPad (bits : List Bit) : Statement (.fPad bits) := by simp [Statement, encode, encodedBits, Instr.format, channel]

end Sys2Proof.Laws.EncodedWidth
end

