-- ==== Sys2Proof/Laws/Phases.lean ====
section
/-!
SUPPORT. The phase operations of the two runs that are more than one unit's: ENC_TREE, ENC_LEN (R165, R166), DEC_TREE,
DEC_LEN (R181, R182), and the steps of a run.
-/

namespace Sys2Proof.Machine

/-! ### Bytes appended -/

/-- From `s` to `t` the `n` bytes `f 0`, `f 1`, … are appended to DST. -/
structure Pushes (s : State) (n : Nat) (f : Nat → Byte) (t : State) : Prop where
  bytes : ∀ k, k < n → Table.get t.dst (s.dstLen.toNat + k) = some (f k)
  len : t.dstLen.toNat = s.dstLen.toNat + n
  below : DstOnlyAppended s t
  same : t = { s with dst := t.dst, dstLen := t.dstLen }

theorem Pushes.dstBits {s t : State} {n : Nat} {f : Nat → Byte} (h : Pushes s n f t) :
    dstBits t = dstBits s ++ (List.range n).flatMap fun k => bitsOf 8 (f k).toNat := by
  unfold Machine.dstBits
  rw [h.len, List.range_add, List.flatMap_append]
  congr 1
  · apply flatMap_congr_range
    intro a ha
    rw [h.below a (.inl ha)]
  · rw [List.flatMap_map]
    apply flatMap_congr_range
    intro k hk
    rw [h.bytes k hk, Option.getD_some]

/-- BW_PUTBYTE for every byte of a sequence (R145). -/
theorem putBytes_of_room {s : State} (f : Nat → Byte) (n : Nat) (h : RoomBytes s n) :
    ∃ t, forEach (fun k => bwPutbyte (f k)) (List.range n) s = .ok () t ∧ Pushes s n f t := by
  induction n with
  | zero => exact ⟨s, rfl, fun k hk => by omega, rfl, fun _ _ => rfl, rfl⟩
  | succ n ih =>
    obtain ⟨t, ht, hp⟩ := ih ⟨by have := h.1; omega, h.2⟩
    have hcap : t.dstCap = s.dstCap := by rw [hp.same]
    have hr : RoomBytes t 1 := by
      have h1 := h.1
      have h2 := h.2
      have h3 := hp.len
      exact ⟨by rw [hcap]; omega, by rw [hcap]; exact h2⟩
    obtain ⟨hd, hl⟩ := pushDst_of_room (f n) hr
    refine ⟨_, by rw [List.range_succ, forEach_append, ht, Res.andThen_ok, forEach, bwPutbyte, hd]; rfl, ?_, ?_, ?_, ?_⟩
    · intro k hk
      show Table.get (Table.set t.dst t.dstLen.toNat (f n)) _ = _
      rw [Table.get_set, hp.len]
      by_cases hkn : k = n
      · rw [if_pos (by omega), hkn]
      · rw [if_neg (by omega)]
        exact hp.bytes k (by omega)
    · rw [hl, hp.len]; omega
    · intro a ha
      have h1 := hp.len
      simp only [hl] at ha
      show Table.get (Table.set t.dst t.dstLen.toNat (f n)) a = _
      rw [Table.get_set_ne _ _ (by omega)]
      exact hp.below a (by omega)
    · rw [hp.same]

/-! ### The length field -/

theorem bitsOf_lenBytes (v : Word64) :
    bitsOf 64 v.toNat = (List.range 8).flatMap fun k => bitsOf 8 (lenByte v k).toNat := by
  have hr : List.range 64 = (List.range 8).flatMap fun k => (List.range 8).map fun j => 8 * k + j := by decide
  unfold bitsOf
  rw [hr, List.map_flatMap]
  apply flatMap_congr_range
  intro k hk
  rw [List.map_map]
  apply List.map_congr_left
  intro j hj
  have hj : j < 8 := by simpa using hj
  show v.getLsbD (64 - 1 - (8 * k + j)) = (lenByte v k).getLsbD (8 - 1 - j)
  unfold lenByte
  rw [BitVec.getLsbD_setWidth, BitVec.getLsbD_ushiftRight]
  simp only [show 8 - 1 - j < 8 by omega, decide_true, Bool.true_and]
  congr 1
  omega

/-- ENC_LEN (R166). -/
theorem encLen_of_room {s : State} (h : RoomBytes s 8) :
    ∃ t, encLen s = .ok () t ∧ Pushes s 8 (lenByte s.srcLen) t := putBytes_of_room (lenByte s.srcLen) 8 h

theorem natOfFrom_append (c : Nat) (as bs : List Bit) : natOfFrom c (as ++ bs) = natOfFrom (natOfFrom c as) bs := by
  induction as generalizing c with
  | nil => rfl
  | cons a as ih => exact ih _

/-- BR_GETBYTE for every byte of a sequence, into `COUNT` (R182). -/
theorem countBytes_of_holds {s : State} (vs : List Byte) (c : Nat) (hc : s.count = BitVec.ofNat 64 c)
    (hp : s.bp.toNat % 8 = 0) (h : HoldsBits s s.bp.toNat (vs.flatMap fun v => bitsOf 8 v.toNat)) :
    repeatOp countByte vs.length s = .ok () { s with
      count := BitVec.ofNat 64 (natOfFrom c (vs.flatMap fun v => bitsOf 8 v.toNat)),
      bp := s.bp + BitVec.ofNat 67 (8 * vs.length) } := by
  induction vs generalizing s c with
  | nil =>
    simp only [List.length_nil, repeatOp, List.flatMap_nil, natOfFrom, Nat.mul_zero, ← hc]
    congr 1
    show s = { s with bp := s.bp + 0#67 }
    rw [BitVec.add_zero]
  | cons v vs ih =>
    rw [List.flatMap_cons, holdsBits_append, length_bitsOf] at h
    obtain ⟨h1, h2⟩ := h
    have hle := h1.1
    rw [length_bitsOf] at hle
    obtain ⟨hg, hg1⟩ := brGetbyte_of_placed hle ((holdsBits_byte hp hle).1 h1)
    have hstep : countByte s = .ok () { s with count := s.count * 256 + v.setWidth 64, bp := s.bp + 8 } := by
      simp only [countByte, hg, Res.andThen_ok]
    have hc1 : s.count * 256 + v.setWidth 64 = BitVec.ofNat 64 (natOfFrom c (bitsOf 8 v.toNat)) := by
      have hv : natOfFrom 0 (bitsOf 8 v.toNat) = v.toNat := natOf_bitsOf v.isLt
      rw [natOfFrom_eq, length_bitsOf, hv, hc]
      apply BitVec.eq_of_toNat_eq
      have := v.isLt
      simp [BitVec.toNat_add, BitVec.toNat_mul]
    rw [List.length_cons, repeatOp, hstep, Res.andThen_ok,
      ih (s := { s with count := s.count * 256 + v.setWidth 64, bp := s.bp + 8 }) _ hc1
        (by show (s.bp + 8).toNat % 8 = 0; rw [hg1]; omega)
        (by show HoldsBits _ (s.bp + 8).toNat _; rw [hg1]; exact h2.congr rfl rfl)]
    rw [List.flatMap_cons, natOfFrom_append]
    congr 2
    show s.bp + 8 + BitVec.ofNat 67 (8 * vs.length) = s.bp + BitVec.ofNat 67 (8 * (vs.length + 1))
    rw [BitVec.add_assoc, show (8 : BitVec 67) = BitVec.ofNat 67 8 from rfl, ← BitVec.ofNat_add]
    congr 2
    omega

/-- DEC_LEN on the bits of a length field, before its last test (R182). -/
theorem decLen_of_holds {s : State} (L : Word64) (hp : s.bp.toNat % 8 = 0)
    (h : HoldsBits s s.bp.toNat (bitsOf 64 L.toNat)) :
    decLen s = checkCount { s with count := L, bp := s.bp + 64 } ∧ (s.bp + 64).toNat = s.bp.toNat + 64 := by
  have hle := h.1
  rw [length_bitsOf] at hle
  refine ⟨?_, bp_add (k := 64) hle⟩
  have hb : (((List.range 8).map (lenByte L)).flatMap fun v => bitsOf 8 v.toNat) = bitsOf 64 L.toNat := by
    rw [bitsOf_lenBytes, List.flatMap_map]
  have hc := countBytes_of_holds (s := { s with count := 0 }) ((List.range 8).map (lenByte L)) 0 rfl hp
    (by rw [hb]; exact h.congr rfl rfl)
  rw [hb] at hc
  have hv : natOfFrom 0 (bitsOf 64 L.toNat) = L.toNat := natOf_bitsOf L.isLt
  rw [hv, BitVec.ofNat_toNat, BitVec.setWidth_eq, List.length_map, List.length_range] at hc
  unfold decLen
  rw [fewerThan_eq_false hle, if_neg (by decide), hc, Res.andThen_ok]
  rfl

/-- DEC_LEN where fewer than 64 bits are left (R221 M4). -/
theorem decLen_of_short {s : State} (h : srcBits s < s.bp.toNat + 64) :
    decLen s = .raised (s.raised .malformedContainer) := by
  unfold decLen
  rw [if_pos (by unfold fewerThan; simpa using h)]
  rfl

/-! ### The tree field with its padding -/

theorem length_pad8 (bs : List Bit) : (pad8 bs).length = 8 * ((bs.length + 7) / 8) := by
  simp only [pad8, List.length_append, List.length_replicate, padLen]
  omega

/-- ENC_TREE from a byte boundary (R165). -/
theorem encTree_of_root {s : State} {T : Option HTree} (h : RootIs s T) (hd : ∀ x, T = some x → x.depth < pathBound)
    (hn : s.nbits = 0) (hr : RoomFor s ((treeField T).length + 7)) :
    ∃ t, encTree s = .ok () t ∧ Appends s (pad8 (treeField T)) t ∧ t.nbits = 0 := by
  obtain ⟨t, ht, hat⟩ := tbSer_of_root h hd (hr.mono (by omega))
  have hc := hat.count
  have hn0 : s.nbits.toNat = 0 := by rw [hn]; rfl
  have hpad : padLen t.nbits.toNat = padLen (treeField T).length := by unfold padLen; omega
  obtain ⟨u, hu, hau, hun⟩ := bwAlign_of_room (s := t) (hat.roomFor (hr.mono (by have := padLen_add t.nbits.toNat; omega)))
  rw [hpad] at hau
  exact ⟨u, by rw [encTree, ht, Res.andThen_ok, hu], hat.trans hau, hun⟩

/-- DEC_TREE on a tree field (R181). -/
theorem decTree_of_holds {s : State} {T : Option HTree} (h : HoldsBits s s.bp.toNat (treeField T))
    (hs : ∀ x, T = some x → x.size ≤ 511) :
    ∃ t, decTree s = .ok () t ∧ RootIs t T ∧ t.bp.toNat = 8 * ((s.bp.toNat + (treeField T).length + 7) / 8) ∧
      t = { s with n := 0, nint := 0, nalloc := t.nalloc, root := t.root, node := t.node, bp := t.bp } := by
  obtain ⟨t, ht, hroot, htb, hts, -⟩ := tbDes_of_holds h hs
  refine ⟨{ t with bp := alignUp t.bp }, by rw [decTree, ht, Res.andThen_ok, brAlign], ?_, ?_, by rw [hts]⟩
  · cases T with
    | none => exact hroot
    | some x => cases x <;> exact hroot
  · show (alignUp t.bp).toNat = _
    rw [alignUp_toNat_of_le (by rw [htb, show srcBits t = srcBits s by rw [hts]; rfl]; exact h.1), htb]

/-! ### Steps of a run -/

/-- A step of the sequencer alone: the phase's operation, then `PHASE` (R15). -/
theorem step_of_phase {s t : State} {i : Instr} (ha : Alone s) (hp : phaseOp s.phase = some i) (h : exec i s = .next t) :
    step s = .next t.advanced := by
  unfold step machineStep blockStep
  rw [ha.1, ha.2]
  simp only [hp, h, onNext]

theorem runToEnd_step {s t : State} {k : Nat} (hb : busy s = true) (h : step s = .next t) :
    runToEnd (k + 1) s = runToEnd k t := by
  rw [runToEnd, if_pos hb, h]

theorem runToEnd_done {s : State} {k : Nat} (hb : busy s = false) : runToEnd k s = .next s := by
  cases k with
  | zero => rfl
  | succ k => rw [runToEnd, if_neg (by rw [hb]; decide)]


/-! ### Sizes of a run's output -/

/-- A phase of a run whose operation ends: one step of the run. -/
theorem runToEnd_phase {s t : State} {i : Instr} {k : Nat} (ha : Alone s) (hb : busy s = true) (hp : phaseOp s.phase = some i) (h : exec i s = .next t) :
    runToEnd (k + 1) s = runToEnd k { t with phase := nextPhase t } :=
  runToEnd_step hb (step_of_phase ha hp h)

/-- A tree field of at most 256 Leaves has at most 2560 bits. -/
theorem length_treeField_le {T : Option HTree} (h : ∀ x, T = some x → x.syms.length ≤ 256) : (treeField T).length ≤ 2560 := by
  cases T with
  | none => simp [treeField]
  | some x =>
    have h1 := h x rfl
    have h2 := x.size_eq
    have h3 := x.length_bits
    simp only [treeField, List.length_cons]
    omega

/-- `RootIs` speaks of `ROOT` and `NODE` alone. -/
theorem rootIs_congr {s t : State} {T : Option HTree} (h : RootIs s T) (h1 : t.root = s.root) (h2 : t.node = s.node) : RootIs t T := by
  cases T with
  | none => unfold RootIs at *; rw [h1]; exact h
  | some x =>
    cases x <;> (unfold RootIs at *; rw [h1, h2]; exact h)

/-- A code has at most 255 bits (R22). -/
theorem length_codeBitsOf_le (s : State) (b : Nat) : (codeBitsOf s b).length ≤ 255 := by
  unfold codeBitsOf
  simp only [List.length_map, List.length_range]
  cases h : Table.get s.codeLen b with
  | none => simp
  | some l => have := l.isLt; simp; omega

theorem length_codeStream_le (s : State) : (codeStream s).length ≤ 255 * s.srcLen.toNat := by
  unfold codeStream
  generalize s.srcLen.toNat = n
  induction n with
  | zero => simp
  | succ n ih =>
    rw [List.range_succ, List.flatMap_append, List.length_append]
    have := length_codeBitsOf_le s ((Table.get s.src n).getD 0).toNat
    simp only [List.flatMap_cons, List.flatMap_nil, List.append_nil]
    omega

theorem length_dstBits (s : State) : (dstBits s).length = 8 * s.dstLen.toNat := by
  unfold dstBits
  simp [List.length_flatMap, Nat.mul_comm]

end Sys2Proof.Machine
end

