-- ==== Sys2Proof/Laws/State.lean ====
section
/-!
SUPPORT. One lemma per field for each named update of the state, so that no proof unfolds a record update.
-/

namespace Sys2Proof.Machine

/-! ### State.raised -/

@[simp] theorem State.raised_errKind (s : State) (k : ErrKind) : (s.raised k).errKind = k := rfl
@[simp] theorem State.raised_srcLen (s : State) (k : ErrKind) : (s.raised k).srcLen = s.srcLen := rfl
@[simp] theorem State.raised_dstLen (s : State) (k : ErrKind) : (s.raised k).dstLen = 0 := rfl
@[simp] theorem State.raised_phase (s : State) (k : ErrKind) : (s.raised k).phase = .error := rfl
@[simp] theorem State.raised_n (s : State) (k : ErrKind) : (s.raised k).n = s.n := rfl
@[simp] theorem State.raised_root (s : State) (k : ErrKind) : (s.raised k).root = s.root := rfl
@[simp] theorem State.raised_nint (s : State) (k : ErrKind) : (s.raised k).nint = s.nint := rfl
@[simp] theorem State.raised_nalloc (s : State) (k : ErrKind) : (s.raised k).nalloc = s.nalloc := rfl
@[simp] theorem State.raised_active (s : State) (k : ErrKind) : (s.raised k).active = s.active := rfl
@[simp] theorem State.raised_acc (s : State) (k : ErrKind) : (s.raised k).acc = s.acc := rfl
@[simp] theorem State.raised_nbits (s : State) (k : ErrKind) : (s.raised k).nbits = s.nbits := rfl
@[simp] theorem State.raised_bp (s : State) (k : ErrKind) : (s.raised k).bp = s.bp := rfl
@[simp] theorem State.raised_epos (s : State) (k : ErrKind) : (s.raised k).epos = s.epos := rfl
@[simp] theorem State.raised_count (s : State) (k : ErrKind) : (s.raised k).count = s.count := rfl
@[simp] theorem State.raised_emitted (s : State) (k : ErrKind) : (s.raised k).emitted = s.emitted := rfl
@[simp] theorem State.raised_dnode (s : State) (k : ErrKind) : (s.raised k).dnode = s.dnode := rfl
@[simp] theorem State.raised_dstate (s : State) (k : ErrKind) : (s.raised k).dstate = s.dstate := rfl
@[simp] theorem State.raised_freq (s : State) (k : ErrKind) : (s.raised k).freq = s.freq := rfl
@[simp] theorem State.raised_node (s : State) (k : ErrKind) : (s.raised k).node = s.node := rfl
@[simp] theorem State.raised_codeLen (s : State) (k : ErrKind) : (s.raised k).codeLen = s.codeLen := rfl
@[simp] theorem State.raised_codeBits (s : State) (k : ErrKind) : (s.raised k).codeBits = s.codeBits := rfl
@[simp] theorem State.raised_src (s : State) (k : ErrKind) : (s.raised k).src = s.src := rfl
@[simp] theorem State.raised_dst (s : State) (k : ErrKind) : (s.raised k).dst = s.dst := rfl
@[simp] theorem State.raised_srcCap (s : State) (k : ErrKind) : (s.raised k).srcCap = s.srcCap := rfl
@[simp] theorem State.raised_dstCap (s : State) (k : ErrKind) : (s.raised k).dstCap = s.dstCap := rfl
@[simp] theorem State.raised_host (s : State) (k : ErrKind) : (s.raised k).host = s.host := rfl
@[simp] theorem State.raised_issue (s : State) (k : ErrKind) : (s.raised k).issue = [] := rfl
@[simp] theorem State.raised_ret (s : State) (k : ErrKind) : (s.raised k).ret = s.ret := rfl
@[simp] theorem State.raised_reply (s : State) (k : ErrKind) : (s.raised k).reply = s.reply := rfl
@[simp] theorem State.raised_freeNext (s : State) (k : ErrKind) : (s.raised k).freeNext = s.freeNext := rfl

/-! ### State.runInit -/

@[simp] theorem State.runInit_errKind (s : State) : s.runInit.errKind = .none := rfl
@[simp] theorem State.runInit_srcLen (s : State) : s.runInit.srcLen = s.srcLen := rfl
@[simp] theorem State.runInit_dstLen (s : State) : s.runInit.dstLen = 0 := rfl
@[simp] theorem State.runInit_phase (s : State) : s.runInit.phase = s.phase := rfl
@[simp] theorem State.runInit_n (s : State) : s.runInit.n = 0 := rfl
@[simp] theorem State.runInit_root (s : State) : s.runInit.root = NIL := rfl
@[simp] theorem State.runInit_nint (s : State) : s.runInit.nint = 0 := rfl
@[simp] theorem State.runInit_nalloc (s : State) : s.runInit.nalloc = 0 := rfl
@[simp] theorem State.runInit_active (s : State) : s.runInit.active = [] := rfl
@[simp] theorem State.runInit_acc (s : State) : s.runInit.acc = 0 := rfl
@[simp] theorem State.runInit_nbits (s : State) : s.runInit.nbits = 0 := rfl
@[simp] theorem State.runInit_bp (s : State) : s.runInit.bp = 0 := rfl
@[simp] theorem State.runInit_epos (s : State) : s.runInit.epos = 0 := rfl
@[simp] theorem State.runInit_count (s : State) : s.runInit.count = 0 := rfl
@[simp] theorem State.runInit_emitted (s : State) : s.runInit.emitted = 0 := rfl
@[simp] theorem State.runInit_dnode (s : State) : s.runInit.dnode = 0 := rfl
@[simp] theorem State.runInit_dstate (s : State) : s.runInit.dstate = .atRoot := rfl
@[simp] theorem State.runInit_freq (s : State) : s.runInit.freq = s.freq := rfl
@[simp] theorem State.runInit_node (s : State) : s.runInit.node = s.node := rfl
@[simp] theorem State.runInit_codeLen (s : State) : s.runInit.codeLen = s.codeLen := rfl
@[simp] theorem State.runInit_codeBits (s : State) : s.runInit.codeBits = s.codeBits := rfl
@[simp] theorem State.runInit_src (s : State) : s.runInit.src = s.src := rfl
@[simp] theorem State.runInit_dst (s : State) : s.runInit.dst = s.dst := rfl
@[simp] theorem State.runInit_srcCap (s : State) : s.runInit.srcCap = s.srcCap := rfl
@[simp] theorem State.runInit_dstCap (s : State) : s.runInit.dstCap = s.dstCap := rfl
@[simp] theorem State.runInit_host (s : State) : s.runInit.host = s.host := rfl
@[simp] theorem State.runInit_issue (s : State) : s.runInit.issue = s.issue := rfl
@[simp] theorem State.runInit_ret (s : State) : s.runInit.ret = s.ret := rfl
@[simp] theorem State.runInit_reply (s : State) : s.runInit.reply = s.reply := rfl
@[simp] theorem State.runInit_freeNext (s : State) : s.runInit.freeNext = s.freeNext := rfl

/-! ### State.started -/

@[simp] theorem State.started_errKind (s : State) (p : Phase) : (s.started p).errKind = .none := rfl
@[simp] theorem State.started_srcLen (s : State) (p : Phase) : (s.started p).srcLen = s.srcLen := rfl
@[simp] theorem State.started_dstLen (s : State) (p : Phase) : (s.started p).dstLen = 0 := rfl
@[simp] theorem State.started_phase (s : State) (p : Phase) : (s.started p).phase = p := rfl
@[simp] theorem State.started_n (s : State) (p : Phase) : (s.started p).n = 0 := rfl
@[simp] theorem State.started_root (s : State) (p : Phase) : (s.started p).root = NIL := rfl
@[simp] theorem State.started_nint (s : State) (p : Phase) : (s.started p).nint = 0 := rfl
@[simp] theorem State.started_nalloc (s : State) (p : Phase) : (s.started p).nalloc = 0 := rfl
@[simp] theorem State.started_active (s : State) (p : Phase) : (s.started p).active = [] := rfl
@[simp] theorem State.started_acc (s : State) (p : Phase) : (s.started p).acc = 0 := rfl
@[simp] theorem State.started_nbits (s : State) (p : Phase) : (s.started p).nbits = 0 := rfl
@[simp] theorem State.started_bp (s : State) (p : Phase) : (s.started p).bp = 0 := rfl
@[simp] theorem State.started_epos (s : State) (p : Phase) : (s.started p).epos = 0 := rfl
@[simp] theorem State.started_count (s : State) (p : Phase) : (s.started p).count = 0 := rfl
@[simp] theorem State.started_emitted (s : State) (p : Phase) : (s.started p).emitted = 0 := rfl
@[simp] theorem State.started_dnode (s : State) (p : Phase) : (s.started p).dnode = 0 := rfl
@[simp] theorem State.started_dstate (s : State) (p : Phase) : (s.started p).dstate = .atRoot := rfl
@[simp] theorem State.started_freq (s : State) (p : Phase) : (s.started p).freq = s.freq := rfl
@[simp] theorem State.started_node (s : State) (p : Phase) : (s.started p).node = s.node := rfl
@[simp] theorem State.started_codeLen (s : State) (p : Phase) : (s.started p).codeLen = s.codeLen := rfl
@[simp] theorem State.started_codeBits (s : State) (p : Phase) : (s.started p).codeBits = s.codeBits := rfl
@[simp] theorem State.started_src (s : State) (p : Phase) : (s.started p).src = s.src := rfl
@[simp] theorem State.started_dst (s : State) (p : Phase) : (s.started p).dst = s.dst := rfl
@[simp] theorem State.started_srcCap (s : State) (p : Phase) : (s.started p).srcCap = s.srcCap := rfl
@[simp] theorem State.started_dstCap (s : State) (p : Phase) : (s.started p).dstCap = s.dstCap := rfl
@[simp] theorem State.started_host (s : State) (p : Phase) : (s.started p).host = s.host := rfl
@[simp] theorem State.started_issue (s : State) (p : Phase) : (s.started p).issue = s.issue := rfl
@[simp] theorem State.started_ret (s : State) (p : Phase) : (s.started p).ret = s.ret := rfl
@[simp] theorem State.started_reply (s : State) (p : Phase) : (s.started p).reply = s.reply := rfl
@[simp] theorem State.started_freeNext (s : State) (p : Phase) : (s.started p).freeNext = s.freeNext := rfl

/-! ### State.resetInput -/

@[simp] theorem State.resetInput_errKind (s : State) : s.resetInput.errKind = State.reset.errKind := rfl
@[simp] theorem State.resetInput_srcLen (s : State) : s.resetInput.srcLen = State.reset.srcLen := rfl
@[simp] theorem State.resetInput_dstLen (s : State) : s.resetInput.dstLen = State.reset.dstLen := rfl
@[simp] theorem State.resetInput_phase (s : State) : s.resetInput.phase = State.reset.phase := rfl
@[simp] theorem State.resetInput_n (s : State) : s.resetInput.n = State.reset.n := rfl
@[simp] theorem State.resetInput_root (s : State) : s.resetInput.root = State.reset.root := rfl
@[simp] theorem State.resetInput_nint (s : State) : s.resetInput.nint = State.reset.nint := rfl
@[simp] theorem State.resetInput_nalloc (s : State) : s.resetInput.nalloc = State.reset.nalloc := rfl
@[simp] theorem State.resetInput_active (s : State) : s.resetInput.active = State.reset.active := rfl
@[simp] theorem State.resetInput_acc (s : State) : s.resetInput.acc = State.reset.acc := rfl
@[simp] theorem State.resetInput_nbits (s : State) : s.resetInput.nbits = State.reset.nbits := rfl
@[simp] theorem State.resetInput_bp (s : State) : s.resetInput.bp = State.reset.bp := rfl
@[simp] theorem State.resetInput_epos (s : State) : s.resetInput.epos = State.reset.epos := rfl
@[simp] theorem State.resetInput_count (s : State) : s.resetInput.count = State.reset.count := rfl
@[simp] theorem State.resetInput_emitted (s : State) : s.resetInput.emitted = State.reset.emitted := rfl
@[simp] theorem State.resetInput_dnode (s : State) : s.resetInput.dnode = State.reset.dnode := rfl
@[simp] theorem State.resetInput_dstate (s : State) : s.resetInput.dstate = State.reset.dstate := rfl
@[simp] theorem State.resetInput_freq (s : State) : s.resetInput.freq = State.reset.freq := rfl
@[simp] theorem State.resetInput_node (s : State) : s.resetInput.node = State.reset.node := rfl
@[simp] theorem State.resetInput_codeLen (s : State) : s.resetInput.codeLen = State.reset.codeLen := rfl
@[simp] theorem State.resetInput_codeBits (s : State) : s.resetInput.codeBits = State.reset.codeBits := rfl
@[simp] theorem State.resetInput_src (s : State) : s.resetInput.src = State.reset.src := rfl
@[simp] theorem State.resetInput_dst (s : State) : s.resetInput.dst = State.reset.dst := rfl
@[simp] theorem State.resetInput_srcCap (s : State) : s.resetInput.srcCap = s.srcCap := rfl
@[simp] theorem State.resetInput_dstCap (s : State) : s.resetInput.dstCap = s.dstCap := rfl
@[simp] theorem State.resetInput_host (s : State) : s.resetInput.host = s.host := rfl
@[simp] theorem State.resetInput_issue (s : State) : s.resetInput.issue = State.reset.issue := rfl
@[simp] theorem State.resetInput_ret (s : State) : s.resetInput.ret = State.reset.ret := rfl
@[simp] theorem State.resetInput_reply (s : State) : s.resetInput.reply = State.reset.reply := rfl
@[simp] theorem State.resetInput_freeNext (s : State) : s.resetInput.freeNext = s.freeNext := rfl

/-! ### State.advanced -/

@[simp] theorem State.advanced_errKind (s : State) : s.advanced.errKind = s.errKind := rfl
@[simp] theorem State.advanced_srcLen (s : State) : s.advanced.srcLen = s.srcLen := rfl
@[simp] theorem State.advanced_dstLen (s : State) : s.advanced.dstLen = s.dstLen := rfl
@[simp] theorem State.advanced_phase (s : State) : s.advanced.phase = nextPhase s := rfl
@[simp] theorem State.advanced_n (s : State) : s.advanced.n = s.n := rfl
@[simp] theorem State.advanced_root (s : State) : s.advanced.root = s.root := rfl
@[simp] theorem State.advanced_nint (s : State) : s.advanced.nint = s.nint := rfl
@[simp] theorem State.advanced_nalloc (s : State) : s.advanced.nalloc = s.nalloc := rfl
@[simp] theorem State.advanced_active (s : State) : s.advanced.active = s.active := rfl
@[simp] theorem State.advanced_acc (s : State) : s.advanced.acc = s.acc := rfl
@[simp] theorem State.advanced_nbits (s : State) : s.advanced.nbits = s.nbits := rfl
@[simp] theorem State.advanced_bp (s : State) : s.advanced.bp = s.bp := rfl
@[simp] theorem State.advanced_epos (s : State) : s.advanced.epos = s.epos := rfl
@[simp] theorem State.advanced_count (s : State) : s.advanced.count = s.count := rfl
@[simp] theorem State.advanced_emitted (s : State) : s.advanced.emitted = s.emitted := rfl
@[simp] theorem State.advanced_dnode (s : State) : s.advanced.dnode = s.dnode := rfl
@[simp] theorem State.advanced_dstate (s : State) : s.advanced.dstate = s.dstate := rfl
@[simp] theorem State.advanced_freq (s : State) : s.advanced.freq = s.freq := rfl
@[simp] theorem State.advanced_node (s : State) : s.advanced.node = s.node := rfl
@[simp] theorem State.advanced_codeLen (s : State) : s.advanced.codeLen = s.codeLen := rfl
@[simp] theorem State.advanced_codeBits (s : State) : s.advanced.codeBits = s.codeBits := rfl
@[simp] theorem State.advanced_src (s : State) : s.advanced.src = s.src := rfl
@[simp] theorem State.advanced_dst (s : State) : s.advanced.dst = s.dst := rfl
@[simp] theorem State.advanced_srcCap (s : State) : s.advanced.srcCap = s.srcCap := rfl
@[simp] theorem State.advanced_dstCap (s : State) : s.advanced.dstCap = s.dstCap := rfl
@[simp] theorem State.advanced_host (s : State) : s.advanced.host = s.host := rfl
@[simp] theorem State.advanced_issue (s : State) : s.advanced.issue = s.issue := rfl
@[simp] theorem State.advanced_ret (s : State) : s.advanced.ret = s.ret := rfl
@[simp] theorem State.advanced_reply (s : State) : s.advanced.reply = s.reply := rfl
@[simp] theorem State.advanced_freeNext (s : State) : s.advanced.freeNext = s.freeNext := rfl

/-! ### State.replied -/

@[simp] theorem State.replied_errKind (s : State) (v : Word64) : (s.replied v).errKind = s.errKind := rfl
@[simp] theorem State.replied_srcLen (s : State) (v : Word64) : (s.replied v).srcLen = s.srcLen := rfl
@[simp] theorem State.replied_dstLen (s : State) (v : Word64) : (s.replied v).dstLen = s.dstLen := rfl
@[simp] theorem State.replied_phase (s : State) (v : Word64) : (s.replied v).phase = s.phase := rfl
@[simp] theorem State.replied_n (s : State) (v : Word64) : (s.replied v).n = s.n := rfl
@[simp] theorem State.replied_root (s : State) (v : Word64) : (s.replied v).root = s.root := rfl
@[simp] theorem State.replied_nint (s : State) (v : Word64) : (s.replied v).nint = s.nint := rfl
@[simp] theorem State.replied_nalloc (s : State) (v : Word64) : (s.replied v).nalloc = s.nalloc := rfl
@[simp] theorem State.replied_active (s : State) (v : Word64) : (s.replied v).active = s.active := rfl
@[simp] theorem State.replied_acc (s : State) (v : Word64) : (s.replied v).acc = s.acc := rfl
@[simp] theorem State.replied_nbits (s : State) (v : Word64) : (s.replied v).nbits = s.nbits := rfl
@[simp] theorem State.replied_bp (s : State) (v : Word64) : (s.replied v).bp = s.bp := rfl
@[simp] theorem State.replied_epos (s : State) (v : Word64) : (s.replied v).epos = s.epos := rfl
@[simp] theorem State.replied_count (s : State) (v : Word64) : (s.replied v).count = s.count := rfl
@[simp] theorem State.replied_emitted (s : State) (v : Word64) : (s.replied v).emitted = s.emitted := rfl
@[simp] theorem State.replied_dnode (s : State) (v : Word64) : (s.replied v).dnode = s.dnode := rfl
@[simp] theorem State.replied_dstate (s : State) (v : Word64) : (s.replied v).dstate = s.dstate := rfl
@[simp] theorem State.replied_freq (s : State) (v : Word64) : (s.replied v).freq = s.freq := rfl
@[simp] theorem State.replied_node (s : State) (v : Word64) : (s.replied v).node = s.node := rfl
@[simp] theorem State.replied_codeLen (s : State) (v : Word64) : (s.replied v).codeLen = s.codeLen := rfl
@[simp] theorem State.replied_codeBits (s : State) (v : Word64) : (s.replied v).codeBits = s.codeBits := rfl
@[simp] theorem State.replied_src (s : State) (v : Word64) : (s.replied v).src = s.src := rfl
@[simp] theorem State.replied_dst (s : State) (v : Word64) : (s.replied v).dst = s.dst := rfl
@[simp] theorem State.replied_srcCap (s : State) (v : Word64) : (s.replied v).srcCap = s.srcCap := rfl
@[simp] theorem State.replied_dstCap (s : State) (v : Word64) : (s.replied v).dstCap = s.dstCap := rfl
@[simp] theorem State.replied_host (s : State) (v : Word64) : (s.replied v).host = s.host := rfl
@[simp] theorem State.replied_issue (s : State) (v : Word64) : (s.replied v).issue = s.issue := rfl
@[simp] theorem State.replied_ret (s : State) (v : Word64) : (s.replied v).ret = s.ret := rfl
@[simp] theorem State.replied_reply (s : State) (v : Word64) : (s.replied v).reply = v := rfl
@[simp] theorem State.replied_freeNext (s : State) (v : Word64) : (s.replied v).freeNext = s.freeNext := rfl

/-! ### State.freeRead -/

@[simp] theorem State.freeRead_errKind (s : State) : s.freeRead.errKind = s.errKind := rfl
@[simp] theorem State.freeRead_srcLen (s : State) : s.freeRead.srcLen = s.srcLen := rfl
@[simp] theorem State.freeRead_dstLen (s : State) : s.freeRead.dstLen = s.dstLen := rfl
@[simp] theorem State.freeRead_phase (s : State) : s.freeRead.phase = s.phase := rfl
@[simp] theorem State.freeRead_n (s : State) : s.freeRead.n = s.n := rfl
@[simp] theorem State.freeRead_root (s : State) : s.freeRead.root = s.root := rfl
@[simp] theorem State.freeRead_nint (s : State) : s.freeRead.nint = s.nint := rfl
@[simp] theorem State.freeRead_nalloc (s : State) : s.freeRead.nalloc = s.nalloc := rfl
@[simp] theorem State.freeRead_active (s : State) : s.freeRead.active = s.active := rfl
@[simp] theorem State.freeRead_acc (s : State) : s.freeRead.acc = s.acc := rfl
@[simp] theorem State.freeRead_nbits (s : State) : s.freeRead.nbits = s.nbits := rfl
@[simp] theorem State.freeRead_bp (s : State) : s.freeRead.bp = s.bp := rfl
@[simp] theorem State.freeRead_epos (s : State) : s.freeRead.epos = s.epos := rfl
@[simp] theorem State.freeRead_count (s : State) : s.freeRead.count = s.count := rfl
@[simp] theorem State.freeRead_emitted (s : State) : s.freeRead.emitted = s.emitted := rfl
@[simp] theorem State.freeRead_dnode (s : State) : s.freeRead.dnode = s.dnode := rfl
@[simp] theorem State.freeRead_dstate (s : State) : s.freeRead.dstate = s.dstate := rfl
@[simp] theorem State.freeRead_freq (s : State) : s.freeRead.freq = s.freq := rfl
@[simp] theorem State.freeRead_node (s : State) : s.freeRead.node = s.node := rfl
@[simp] theorem State.freeRead_codeLen (s : State) : s.freeRead.codeLen = s.codeLen := rfl
@[simp] theorem State.freeRead_codeBits (s : State) : s.freeRead.codeBits = s.codeBits := rfl
@[simp] theorem State.freeRead_src (s : State) : s.freeRead.src = s.src := rfl
@[simp] theorem State.freeRead_dst (s : State) : s.freeRead.dst = s.dst := rfl
@[simp] theorem State.freeRead_srcCap (s : State) : s.freeRead.srcCap = s.srcCap := rfl
@[simp] theorem State.freeRead_dstCap (s : State) : s.freeRead.dstCap = s.dstCap := rfl
@[simp] theorem State.freeRead_host (s : State) : s.freeRead.host = s.host := rfl
@[simp] theorem State.freeRead_issue (s : State) : s.freeRead.issue = s.issue := rfl
@[simp] theorem State.freeRead_ret (s : State) : s.freeRead.ret = s.ret := rfl
@[simp] theorem State.freeRead_reply (s : State) : s.freeRead.reply = s.reply := rfl
@[simp] theorem State.freeRead_freeNext (s : State) : s.freeRead.freeNext = s.freeNext + 1 := rfl

/-! ### State.repliedFreeByte -/

@[simp] theorem State.repliedFreeByte_errKind (s : State) : s.repliedFreeByte.errKind = s.errKind := rfl
@[simp] theorem State.repliedFreeByte_srcLen (s : State) : s.repliedFreeByte.srcLen = s.srcLen := rfl
@[simp] theorem State.repliedFreeByte_dstLen (s : State) : s.repliedFreeByte.dstLen = s.dstLen := rfl
@[simp] theorem State.repliedFreeByte_phase (s : State) : s.repliedFreeByte.phase = s.phase := rfl
@[simp] theorem State.repliedFreeByte_n (s : State) : s.repliedFreeByte.n = s.n := rfl
@[simp] theorem State.repliedFreeByte_root (s : State) : s.repliedFreeByte.root = s.root := rfl
@[simp] theorem State.repliedFreeByte_nint (s : State) : s.repliedFreeByte.nint = s.nint := rfl
@[simp] theorem State.repliedFreeByte_nalloc (s : State) : s.repliedFreeByte.nalloc = s.nalloc := rfl
@[simp] theorem State.repliedFreeByte_active (s : State) : s.repliedFreeByte.active = s.active := rfl
@[simp] theorem State.repliedFreeByte_acc (s : State) : s.repliedFreeByte.acc = s.acc := rfl
@[simp] theorem State.repliedFreeByte_nbits (s : State) : s.repliedFreeByte.nbits = s.nbits := rfl
@[simp] theorem State.repliedFreeByte_bp (s : State) : s.repliedFreeByte.bp = s.bp := rfl
@[simp] theorem State.repliedFreeByte_epos (s : State) : s.repliedFreeByte.epos = s.epos := rfl
@[simp] theorem State.repliedFreeByte_count (s : State) : s.repliedFreeByte.count = s.count := rfl
@[simp] theorem State.repliedFreeByte_emitted (s : State) : s.repliedFreeByte.emitted = s.emitted := rfl
@[simp] theorem State.repliedFreeByte_dnode (s : State) : s.repliedFreeByte.dnode = s.dnode := rfl
@[simp] theorem State.repliedFreeByte_dstate (s : State) : s.repliedFreeByte.dstate = s.dstate := rfl
@[simp] theorem State.repliedFreeByte_freq (s : State) : s.repliedFreeByte.freq = s.freq := rfl
@[simp] theorem State.repliedFreeByte_node (s : State) : s.repliedFreeByte.node = s.node := rfl
@[simp] theorem State.repliedFreeByte_codeLen (s : State) : s.repliedFreeByte.codeLen = s.codeLen := rfl
@[simp] theorem State.repliedFreeByte_codeBits (s : State) : s.repliedFreeByte.codeBits = s.codeBits := rfl
@[simp] theorem State.repliedFreeByte_src (s : State) : s.repliedFreeByte.src = s.src := rfl
@[simp] theorem State.repliedFreeByte_dst (s : State) : s.repliedFreeByte.dst = s.dst := rfl
@[simp] theorem State.repliedFreeByte_srcCap (s : State) : s.repliedFreeByte.srcCap = s.srcCap := rfl
@[simp] theorem State.repliedFreeByte_dstCap (s : State) : s.repliedFreeByte.dstCap = s.dstCap := rfl
@[simp] theorem State.repliedFreeByte_host (s : State) : s.repliedFreeByte.host = s.host := rfl
@[simp] theorem State.repliedFreeByte_issue (s : State) : s.repliedFreeByte.issue = s.issue := rfl
@[simp] theorem State.repliedFreeByte_ret (s : State) : s.repliedFreeByte.ret = s.ret := rfl
@[simp] theorem State.repliedFreeByte_reply (s : State) : s.repliedFreeByte.reply = (Config.freeByte s.freeNext).setWidth 64 := rfl
@[simp] theorem State.repliedFreeByte_freeNext (s : State) : s.repliedFreeByte.freeNext = s.freeNext + 1 := rfl

/-! ### State.repliedFreeSrcByte -/

@[simp] theorem State.repliedFreeSrcByte_errKind (s : State) : s.repliedFreeSrcByte.errKind = s.errKind := rfl
@[simp] theorem State.repliedFreeSrcByte_srcLen (s : State) : s.repliedFreeSrcByte.srcLen = s.srcLen := rfl
@[simp] theorem State.repliedFreeSrcByte_dstLen (s : State) : s.repliedFreeSrcByte.dstLen = s.dstLen := rfl
@[simp] theorem State.repliedFreeSrcByte_phase (s : State) : s.repliedFreeSrcByte.phase = s.phase := rfl
@[simp] theorem State.repliedFreeSrcByte_n (s : State) : s.repliedFreeSrcByte.n = s.n := rfl
@[simp] theorem State.repliedFreeSrcByte_root (s : State) : s.repliedFreeSrcByte.root = s.root := rfl
@[simp] theorem State.repliedFreeSrcByte_nint (s : State) : s.repliedFreeSrcByte.nint = s.nint := rfl
@[simp] theorem State.repliedFreeSrcByte_nalloc (s : State) : s.repliedFreeSrcByte.nalloc = s.nalloc := rfl
@[simp] theorem State.repliedFreeSrcByte_active (s : State) : s.repliedFreeSrcByte.active = s.active := rfl
@[simp] theorem State.repliedFreeSrcByte_acc (s : State) : s.repliedFreeSrcByte.acc = s.acc := rfl
@[simp] theorem State.repliedFreeSrcByte_nbits (s : State) : s.repliedFreeSrcByte.nbits = s.nbits := rfl
@[simp] theorem State.repliedFreeSrcByte_bp (s : State) : s.repliedFreeSrcByte.bp = s.bp := rfl
@[simp] theorem State.repliedFreeSrcByte_epos (s : State) : s.repliedFreeSrcByte.epos = s.epos := rfl
@[simp] theorem State.repliedFreeSrcByte_count (s : State) : s.repliedFreeSrcByte.count = s.count := rfl
@[simp] theorem State.repliedFreeSrcByte_emitted (s : State) : s.repliedFreeSrcByte.emitted = s.emitted := rfl
@[simp] theorem State.repliedFreeSrcByte_dnode (s : State) : s.repliedFreeSrcByte.dnode = s.dnode := rfl
@[simp] theorem State.repliedFreeSrcByte_dstate (s : State) : s.repliedFreeSrcByte.dstate = s.dstate := rfl
@[simp] theorem State.repliedFreeSrcByte_freq (s : State) : s.repliedFreeSrcByte.freq = s.freq := rfl
@[simp] theorem State.repliedFreeSrcByte_node (s : State) : s.repliedFreeSrcByte.node = s.node := rfl
@[simp] theorem State.repliedFreeSrcByte_codeLen (s : State) : s.repliedFreeSrcByte.codeLen = s.codeLen := rfl
@[simp] theorem State.repliedFreeSrcByte_codeBits (s : State) : s.repliedFreeSrcByte.codeBits = s.codeBits := rfl
@[simp] theorem State.repliedFreeSrcByte_src (s : State) : s.repliedFreeSrcByte.src = s.src := rfl
@[simp] theorem State.repliedFreeSrcByte_dst (s : State) : s.repliedFreeSrcByte.dst = s.dst := rfl
@[simp] theorem State.repliedFreeSrcByte_srcCap (s : State) : s.repliedFreeSrcByte.srcCap = s.srcCap := rfl
@[simp] theorem State.repliedFreeSrcByte_dstCap (s : State) : s.repliedFreeSrcByte.dstCap = s.dstCap := rfl
@[simp] theorem State.repliedFreeSrcByte_host (s : State) : s.repliedFreeSrcByte.host = s.host := rfl
@[simp] theorem State.repliedFreeSrcByte_issue (s : State) : s.repliedFreeSrcByte.issue = s.issue := rfl
@[simp] theorem State.repliedFreeSrcByte_ret (s : State) : s.repliedFreeSrcByte.ret = s.ret := rfl
@[simp] theorem State.repliedFreeSrcByte_reply (s : State) : s.repliedFreeSrcByte.reply = (Config.freeSrcByte s.freeNext).setWidth 64 := rfl
@[simp] theorem State.repliedFreeSrcByte_freeNext (s : State) : s.repliedFreeSrcByte.freeNext = s.freeNext + 1 := rfl

/-! ### State.repliedFreeLen -/

@[simp] theorem State.repliedFreeLen_errKind (s : State) : s.repliedFreeLen.errKind = s.errKind := rfl
@[simp] theorem State.repliedFreeLen_srcLen (s : State) : s.repliedFreeLen.srcLen = s.srcLen := rfl
@[simp] theorem State.repliedFreeLen_dstLen (s : State) : s.repliedFreeLen.dstLen = s.dstLen := rfl
@[simp] theorem State.repliedFreeLen_phase (s : State) : s.repliedFreeLen.phase = s.phase := rfl
@[simp] theorem State.repliedFreeLen_n (s : State) : s.repliedFreeLen.n = s.n := rfl
@[simp] theorem State.repliedFreeLen_root (s : State) : s.repliedFreeLen.root = s.root := rfl
@[simp] theorem State.repliedFreeLen_nint (s : State) : s.repliedFreeLen.nint = s.nint := rfl
@[simp] theorem State.repliedFreeLen_nalloc (s : State) : s.repliedFreeLen.nalloc = s.nalloc := rfl
@[simp] theorem State.repliedFreeLen_active (s : State) : s.repliedFreeLen.active = s.active := rfl
@[simp] theorem State.repliedFreeLen_acc (s : State) : s.repliedFreeLen.acc = s.acc := rfl
@[simp] theorem State.repliedFreeLen_nbits (s : State) : s.repliedFreeLen.nbits = s.nbits := rfl
@[simp] theorem State.repliedFreeLen_bp (s : State) : s.repliedFreeLen.bp = s.bp := rfl
@[simp] theorem State.repliedFreeLen_epos (s : State) : s.repliedFreeLen.epos = s.epos := rfl
@[simp] theorem State.repliedFreeLen_count (s : State) : s.repliedFreeLen.count = s.count := rfl
@[simp] theorem State.repliedFreeLen_emitted (s : State) : s.repliedFreeLen.emitted = s.emitted := rfl
@[simp] theorem State.repliedFreeLen_dnode (s : State) : s.repliedFreeLen.dnode = s.dnode := rfl
@[simp] theorem State.repliedFreeLen_dstate (s : State) : s.repliedFreeLen.dstate = s.dstate := rfl
@[simp] theorem State.repliedFreeLen_freq (s : State) : s.repliedFreeLen.freq = s.freq := rfl
@[simp] theorem State.repliedFreeLen_node (s : State) : s.repliedFreeLen.node = s.node := rfl
@[simp] theorem State.repliedFreeLen_codeLen (s : State) : s.repliedFreeLen.codeLen = s.codeLen := rfl
@[simp] theorem State.repliedFreeLen_codeBits (s : State) : s.repliedFreeLen.codeBits = s.codeBits := rfl
@[simp] theorem State.repliedFreeLen_src (s : State) : s.repliedFreeLen.src = s.src := rfl
@[simp] theorem State.repliedFreeLen_dst (s : State) : s.repliedFreeLen.dst = s.dst := rfl
@[simp] theorem State.repliedFreeLen_srcCap (s : State) : s.repliedFreeLen.srcCap = s.srcCap := rfl
@[simp] theorem State.repliedFreeLen_dstCap (s : State) : s.repliedFreeLen.dstCap = s.dstCap := rfl
@[simp] theorem State.repliedFreeLen_host (s : State) : s.repliedFreeLen.host = s.host := rfl
@[simp] theorem State.repliedFreeLen_issue (s : State) : s.repliedFreeLen.issue = s.issue := rfl
@[simp] theorem State.repliedFreeLen_ret (s : State) : s.repliedFreeLen.ret = s.ret := rfl
@[simp] theorem State.repliedFreeLen_reply (s : State) : s.repliedFreeLen.reply = Config.freeLen s.freeNext := rfl
@[simp] theorem State.repliedFreeLen_freeNext (s : State) : s.repliedFreeLen.freeNext = s.freeNext + 1 := rfl

/-! ### atRoot -/

@[simp] theorem atRoot_errKind (s : State) : (atRoot s).errKind = s.errKind := rfl
@[simp] theorem atRoot_srcLen (s : State) : (atRoot s).srcLen = s.srcLen := rfl
@[simp] theorem atRoot_dstLen (s : State) : (atRoot s).dstLen = s.dstLen := rfl
@[simp] theorem atRoot_phase (s : State) : (atRoot s).phase = s.phase := rfl
@[simp] theorem atRoot_n (s : State) : (atRoot s).n = s.n := rfl
@[simp] theorem atRoot_root (s : State) : (atRoot s).root = s.root := rfl
@[simp] theorem atRoot_nint (s : State) : (atRoot s).nint = s.nint := rfl
@[simp] theorem atRoot_nalloc (s : State) : (atRoot s).nalloc = s.nalloc := rfl
@[simp] theorem atRoot_active (s : State) : (atRoot s).active = s.active := rfl
@[simp] theorem atRoot_acc (s : State) : (atRoot s).acc = s.acc := rfl
@[simp] theorem atRoot_nbits (s : State) : (atRoot s).nbits = s.nbits := rfl
@[simp] theorem atRoot_bp (s : State) : (atRoot s).bp = s.bp := rfl
@[simp] theorem atRoot_epos (s : State) : (atRoot s).epos = s.epos := rfl
@[simp] theorem atRoot_count (s : State) : (atRoot s).count = s.count := rfl
@[simp] theorem atRoot_emitted (s : State) : (atRoot s).emitted = s.emitted := rfl
@[simp] theorem atRoot_dnode (s : State) : (atRoot s).dnode = s.root := rfl
@[simp] theorem atRoot_dstate (s : State) : (atRoot s).dstate = .atRoot := rfl
@[simp] theorem atRoot_freq (s : State) : (atRoot s).freq = s.freq := rfl
@[simp] theorem atRoot_node (s : State) : (atRoot s).node = s.node := rfl
@[simp] theorem atRoot_codeLen (s : State) : (atRoot s).codeLen = s.codeLen := rfl
@[simp] theorem atRoot_codeBits (s : State) : (atRoot s).codeBits = s.codeBits := rfl
@[simp] theorem atRoot_src (s : State) : (atRoot s).src = s.src := rfl
@[simp] theorem atRoot_dst (s : State) : (atRoot s).dst = s.dst := rfl
@[simp] theorem atRoot_srcCap (s : State) : (atRoot s).srcCap = s.srcCap := rfl
@[simp] theorem atRoot_dstCap (s : State) : (atRoot s).dstCap = s.dstCap := rfl
@[simp] theorem atRoot_host (s : State) : (atRoot s).host = s.host := rfl
@[simp] theorem atRoot_issue (s : State) : (atRoot s).issue = s.issue := rfl
@[simp] theorem atRoot_ret (s : State) : (atRoot s).ret = s.ret := rfl
@[simp] theorem atRoot_reply (s : State) : (atRoot s).reply = s.reply := rfl
@[simp] theorem atRoot_freeNext (s : State) : (atRoot s).freeNext = s.freeNext := rfl

end Sys2Proof.Machine
end

