-- ==== Sys2Proof/Tests/Slice0.lean ====
section
/-!
SUPPORT. Small tests of one step each, the checks of WellFormed, words written out from the spec's encodings, and a witness
for every statement that has hypotheses. Expected results are those of 95_test_vectors.md (S1 to S42) or of the rule named.
-/

namespace Sys2Proof.Tests

open Sys2Proof Sys2Proof.Machine

-- One theorem after another: each waits for the kernel, and waiting threads would hold memory.
set_option Elab.async false

/-! ### Small states -/

/-- A byte space that holds these bytes from index 0 on. -/
def bytesAt (bs : List Nat) : Memory := bs.zipIdx.map fun p => (p.2, BitVec.ofNat 8 p.1)

/-- The block with an input placed. -/
def withSrc (bs : List Nat) : State :=
  { State.reset with src := bytesAt bs, srcLen := BitVec.ofNat 64 bs.length, srcCap := 4096, dstCap := 4096 }

/-- `FREQ` with these (symbol, count) pairs and 0 elsewhere. -/
def freqOf (l : List (Nat × Nat)) : Table Word64 :=
  l.foldl (fun t p => Table.set t p.1 (BitVec.ofNat 64 p.2)) (Table.fill 256 0)

/-- The block with a frequency table. -/
def withFreq (l : List (Nat × Nat)) : State := { withSrc [] with freq := freqOf l }

/-- The table of S1: "abracadabra". -/
def abra : List (Nat × Nat) := [(0x61, 5), (0x62, 2), (0x63, 1), (0x64, 1), (0x72, 2)]

/-- The tree of S11 (N = 1). -/
def oneLeaf : State :=
  { withSrc [] with
    node := [(0x41, .leaf 0x41 10000), (256, .internal 10000 0x41 511)], n := 1, nint := 1, root := 256, active := [256] }

/-- The tree of S18 as TB_BUILD leaves it: `NODE[256] = (0x41, 0x42) 2`. -/
def treeAB : State :=
  { withSrc [] with
    node := [(0x41, .leaf 0x41 1), (0x42, .leaf 0x42 1), (256, .internal 2 0x41 0x42)]
    n := 2, nint := 1, root := 256, active := [256] }

/-- The tree of S21 as TB_DES leaves it, with an input. -/
def parsedAB (bs : List Nat) : State :=
  { withSrc bs with
    node := [(0, .internal 0 1 2), (1, .leaf 0x41 0), (2, .leaf 0x42 0)], nalloc := 3, root := 0 }

/-- The tree of S20, whose root has an absent child, with an input. -/
def parsedOne (bs : List Nat) : State :=
  { withSrc bs with node := [(0, .leaf 0x41 0), (1, .internal 0 0 511)], nalloc := 2, root := 1 }

/-- The codebook of S39: A = 0, B = 1. -/
def codesAB (bs : List Nat) : State :=
  { withSrc bs with
    codeLen := [(0x41, 1), (0x42, 1)], codeBits := [(0x41, leftAligned [false]), (0x42, leftAligned [true])] }

/-- "ABC" where C has no code, with no room: the codes of A and B are two bits. -/
def uncodedAt2 : State :=
  { withSrc [0x41, 0x42, 0x43] with
    codeLen := [(0x41, 1), (0x42, 1), (0x43, 0)], codeBits := [(0x41, leftAligned [false]), (0x42, leftAligned [true])]
    dstCap := 0 }

/-- A next state that passes a check. -/
def holds (o : Host.Outcome State Fault Refusal) (p : State → Bool) : Bool :=
  match o with
  | .next t => p t
  | .fault _ => false
  | .refused _ => false

/-- Stopped with a fault. -/
def faults (o : Host.Outcome State Fault Refusal) (f : Fault) : Bool :=
  match o with
  | .next _ => false
  | .fault g => g == f
  | .refused _ => false

/-- Stopped with a refusal. -/
def refuses (o : Host.Outcome State Fault Refusal) (r : Refusal) : Bool :=
  match o with
  | .next _ => false
  | .fault _ => false
  | .refused q => q == r

/-- The decoder rejects. -/
def rejects (r : Except DecodeError (Instr × List Bit)) (e : DecodeError) : Bool :=
  match r with
  | .ok _ => false
  | .error d => d == e

/-- The decoder answers an operation and leaves no bit. -/
def reads (r : Except DecodeError (Instr × List Bit)) (i : Instr) : Bool :=
  match r with
  | .ok (j, rest) => j == i && rest == []
  | .error _ => false

/-- What `holds` gives as a statement about a next state. -/
theorem exists_next_of_holds {o : Host.Outcome State Fault Refusal} {p : State → Bool} (h : holds o p = true) :
    ∃ t, o = .next t ∧ p t = true := by
  cases o with
  | next t => exact ⟨t, rfl, h⟩
  | fault => cases h
  | refused => cases h

/-! ### WellFormed: one ill-formed term for each check -/

theorem test_wellFormed_putn_count : (Instr.bwPutn 0 0).wellFormed = false := by decide
theorem test_wellFormed_putn_value : (Instr.bwPutn 3 8).wellFormed = false := by decide
theorem test_wellFormed_getn_zero : (Instr.brGetn 0).wellFormed = false := by decide
theorem test_wellFormed_getn_many : (Instr.brGetn 65).wellFormed = false := by decide
theorem test_wellFormed_code_empty : (Instr.fCode []).wellFormed = false := by decide
theorem test_wellFormed_code_long : (Instr.fCode (List.replicate 256 true)).wellFormed = false := by decide +kernel
theorem test_wellFormed_pad_long : (Instr.fPad (List.replicate 8 false)).wellFormed = false := by decide

/-! ### Decoding, from words written out bit by bit -/

/-- 30_encoding.md R72. -/
theorem test_decode_commands :
    decodeTableWord 8 0b00000001 = some .compress ∧ decodeTableWord 8 0b00000010 = some .decompress ∧
    rejects (decode .cmd [false, false, false, false, false, false, false, false]) .reservedCommand = true ∧
    rejects (decode .cmd [false, false, false, false, false, false, true, true]) .reservedCommand = true := by decide

/-- R75, `UOPSEL` 0 to 2: frequency_counter. -/
theorem test_decode_counter :
    decodeTableWord 5 0b00000 = some .fcClear ∧ decodeTableWord 5 0b00010 = some .fcScan ∧
    reads (decode .uop [false, false, false, false, true, false, true, false, false, false, false, false, true])
      (.fcCount 0x41) = true := by decide

/-- R75, `UOPSEL` 3 to 7: tree_builder. -/
theorem test_decode_builder :
    decodeTableWord 5 0b00011 = some .tbInit ∧ decodeTableWord 5 0b00100 = some .tbMerge ∧
    decodeTableWord 5 0b00101 = some .tbBuild ∧ decodeTableWord 5 0b00110 = some .tbSer ∧
    decodeTableWord 5 0b00111 = some .tbDes := by decide

/-- R75, `UOPSEL` 8: canonical_codebook_generator. -/
theorem test_decode_codebook : decodeTableWord 5 0b01000 = some .cbGen := by decide

/-- R75, `UOPSEL` 9 to 14: bitstream_packer. -/
theorem test_decode_packer :
    decodeTableWord 5 0b01001 = some .bwReset ∧ decodeTableWord 5 0b01100 = some .bwAlign ∧
    decodeTableWord 5 0b01101 = some .bwFlush ∧
    reads (decode .uop [false, true, false, true, false, true]) (.bwPut true) = true ∧
    reads (decode .uop [false, true, true, true, false, true, true, false, true, false, false, false, false])
      (.bwPutbyte 0xD0) = true := by decide

/-- BW_PUTN(3, 0b110): `UOPSEL` 11, `n - 1` = 2, then the value in 255 bits (log 14). -/
theorem test_decode_putn :
    reads (decode .uop ([false, true, false, true, true, false, false, false, false, false, false, true, false] ++
      List.replicate 252 false ++ [true, true, false])) (.bwPutn 3 6) = true := by decide +kernel

/-- R75, `UOPSEL` 15 to 19: bitstream_unpacker. -/
theorem test_decode_unpacker :
    decodeTableWord 5 0b01111 = some .brReset ∧ decodeTableWord 5 0b10000 = some .brGet ∧
    decodeTableWord 5 0b10010 = some .brAlign ∧ decodeTableWord 5 0b10011 = some .brGetbyte ∧
    reads (decode .uop [true, false, false, false, true, false, false, false, false, true, true, true])
      (.brGetn 8) = true ∧
    rejects (decode .uop [true, false, false, false, true, true, false, false, false, false, false, false])
      .countOutOfRange = true := by decide

/-- R75, `UOPSEL` 20 to 26: huffman_encoder. -/
theorem test_decode_encoder :
    decodeTableWord 5 0b10100 = some .encCount ∧ decodeTableWord 5 0b10101 = some .encBuild ∧
    decodeTableWord 5 0b10110 = some .encCodebook ∧ decodeTableWord 5 0b10111 = some .encTree ∧
    decodeTableWord 5 0b11000 = some .encLen ∧ decodeTableWord 5 0b11001 = some .encCodes ∧
    decodeTableWord 5 0b11010 = some .encFlush := by decide

/-- R75, `UOPSEL` 27 to 30: huffman_decoder; 31 is none. -/
theorem test_decode_decoder :
    decodeTableWord 5 0b11011 = some .decTree ∧ decodeTableWord 5 0b11100 = some .decLen ∧
    decodeTableWord 5 0b11101 = some .decSymbol ∧ decodeTableWord 5 0b11110 = some .decSymbols ∧
    decodeTableWord 5 0b11111 = none := by decide

/-- R62, R63, R64, R67, R68, R66; the tree bits of V2 and the length of V3. -/
theorem test_decode_container :
    decode .presence [false] = .ok (.tEmpty, []) ∧ decode .presence [true] = .ok (.tPresent, []) ∧
    decode .node [true, false, true, false, false, false, false, false, true] = .ok (.nLeaf 0x41, []) ∧
    decode .node [false] = .ok (.nInternal, []) ∧
    decode .length (List.replicate 50 false ++ [true, false, false, true, true, true, false, false, false, true, false,
      false, false, false]) = .ok (.fLength 10000, []) ∧
    decode (.code 3) [true, true, false] = .ok (.fCode [true, true, false], []) ∧
    decode (.pad 4) [false, false, false, false] = .ok (.fPad [false, false, false, false], []) := by decide

/-! ### The host, the commands, reset -/

/-- R72, R200, R252. -/
theorem test_compress_starts :
    holds (step { withSrc [0x41] with host := [.writeReg 0 1], dstLen := 9, errKind := .truncatedBitstream, phase := .error })
      (fun t => t.phase == .eCount && t.dstLen == 0 && t.errKind == .none && statusByte t == 0x01#8) = true := by decide

/-- R202. -/
theorem test_compress_ignored_while_busy :
    exec .compress { withSrc [0x41] with phase := .dLen } = .next { withSrc [0x41] with phase := .dLen } := by rfl

/-- R201. -/
theorem test_decompress_starts :
    holds (step { withSrc [0x00] with host := [.writeReg 0 2] }) (fun t => t.phase == .dTree && t.bp == 0) = true := by
  decide

/-- R73: `STATUS` after UnreachableSymbol is 0x0F. -/
theorem test_status_of_error :
    statusByte ((withSrc []).raised .unreachableSymbol) = 0x0F#8 := by decide

/-- R250, U22: reset keeps nothing of SRC. -/
theorem test_reset_clears :
    holds (step { parsedAB [0xA8] with host := [.reset], phase := .dLen, bp := 20 })
      (fun t => t.phase == .idle && t.root == NIL && t.bp == 0 && t.srcLen == 0 && t.src == [] && t.node == []) = true := by
  decide

/-! ### frequency_counter -/

/-- S1, on the first three bytes. -/
theorem test_fcScan :
    holds (exec .fcScan (withSrc [0x61, 0x62, 0x61])) (fun t => Table.get t.freq 0x61 == some 2 &&
      Table.get t.freq 0x62 == some 1 && Table.get t.freq 0 == some 0 && t.epos == 3) = true := by decide +kernel

/-- S2. -/
theorem test_fcScan_empty :
    holds (exec .fcScan (withSrc [])) (fun t => Table.get t.freq 255 == some 0 && t.epos == 0) = true := by decide +kernel

/-- S3. -/
theorem test_fcCount_last :
    holds (exec (.fcCount 0xFF) (withFreq [])) (fun t => Table.get t.freq 0xFF == some 1 && Table.get t.freq 0 == some 0) =
      true := by decide +kernel

/-- S4. -/
theorem test_fcCount_wide :
    holds (exec (.fcCount 0x41) (withFreq [(0x41, 2 ^ 32 - 1)])) (fun t => Table.get t.freq 0x41 == some 0x100000000) =
      true := by decide +kernel

/-- S5. -/
theorem test_fcClear :
    holds (exec .fcClear (withFreq abra)) (fun t => (List.range 256).all fun b => Table.get t.freq b == some 0) = true := by
  decide +kernel

/-! ### tree_builder -/

/-- S6. -/
theorem test_tbInit :
    holds (exec .tbInit (withFreq abra)) (fun t => t.n == 5 && t.active == [0x61, 0x62, 0x63, 0x64, 0x72] &&
      t.node == [(0x61, .leaf 0x61 5), (0x62, .leaf 0x62 2), (0x63, .leaf 0x63 1), (0x64, .leaf 0x64 1),
        (0x72, .leaf 0x72 2)] && t.root == NIL) = true := by decide +kernel

/-- S13: a Leaf and an Internal node of equal frequency, the Leaf first. -/
theorem test_tbMerge_leaf_first :
    holds (exec .tbMerge { withSrc [] with
        node := [(0x43, .leaf 0x43 2), (256, .internal 2 0x41 0x42)], active := [0x43, 256], nint := 1 })
      (fun t => Table.get t.node 257 == some (.internal 4 0x43 256) && t.active == [257] && t.nint == 2) = true := by decide

/-- S15: an Internal node lighter than a Leaf goes left. -/
theorem test_tbMerge_lighter_left :
    holds (exec .tbMerge { withSrc [] with
        node := [(0x69, .leaf 0x69 4), (0x73, .leaf 0x73 4), (256, .internal 3 0x6D 0x70)], active := [0x69, 0x73, 256], nint := 1 })
      (fun t => Table.get t.node 257 == some (.internal 7 256 0x69) && t.active == [0x73, 257]) = true := by decide

/-- S7 to S10. -/
theorem test_tbBuild :
    holds (exec .tbBuild (withFreq abra)) (fun t => t.root == 259 && Table.get t.node 256 == some (.internal 2 0x63 0x64) &&
      Table.get t.node 257 == some (.internal 4 0x62 0x72) && Table.get t.node 258 == some (.internal 6 256 257) &&
      Table.get t.node 259 == some (.internal 11 0x61 258) && t.active == [259] && t.nint == 4) = true := by decide +kernel

/-- S11. -/
theorem test_tbBuild_one :
    holds (exec .tbBuild (withFreq [(0x41, 10000)])) (fun t => t.n == 1 && t.node == oneLeaf.node && t.root == 256 &&
      t.nint == 1) = true := by decide +kernel

/-- S17. -/
theorem test_tbSer_one :
    holds (exec .tbSer oneLeaf) (fun t => t.dst == [(0, 0xD0)] && t.acc == 0x40 && t.nbits == 2) = true := by decide

/-- S18. -/
theorem test_tbSer :
    holds (exec .tbSer treeAB) (fun t => t.dst == [(0, 0xA8), (1, 0x34)] && t.acc == 0x20 && t.nbits == 4) = true := by decide

/-- S20. -/
theorem test_tbDes_one :
    holds (exec .tbDes (withSrc [0xD0, 0x40])) (fun t => t.node == (parsedOne []).node && t.root == 1 && t.nalloc == 2 &&
      t.bp == 10) = true := by decide +kernel

/-- S24, M2. -/
theorem test_tbDes_short :
    holds (exec .tbDes (withSrc [0xA8])) (fun t => t.errKind == .malformedContainer && t.phase == .error && t.dstLen == 0) =
      true := by decide +kernel

/-! ### canonical_codebook_generator -/

/-- S26. -/
theorem test_cbGen_one :
    holds (exec .cbGen oneLeaf) (fun t => Table.get t.codeLen 0x41 == some 1 && Table.get t.codeLen 0x42 == some 0 &&
      Table.get t.codeBits 0x41 == some 0) = true := by decide +kernel

/-- S39, ENC_CODEBOOK. -/
theorem test_encCodebook :
    holds (exec .encCodebook treeAB) (fun t => codeBitsOf t 0x41 == [false] && codeBitsOf t 0x42 == [true] &&
      Table.get t.codeLen 0 == some 0) = true := by decide +kernel

/-! ### bitstream_packer -/

/-- S28, the first seven bits and the eighth. -/
theorem test_bwPut_eighth :
    holds (exec (.bwPut false) { withSrc [] with acc := 0xD0, nbits := 7 })
      (fun t => t.dst == [(0, 0xD0)] && t.dstLen == 1 && t.acc == 0 && t.nbits == 0) = true := by decide

/-- S29. -/
theorem test_bwPut_first :
    holds (exec (.bwPut true) { withSrc [] with acc := 0x00, nbits := 1 }) (fun t => t.acc == 0x40 && t.nbits == 2) = true := by
  decide

/-- S31. -/
theorem test_bwPutn :
    holds (exec (.bwPutn 8 0x41) { withSrc [] with acc := 0xA0, nbits := 3 })
      (fun t => t.dst == [(0, 0xA8)] && t.acc == 0x20 && t.nbits == 3) = true := by decide +kernel

/-- S29. -/
theorem test_bwAlign :
    holds (exec .bwAlign { withSrc [] with acc := 0x40, nbits := 2, dstLen := 1 })
      (fun t => t.dst == [(1, 0x40)] && t.dstLen == 2 && t.nbits == 0) = true := by decide

/-- S30. -/
theorem test_bwFlush_aligned : exec .bwFlush (withSrc []) = .next (withSrc []) := by rfl

/-- R145. -/
theorem test_bwPutbyte :
    holds (exec (.bwPutbyte 0x27) { withSrc [] with dstLen := 8 }) (fun t => t.dst == [(8, 0x27)] && t.dstLen == 9) = true := by
  decide

/-- R140. -/
theorem test_bwReset :
    holds (exec .bwReset { withSrc [] with acc := 0xA0, nbits := 3, dstLen := 7 })
      (fun t => t.acc == 0 && t.nbits == 0 && t.dstLen == 0) = true := by decide

/-- R42, U9. -/
theorem test_dst_full :
    refuses (exec (.bwPutbyte 0) { withSrc [] with dstLen := 2, dstCap := 2 }) .dstFull = true := by decide

/-! ### bitstream_unpacker -/

/-- R150. -/
theorem test_brReset : holds (exec .brReset { withSrc [] with bp := 9 }) (fun t => t.bp == 0) = true := by decide

/-- S34, the tenth BR_GET. -/
theorem test_brGet : holds (exec .brGet { withSrc [0xD0, 0x40] with bp := 9 }) (fun t => t.ret == 1 && t.bp == 10) = true := by
  decide

/-- S38: past the end there is no bit. -/
theorem test_brGet_exhausted : faults (exec .brGet { withSrc [0xD0] with bp := 8 }) .srcOutOfRange = true := by decide

/-- S37. -/
theorem test_brGetn :
    holds (exec (.brGetn 8) { withSrc [0xA8, 0x34] with bp := 3 }) (fun t => t.ret == 0x41 && t.bp == 11) = true := by
  decide +kernel

/-- S34. -/
theorem test_brAlign : holds (exec .brAlign { withSrc [] with bp := 10 }) (fun t => t.bp == 16) = true := by decide

/-- S35. -/
theorem test_brAlign_aligned : holds (exec .brAlign { withSrc [] with bp := 16 }) (fun t => t.bp == 16) = true := by decide

/-- S36, the seventh byte. -/
theorem test_brGetbyte :
    holds (exec .brGetbyte { withSrc [0xD0, 0x40, 0x27] with bp := 16 }) (fun t => t.ret == 0x27 && t.bp == 24) = true := by
  decide

/-! ### huffman_encoder -/

/-- S39, ENC_COUNT. -/
theorem test_encCount :
    holds (exec .encCount (withSrc [0x41, 0x42])) (fun t => Table.get t.freq 0x41 == some 1 &&
      Table.get t.freq 0x42 == some 1 && t.epos == 2) = true := by decide +kernel

/-- S39, ENC_BUILD. -/
theorem test_encBuild :
    holds (exec .encBuild (withFreq [(0x41, 1), (0x42, 1)])) (fun t => t.n == 2 && t.node == treeAB.node && t.root == 256 &&
      t.nint == 1) = true := by decide +kernel

/-- S39, ENC_TREE. -/
theorem test_encTree :
    holds (exec .encTree treeAB) (fun t => t.dst == [(0, 0xA8), (1, 0x34), (2, 0x20)] && t.dstLen == 3 && t.nbits == 0) =
      true := by decide

/-- S40, ENC_TREE of the empty input. -/
theorem test_encTree_empty :
    holds (exec .encTree (withSrc [])) (fun t => t.dst == [(0, 0x00)] && t.dstLen == 1) = true := by decide

/-- S39, ENC_LEN, with a length that shows the byte order (V3: 10000 = 0x2710). -/
theorem test_encLen :
    holds (exec .encLen { withSrc [] with srcLen := 10000, dstLen := 2 }) (fun t => t.dst == [(2, 0), (3, 0), (4, 0), (5, 0),
      (6, 0), (7, 0), (8, 0x27), (9, 0x10)] && t.dstLen == 10) = true := by decide

/-- S39, ENC_CODES. -/
theorem test_encCodes :
    holds (exec .encCodes (codesAB [0x41, 0x42])) (fun t => t.acc == 0x40 && t.nbits == 2 && t.epos == 2) = true := by
  decide +kernel

/-- R167, U8. -/
theorem test_encCodes_no_code :
    refuses (exec .encCodes { withSrc [0x43] with codeLen := [(0x43, 0)] }) .noCode = true := by decide

/-- S39, ENC_FLUSH. -/
theorem test_encFlush :
    holds (exec .encFlush { withSrc [] with acc := 0x40, nbits := 2, dstLen := 11 })
      (fun t => t.dst == [(11, 0x40)] && t.dstLen == 12) = true := by decide

/-! ### huffman_decoder -/

/-- S41, DEC_TREE. -/
theorem test_decTree :
    holds (exec .decTree (withSrc [0xA8, 0x34, 0x20])) (fun t => t.node == (parsedAB []).node && t.root == 0 &&
      t.nalloc == 3 && t.bp == 24) = true := by decide +kernel

/-- S41, DEC_LEN. -/
theorem test_decLen :
    holds (exec .decLen { parsedAB [0xA8, 0x34, 0x20, 0, 0, 0, 0, 0, 0, 0, 2, 0x40] with bp := 24 })
      (fun t => t.count == 2 && t.bp == 88) = true := by decide +kernel

/-- R221, M5: a length other than 0 after the empty tree. -/
theorem test_decLen_empty_tree :
    holds (exec .decLen { withSrc [0, 0, 0, 0, 0, 0, 0, 0, 1] with bp := 8 })
      (fun t => t.errKind == .malformedContainer && t.phase == .error) = true := by decide +kernel

/-- S41, the first DEC_SYMBOL. -/
theorem test_decSymbol :
    holds (exec .decSymbol { parsedAB [0x40] with count := 2 })
      (fun t => t.dst == [(0, 0x41)] && t.emitted == 1 && t.bp == 1 && t.dstate == .atRoot) = true := by decide +kernel

/-- R223. -/
theorem test_decSymbol_unreachable :
    holds (exec .decSymbol (parsedOne [0x80])) (fun t => t.errKind == .unreachableSymbol && t.phase == .error) = true := by
  decide +kernel

/-- S41, DEC_SYMBOLS. -/
theorem test_decSymbols :
    holds (exec .decSymbols { parsedAB [0x40] with count := 2 })
      (fun t => t.dst == [(0, 0x41), (1, 0x42)] && t.dstLen == 2 && t.emitted == 2 && t.bp == 2) = true := by decide +kernel

/-! ### Container elements -/

/-- R62, R182: the empty tree. -/
theorem test_tEmpty : holds (exec .tEmpty (withSrc [0])) (fun t => t.root == NIL && t.bp == 1) = true := by decide

/-- R62. -/
theorem test_tPresent : holds (exec .tPresent (withSrc [0xD0])) (fun t => t.bp == 1) = true := by decide

/-- R110, S20: the Leaf of `NODE[0]`. -/
theorem test_nLeaf :
    holds (exec (.nLeaf 0x41) { withSrc [0xD0, 0x40] with bp := 1 })
      (fun t => t.node == [(0, .leaf 0x41 0)] && t.nalloc == 1 && t.bp == 10) = true := by decide

/-- R110, S21: the Internal marker of `NODE[0]`. -/
theorem test_nInternal :
    holds (exec .nInternal { withSrc [0xA8] with bp := 1 }) (fun t => t.nalloc == 1 && t.bp == 2) = true := by decide

/-- R182. -/
theorem test_fLength :
    holds (exec (.fLength 2) { parsedAB [0xA8, 0x34, 0x20, 0, 0, 0, 0, 0, 0, 0, 2, 0x40] with bp := 24 })
      (fun t => t.count == 2 && t.bp == 88) = true := by decide

/-- R68, S41. -/
theorem test_fCode :
    holds (exec (.fCode [true]) { parsedAB [0x40] with bp := 1, dstLen := 1 })
      (fun t => t.dst == [(1, 0x42)] && t.bp == 2) = true := by decide +kernel

/-- R66, S41: the four pad bits after the tree field. -/
theorem test_fPad :
    holds (exec (.fPad [false, false, false, false]) { parsedAB [0xA8, 0x34, 0x20] with bp := 20, phase := .dTree })
      (fun t => t.bp == 24) = true := by decide

/-- What a check by `holds` says. -/
theorem exists_next {o : Host.Outcome State Fault Refusal} (h : holds o (fun _ => true) = true) : ∃ t, o = .next t := by
  obtain ⟨t, ht, -⟩ := exists_next_of_holds h
  exact ⟨t, ht⟩

/-! ### Witnesses: for every statement with hypotheses, operands and states that meet them, clause by clause -/

/-- A state that meets the invariant, with a command pending. -/
def pending : State := { withSrc [0x41] with host := [.writeReg 0 1] }

theorem test_meets_StateInv : StateInv pending where
  srcWf := by decide
  dstWf := by decide
  freqWf := by decide
  nodeWf := by decide
  codeLenWf := by decide
  codeBitsWf := by decide
  activeWf := by decide
  srcBelow := by
    intro a h
    show a < 4096
    by_contra hn
    have : a ≠ 0 := by omega
    simp [pending, withSrc, bytesAt, Table.get, this] at h
  dstBelow := by intro a h; cases h
  freqBelow := by intro a h; cases h
  nodeBelow := by intro a h; cases h
  codeLenBelow := by intro a h; cases h
  codeBitsBelow := by intro a h; cases h
  activeBelow := by intro i h; cases h
  capsFit := by decide
  srcLenFits := by decide
  dstLenFits := by decide
  nFits := by decide
  nintFits := by decide
  nallocFits := by decide
  accClean := by intro j _ _; simp [pending, withSrc, State.reset, streamBit]
  errKindInError := by decide
  bpFits := by decide
  eposFits := by decide

/-- StepKeepsInvariant, StatusTakesSixValues: the state above steps. -/
theorem test_meets_StepKeepsInvariant : StateInv pending ∧ ∃ t, step pending = .next t :=
  ⟨test_meets_StateInv, _, rfl⟩

/-- DecodeOfEncodeIsIdentity: the ends of the operands' ranges. -/
theorem test_meets_DecodeOfEncodeIsIdentity :
    (Instr.bwPutn 1 1).wellFormed = true ∧ (Instr.bwPutn 255 (BitVec.allOnes 255)).wellFormed = true ∧
    (Instr.brGetn 1).wellFormed = true ∧ (Instr.brGetn 64).wellFormed = true ∧ (Instr.fCode [true]).wellFormed = true ∧
    (Instr.fCode (List.replicate 255 true)).wellFormed = true ∧ (Instr.fPad []).wellFormed = true ∧
    (Instr.fPad (List.replicate 7 false)).wellFormed = true ∧ Instr.compress.wellFormed = true := by decide +kernel

/-- DecodeAcceptsOnlyEncodings: one word at each channel. -/
theorem test_meets_DecodeAcceptsOnlyEncodings :
    decode .cmd [false, false, false, false, false, false, true, false] = .ok (.decompress, []) ∧
    decode .uop [true, true, true, true, false] = .ok (.decSymbols, []) ∧ decode .presence [true] = .ok (.tPresent, []) ∧
    decode .node [false] = .ok (.nInternal, []) ∧ decode (.code 1) [true] = .ok (.fCode [true], []) ∧
    decode (.pad 0) [] = .ok (.fPad [], []) ∧
    decode .length (List.replicate 64 false) = .ok (.fLength 0, []) := by decide

/-- StepRunsTheOperation: a host's action with more to follow, PASS over an issued operation and over a phase, WAIT that is
over and WAIT that is not, a phase whose operation stops (a byte of SRC not placed) and one that is refused (no room). -/
theorem test_meets_StepRunsTheOperation_host :
    (({ withSrc [] with host := [.writeSrc 0 7, .wait] } : State).host = .writeSrc 0 7 :: [.wait] ∧
      HostAction.writeSrc 0 7 ≠ .pass ∧ HostAction.writeSrc 0 7 ≠ .wait) ∧
    (({ withSrc [] with host := [.pass], issue := [.fcClear] } : State).host = .pass :: [] ∧
      ({ withSrc [] with host := [.pass], issue := [.fcClear] } : State).issue = .fcClear :: []) ∧
    (({ withSrc [] with host := [.pass], phase := .eFlush } : State).issue = [] ∧ phaseOp .eFlush = some .encFlush) ∧
    (({ withSrc [] with host := [.wait], phase := .done } : State).host = .wait :: [] ∧
      ({ withSrc [] with host := [.wait], phase := .eFlush } : State).phase ≠ .done) ∧
    (phaseOp .eCount = some .encCount ∧
      exec .encCount { withSrc [] with phase := .eCount, srcLen := 1 } = .fault .srcUnwritten) ∧
    (phaseOp .eLen = some .encLen ∧ exec .encLen { withSrc [] with phase := .eLen, dstCap := 0 } = .refused .dstFull) :=
  ⟨⟨rfl, by decide, by decide⟩, ⟨rfl, rfl⟩, ⟨rfl, rfl⟩, ⟨rfl, by decide⟩, ⟨rfl, rfl⟩, rfl, rfl⟩

/-- WAIT of R76 leaves the `STATUS` byte that ends it in `reply`, and is then over (logs 4, 22). -/
theorem test_wait_over :
    holds (step { withSrc [] with host := [.wait, .reset], phase := .done })
      (fun t => t.reply == 2 && t.host == [.reset]) = true := by decide

/-- StepRunsTheOperation: an issued operation; a command by the low byte of the value; a phase; quiescence; a table word. -/
theorem test_meets_StepRunsTheOperation :
    (({ withSrc [] with issue := [.fcClear, .brReset] } : State).host = [] ∧
      ({ withSrc [] with issue := [.fcClear, .brReset] } : State).issue = .fcClear :: [.brReset]) ∧
    (pending.host = .writeReg 0 1 :: [] ∧
      decode .cmd (bitsOf 8 ((1 : Word64).setWidth 8).toNat) = .ok (.compress, [])) ∧
    decode .cmd (bitsOf 8 ((0x102 : Word64).setWidth 8).toNat) = .ok (.decompress, []) ∧
    (Alone { withSrc [] with phase := .eFlush } ∧ phaseOp .eFlush = some .encFlush ∧
      ∃ t, exec .encFlush { withSrc [] with phase := .eFlush } = .next t) ∧
    (Alone (withSrc []) ∧ busy (withSrc []) = false) ∧
    (decodeTableWord 8 0x1E = some .decSymbols ∧ (withSrc []).issue = []) :=
  ⟨by decide, by decide, by decide, ⟨⟨rfl, rfl⟩, rfl, _, rfl⟩, ⟨⟨rfl, rfl⟩, rfl⟩, by decide, rfl⟩

/-- A state of every phase that steps alone: for E_BUILD the counts are written, for D_TREE there is an input. -/
def inPhase (p : Phase) : State := { withSrc [0x00] with phase := p, freq := freqOf [], srcLen := if p = .dTree then 1 else 0 }

theorem test_meets_PhaseMovesAlongArrows :
    (∀ p ∈ [Phase.idle, .eCount, .eBuild, .eCodebook, .eTree, .eLen, .eCodes, .eFlush, .dTree, .dLen, .dSymbols, .done, .error],
      Alone (inPhase p) ∧ (inPhase p).phase = p ∧ holds (step (inPhase p)) (fun _ => true) = true) ∧
    (busy (withSrc []) = false ∧ (∃ t, exec .compress (withSrc []) = .next t) ∧ ∃ t, exec .decompress (withSrc []) = .next t) := by
  refine ⟨?_, rfl, ⟨_, rfl⟩, _, rfl⟩
  unfold Alone
  decide +kernel

/-- CommandsStartTheirRun: `SRC_LEN` = `SRC_CAP`. -/
theorem test_meets_CommandsStartTheirRun :
    busy { withSrc [0x41] with srcCap := 1 } = false ∧
    ({ withSrc [0x41] with srcCap := 1 } : State).srcLen.toNat ≤ ({ withSrc [0x41] with srcCap := 1 } : State).srcCap := by
  decide

theorem test_meets_CommandsIgnoredWhileBusy :
    busy { withSrc [] with phase := .dSymbols, host := [.writeReg 0 2] } = true ∧
    ({ withSrc [] with phase := .dSymbols, host := [.writeReg 0 2] } : State).host = .writeReg 0 2 :: [] := by decide

/-- ReservedCommandsChangeNothing: the values beside 1 and 2, and the last. -/
theorem test_meets_ReservedCommandsChangeNothing :
    ({ withSrc [] with host := [.writeReg 0 0] } : State).host = .writeReg 0 0 :: [] ∧
    ∀ v ∈ [(0 : Word64), 3, 0xFF], v.setWidth 8 ≠ 0x01#8 ∧ v.setWidth 8 ≠ 0x02#8 := ⟨rfl, by simp⟩

/-- HostAccessWhileBusy: the last byte below `SRC_CAP`. -/
theorem test_meets_HostAccessWhileBusy :
    busy { withSrc [] with phase := .eCount, src := [(4095, 7)] } = true ∧
    (4095 : Word64).toNat < ({ withSrc [] with phase := .eCount, src := [(4095, 7)] } : State).srcCap ∧
    Table.get ({ withSrc [] with phase := .eCount, src := [(4095, 7)] } : State).src (4095 : Word64).toNat = some 7 := by decide

/-- HostAccessOutsideRun: `SRC_LEN` = `SRC_CAP`, the last byte below `SRC_CAP`, the last byte of a result. -/
theorem test_meets_HostAccessOutsideRun :
    busy { withSrc [] with phase := .done, dst := [(0, 5)], dstLen := 1, dstCap := 1 } = false ∧
    (4096 : Word64).toNat ≤ (withSrc []).srcCap ∧ (4095 : Word64).toNat < (withSrc []).srcCap ∧
    (0 : Word64).toNat < (1 : Word64).toNat ∧
    Table.get ({ withSrc [] with phase := .done, dst := [(0, 5)], dstLen := 1, dstCap := 1 } : State).dst 0 = some 5 := by
  decide

/-- HostAccessOutsideRun: the first byte of DST beyond a result and the last below `DST_CAP`; HostAccessWhileBusy too: the
first index at which no byte is, the first register number that is none. -/
theorem test_meets_HostAccessEdges :
    (let s : State := { withSrc [] with phase := .done, dst := [(0, 5)], dstLen := 1, dstCap := 2 };
      busy s = false ∧ (1 : Word64).toNat < s.dstCap ∧ s.dstLen.toNat ≤ (1 : Word64).toNat ∧ s.dstCap ≤ (2 : Word64).toNat) ∧
    (withSrc []).srcCap ≤ (4096 : Word64).toNat ∧ 3 < 4 ∧
    busy { withSrc [] with phase := .dTree } = true := by decide

/-- HostAccessOutsideRun: the host's write of DST lands, in ERROR as well, and is no result (R205). -/
theorem test_writeDst :
    holds (hostAct (.writeDst 1 9) { withSrc [] with phase := .error, errKind := .unreachableSymbol, dstCap := 2 })
      (fun t => t.dst == [(1, 9)] && t.dstLen == 0 && t.phase == .error) = true := by decide

/-- HostAccessWhileBusy, HostAccessOutsideRun: the last byte below `SRC_CAP`, not placed; at `SRC_CAP` there is none (log 31). -/
theorem test_readSrc_unplaced :
    hostAct (.readSrc 4095) (withSrc []) = .next (withSrc []).repliedFreeSrcByte ∧
    hostAct (.readSrc 4096) (withSrc []) = .fault .srcOutOfRange := ⟨rfl, rfl⟩

/-- A child of a Leaf entry is any value (R20, U24): the free value, and the next one is another. -/
theorem test_readChild_leaf (b : Bit) :
    readChild b (.leaf 0x41 2) (withSrc []) = .ok (Config.freeChild 0) { withSrc [] with freeNext := 1 } := rfl

/-- SrcLenBeyondCapRefused: one more than `SRC_CAP`. -/
theorem test_meets_SrcLenBeyondCapRefused :
    busy { withSrc [0x41] with srcCap := 0 } = false ∧ (withSrc []).srcCap < (4097 : Word64).toNat ∧
    ({ withSrc [0x41] with srcCap := 0 } : State).srcCap < ({ withSrc [0x41] with srcCap := 0 } : State).srcLen.toNat := by
  decide

/-- NoOperationWritesSrc, EncoderNeverRaises, PackingFrame, DecoderFrame, UnitFrames: operations that answer a next state. -/
theorem test_meets_Frames :
    (withSrc [0x00]).dstCap < 2 ^ 64 ∧ (∃ t, exec .compress (withSrc [0x00]) = .next t) ∧
    (∃ t, exec .bwAlign (withSrc [0x00]) = .next t) ∧ (∃ t, exec (.bwPut true) (withSrc [0x00]) = .next t) ∧
    (∃ t, exec (.bwPutbyte 1) (withSrc [0x00]) = .next t) ∧ (∃ t, exec .encCodes (withSrc []) = .next t) ∧
    (∃ t, exec .fcClear (withSrc [0x00]) = .next t) ∧ (∃ t, exec .cbGen (withSrc [0x00]) = .next t) ∧
    (∃ t, exec .brReset (withSrc [0x00]) = .next t) ∧ (∃ t, exec .tbDes (withSrc [0x00]) = .next t) ∧
    (∃ t, exec .decTree (withSrc []) = .next t) ∧ ∃ t, exec .decSymbols (withSrc []) = .next t :=
  ⟨by decide, exists_next (by decide), exists_next (by decide), exists_next (by decide), exists_next (by decide),
    exists_next (by decide), exists_next (by decide +kernel), exists_next (by decide +kernel), exists_next (by decide),
    exists_next (by decide), exists_next (by decide), exists_next (by decide)⟩

/-- DecoderFrame: DEC_SYMBOL and F_CODE raise, and DEC_SYMBOLS raises after the eight symbols of a byte. -/
theorem test_meets_DecoderFrame :
    holds (exec .decSymbol (parsedOne [0x80])) (fun t => t.phase == .error) = true ∧
    holds (exec (.fCode [true]) (parsedOne [0x80])) (fun t => t.phase == .error) = true ∧
    holds (exec .decSymbols { parsedAB [0x40] with count := 9 }) (fun t => t.phase == .error && t.emitted == 8) = true := by
  decide +kernel

/-- UnitFrames: TB_MERGE answers a next state in the state of S13. -/
theorem test_meets_UnitFrames :
    ∃ t, exec .tbMerge { withSrc [] with
      node := [(0x43, .leaf 0x43 2), (256, .internal 2 0x41 0x42)], active := [0x43, 256], nint := 1 } = .next t := ⟨_, rfl⟩

/-- FcCountAddsOne: the last symbol, the greatest count. -/
theorem test_meets_FcCountAddsOne :
    Table.get (withFreq [(0xFF, 2 ^ 64 - 1)]).freq (0xFF : Byte).toNat = some (BitVec.allOnes 64) := by decide +kernel

theorem test_meets_FcScanCountsSrc : SrcPlaced (withSrc [0x61, 0x62, 0x72]) ∧ SrcPlaced (withSrc []) := by
  unfold SrcPlaced; decide

/-- TbInitMakesLeaves: the extreme symbols. -/
theorem test_meets_TbInitMakesLeaves :
    FreqWritten (withFreq [(0, 1), (255, 1)]) ∧ freqAt (withFreq [(0, 1), (255, 1)]) 0 ≠ 0 ∧
    freqAt (withFreq [(0, 1), (255, 1)]) 255 ≠ 0 := by unfold FreqWritten; decide +kernel

/-- TbMergeJoinsTwoLeast: the tie of S13, and the last `NINT`. -/
theorem test_meets_TbMergeJoinsTwoLeast :
    let s : State := { withSrc [] with
      node := [(0x43, .leaf 0x43 2), (256, .internal 2 0x41 0x42)], active := [0x43, 256], nint := 254 }
    (∀ i ∈ s.active, i < 511 ∧ (Table.get s.node i).isSome = true) ∧ s.nint.toNat < 255 ∧ 0x43 ∈ s.active ∧ 256 ∈ s.active ∧
    Table.get s.node 0x43 = some (.leaf 0x43 2) ∧ Table.get s.node 256 = some (.internal 2 0x41 0x42) ∧
    (∀ i ∈ s.active, i ≠ 0x43 → KeyBefore s 0x43 i) ∧ (∀ i ∈ s.active, i ≠ 0x43 → i ≠ 256 → KeyBefore s 256 i) := by
  unfold KeyBefore; decide

theorem test_meets_TbBuildOfNothing : FreqWritten (withFreq []) ∧ present (withFreq []) = [] := by
  unfold FreqWritten; decide +kernel

theorem test_meets_TbBuildOfOneSymbol :
    FreqWritten (withFreq [(255, 10000)]) ∧ present (withFreq [(255, 10000)]) = [255] := by unfold FreqWritten; decide +kernel

/-- TbBuildMakesTree: two symbols, the sum of the frequencies the greatest below 2^64. -/
theorem test_meets_TbBuildMakesTree :
    FreqWritten (withFreq [(0, 1), (255, 2 ^ 64 - 2)]) ∧ (present (withFreq [(0, 1), (255, 2 ^ 64 - 2)])).length = 2 ∧
    freqSum (withFreq [(0, 1), (255, 2 ^ 64 - 2)]) < 2 ^ 64 := by unfold FreqWritten; decide +kernel

/-- The tree A, B; the bare Leaf A. -/
def htAB : HTree := .node (.leaf 0x41) (.leaf 0x42)

theorem test_root_treeAB : RootIs treeAB (some htAB) :=
  ⟨by decide, 2, 0x41, 0x42, rfl, ⟨by decide, 1, rfl⟩, by decide, 1, rfl⟩

theorem test_root_oneLeaf : RootIs oneLeaf (some (.leaf 0x41)) := ⟨by decide, ⟨10000, 0x41, rfl, by decide, 10000, rfl⟩⟩

theorem test_root_parsedAB (bs : List Nat) : RootIs (parsedAB bs) (some htAB) :=
  ⟨(by decide : 0 < 511), 0, 1, 2, rfl, ⟨by decide, 0, rfl⟩, by decide, 0, rfl⟩

theorem test_root_parsedOne (bs : List Nat) : RootIs (parsedOne bs) (some (.leaf 0x41)) :=
  ⟨(by decide : (1 : NodeIx) ≠ NIL), ⟨0, 0, rfl, by decide, 0, rfl⟩⟩

/-- TbSerPutsTreeField: no tree with room for nothing but `ACC`, the bare Leaf, two Leaves with exactly the room. -/
theorem test_meets_TbSerPutsTreeField :
    (RootIs { withSrc [] with dstCap := 0 } none ∧ RoomFor { withSrc [] with dstCap := 0 } (treeField none).length) ∧
    (RootIs oneLeaf (some (.leaf 0x41)) ∧ RoomFor oneLeaf (treeField (some (.leaf 0x41))).length) ∧
    (RootIs treeAB (some htAB) ∧ htAB.depth ≤ 255 ∧ RoomFor { treeAB with dstCap := 2 } (treeField (some htAB)).length) := by
  refine ⟨⟨rfl, ?_⟩, ⟨test_root_oneLeaf, ?_⟩, test_root_treeAB, ?_, ?_⟩ <;> (try unfold RoomFor) <;> decide

/-- TbDesInvertsTreeField, DecTreeReadsAlignedField: S22, S20, S21. -/
theorem test_meets_TbDesInvertsTreeField :
    HoldsBits (withSrc [0x00]) 0 (treeField none) ∧ HoldsBits (withSrc [0xD0, 0x40]) 0 (treeField (some (.leaf 0x41))) ∧
    HoldsBits (withSrc [0xA8, 0x34, 0x20]) 0 (treeField (some htAB)) ∧ htAB.size ≤ 511 := by unfold HoldsBits; decide

/-- TbDesRaisesOnShortField: no bit at all (S24, M1), and the eight bits of S24, M2. -/
theorem test_meets_TbDesRaisesOnShortField :
    (treeField none = [] ++ [false] ∧ HoldsBits (withSrc []) 0 [] ∧ srcBits (withSrc []) = 0) ∧
    (treeField (some htAB) = (treeField (some htAB)).take 8 ++ (treeField (some htAB)).drop 8 ∧
      (treeField (some htAB)).drop 8 ≠ [] ∧ HoldsBits (withSrc [0xA8]) 0 ((treeField (some htAB)).take 8) ∧
      srcBits (withSrc [0xA8]) = 0 + ((treeField (some htAB)).take 8).length) := by unfold HoldsBits; decide

/-- `n` bytes placed in SRC, byte `a` being `f a`. -/
def listed (n : Nat) (f : Nat → Byte) : State :=
  { withSrc [] with src := (List.range n).map fun a => (a, f a), srcLen := BitVec.ofNat 64 n }

theorem holdsBits_listed {n : Nat} {f : Nat → Byte} {bs rest : List Bit} (hn : n < 2 ^ 64)
    (h : ((List.range n).flatMap fun a => bitsOf 8 (f a).toNat) = bs ++ rest) : HoldsBits (listed n f) 0 bs := by
  have hl : (BitVec.ofNat 64 n).toNat = n := by rw [BitVec.toNat_ofNat, Nat.mod_eq_of_lt hn]
  have := holdsBits_bytes (s := listed n f) (p := 0) f n rfl
    (by show 0 + 8 * n ≤ 8 * (BitVec.ofNat 64 n).toNat; omega)
    (fun a ha => by
      show Table.get ((List.range n).map fun a => (a, f a)) (0 / 8 + a) = _
      rw [Table.get_map_range, Nat.zero_div, Nat.zero_add, if_pos ha])
  rw [h] at this
  exact (holdsBits_append.1 this).1

/-- A tree of `k` Internal nodes, each the left child of the one above. -/
def leftComb : Nat → HTree
  | 0 => .leaf 0
  | k + 1 => .node (leftComb k) (.leaf 0)

/-- TbDesRaisesOnShortField: 503 Internal markers and the end of SRC, the beginning of a tree of 1007 nodes (M2), and the
same tree's field cut where it asks for its 512th node: 511 markers (M3). -/
theorem test_meets_TbDesRaisesOnShortField_large :
    let f : List Bit := treeField (some (leftComb 503))
    let g : List Bit := treeField (some (leftComb 511))
    (f = f.take 504 ++ f.drop 504 ∧ f.drop 504 ≠ [] ∧ HoldsBits (listed 63 fun a => if a = 0 then 0x80 else 0) 0 (f.take 504) ∧
      srcBits (listed 63 fun a => if a = 0 then 0x80 else 0) = 0 + (f.take 504).length) ∧
    (g = g.take 512 ++ g.drop 512 ∧ g.drop 512 ≠ [] ∧ HoldsBits (listed 64 fun a => if a = 0 then 0x80 else 0) 0 (g.take 512) ∧
      srcBits (listed 64 fun a => if a = 0 then 0x80 else 0) = 0 + (g.take 512).length) :=
  ⟨⟨(List.take_append_drop 504 _).symm, by decide +kernel, holdsBits_listed (rest := []) (by decide) (by decide +kernel),
      by decide +kernel⟩,
    (List.take_append_drop 512 _).symm, by decide +kernel, holdsBits_listed (rest := []) (by decide) (by decide +kernel),
      by decide +kernel⟩

/-- A tree of `k` Internal nodes whose left children are Leaves. -/
def comb : Nat → HTree
  | 0 => .leaf 0
  | k + 1 => .node (.leaf 0) (comb k)

/-- The field of `comb 256`: an Internal and a Leaf marker every ten bits. -/
def combByte (a : Nat) : Byte :=
  if a = 0 then 0xA0 else if a = 320 then 0x40 else if a = 321 then 0
  else if a % 5 = 0 then 0x20 else if a % 5 = 1 then 0x08 else if a % 5 = 2 then 0x02 else if a % 5 = 3 then 0 else 0x80

/-- TbDesRefusesNode512: S24, M3, and a tree of 513 nodes. -/
theorem test_meets_TbDesRefusesNode512 :
    HoldsBits (listed 64 fun a => if a = 0 then 0x80 else 0) 0 (true :: List.replicate 511 false) ∧
    (511 < (comb 256).size ∧ HoldsBits (listed 322 combByte) 0 (treeField (some (comb 256)))) :=
  ⟨holdsBits_listed (rest := []) (by decide) (by decide +kernel), by decide +kernel,
    holdsBits_listed (rest := List.replicate 6 false) (by decide) (by decide +kernel)⟩

/-- CbGenGivesPaths, CodesArePrefixFree: no tree, the bare Leaf, two Leaves, and the generation answers. -/
theorem test_meets_CbGenGivesPaths :
    RootIs (withSrc []) none ∧ RootIs oneLeaf (some (.leaf 0x41)) ∧ (HTree.leaf 0x41).syms.Nodup ∧
    (HTree.leaf 0x41).codeAt [false] = some 0x41 ∧ RootIs treeAB (some htAB) ∧ htAB.depth ≤ 255 ∧ htAB.syms.Nodup ∧
    htAB.codeAt [true] = some 0x42 ∧ ∃ t, exec .cbGen treeAB = .next t :=
  ⟨rfl, test_root_oneLeaf, by decide, by decide, test_root_treeAB, by decide, by decide, by decide, _, rfl⟩

/-- BwPutAppendsBit: `NBITS` 6 and 7, room for one byte, no room. -/
theorem test_meets_BwPutAppendsBit :
    ({ withSrc [] with nbits := 6 } : State).nbits.toNat ≠ 7 ∧
    (({ withSrc [] with nbits := 7, dstCap := 1 } : State).nbits.toNat = 7 ∧
      RoomBytes { withSrc [] with nbits := 7, dstCap := 1 } 1) ∧
    ({ withSrc [] with nbits := 7, dstCap := 0 } : State).dstCap ≤ ({ withSrc [] with nbits := 7, dstCap := 0 } : State).dstLen.toNat := by
  unfold RoomBytes; decide

/-- BwPutnAppendsBits: 1 bit with no room needed, 255 bits with exactly the room. -/
theorem test_meets_BwPutnAppendsBits :
    RoomFor { withSrc [] with dstCap := 0 } (1 : BitVec 8).toNat ∧
    RoomFor { withSrc [] with dstCap := 31 } (255 : BitVec 8).toNat := by unfold RoomFor; decide

/-- AlignWritesPendingByte: aligned; two bits pending (S29). -/
theorem test_meets_AlignWritesPendingByte :
    (withSrc []).nbits = 0 ∧
    (({ withSrc [] with acc := 0x40, nbits := 2, dstCap := 1 } : State).nbits ≠ 0 ∧
      AccClean { withSrc [] with acc := 0x40, nbits := 2, dstCap := 1 } ∧
      RoomBytes { withSrc [] with acc := 0x40, nbits := 2, dstCap := 1 } 1) := by
  refine ⟨rfl, by decide, ?_, by unfold RoomBytes; decide⟩
  intro j h1 h2
  have h1 : 2 ≤ j := h1
  interval_cases j <;> rfl

/-- A clean `ACC` with no bit pending. -/
theorem test_accClean_zero : AccClean (withSrc []) := by intro j _ _; simp [withSrc, State.reset, streamBit]

/-- BwPutbyteWritesByte: room for exactly one byte, aligned. -/
theorem test_meets_BwPutbyteWritesByte :
    RoomBytes { withSrc [] with dstCap := 1 } 1 ∧ (withSrc []).nbits = 0 ∧ AccClean (withSrc []) :=
  ⟨by unfold RoomBytes; decide, rfl, test_accClean_zero⟩

/-- ResetsAndReaderAlign: the greatest `BP` of the hypothesis. -/
theorem test_meets_ResetsAndReaderAlign :
    ({ withSrc [] with bp := 147573952589676412920 } : State).bp.toNat + 7 < 2 ^ 67 := by decide

/-- PackerLaw: no bit and no room; nine bits and two bytes. -/
theorem test_meets_PackerLaw :
    (([] : List Bit).length + 7) / 8 ≤ ({ withSrc [] with dstCap := 0 } : State).dstCap ∧
    ((List.replicate 9 true).length + 7) / 8 ≤ ({ withSrc [] with dstCap := 2 } : State).dstCap ∧ 2 < 2 ^ 64 := by decide

/-- BrGetReturnsBit: the last bit. -/
theorem test_meets_BrGetReturnsBit :
    ({ withSrc [0xD0] with bp := 7 } : State).bp.toNat < srcBits { withSrc [0xD0] with bp := 7 } ∧
    Table.get ({ withSrc [0xD0] with bp := 7 } : State).src (7 / 8) = some 0xD0 := by decide

/-- BrGetnReturnsBits: 1 bit and 64 bits, up to the end. -/
theorem test_meets_BrGetnReturnsBits :
    ((Instr.brGetn 1).wellFormed = true ∧ HoldsBits { withSrc [0xD0] with bp := 7 } 7 [false]) ∧
    ((Instr.brGetn 64).wellFormed = true ∧ (List.replicate 64 true).length = (64 : BitVec 7).toNat ∧
      HoldsBits (withSrc (List.replicate 8 255)) 0 (List.replicate 64 true)) := by unfold HoldsBits; decide

/-- BrGetbyteReturnsByte: the last byte. -/
theorem test_meets_BrGetbyteReturnsByte :
    let s : State := { withSrc [0xD0, 0x40] with bp := 8 }
    s.bp.toNat % 8 = 0 ∧ s.bp.toNat + 8 ≤ srcBits s ∧ Table.get s.src (s.bp.toNat / 8) = some 0x40 := by decide

/-- SymmetryLaw: what BW_PUT of 1, 0, 1 and BW_FLUSH write, read back. -/
theorem test_meets_SymmetryLaw :
    ∃ t, execAll ([.bwReset] ++ [true, false, true].map .bwPut ++ [.bwFlush]) (withSrc []) = .next t ∧
      (withSrc [0xA0]).srcLen = t.dstLen ∧ (withSrc [0xA0]).bp = 0 ∧
      ∀ a, a < t.dstLen.toNat → Table.get (withSrc [0xA0]).src a = Table.get t.dst a :=
  ⟨_, rfl, by decide, rfl, by decide⟩

/-- EncTreeWritesPaddedField: two Leaves, three bytes of room. -/
theorem test_meets_EncTreeWritesPaddedField :
    RootIs { treeAB with dstCap := 3 } (some htAB) ∧ htAB.depth ≤ 255 ∧ treeAB.nbits = 0 ∧ AccClean { treeAB with dstCap := 3 } ∧
    RoomFor { treeAB with dstCap := 3 } ((treeField (some htAB)).length + 7) := by
  refine ⟨test_root_treeAB, by decide, rfl, ?_, by unfold RoomFor; decide⟩
  intro j _ _
  simp [treeAB, withSrc, State.reset, streamBit]

theorem test_meets_EncLenWritesBigEndian : RoomBytes { withSrc [] with dstCap := 8 } 8 := by unfold RoomBytes; decide

/-- EncCodesPutsCodeStream: S39. -/
theorem test_meets_EncCodesPutsCodeStream :
    SrcPlaced (codesAB [0x41, 0x42]) ∧ HasCode (codesAB [0x41, 0x42]) 0x41 ∧ HasCode (codesAB [0x41, 0x42]) 0x42 ∧
    RoomFor { codesAB [0x41, 0x42] with dstCap := 0 } (codeStream (codesAB [0x41, 0x42])).length := by
  refine ⟨by unfold SrcPlaced; decide, ⟨⟨1, rfl, by decide⟩, rfl⟩, ⟨⟨1, rfl, by decide⟩, rfl⟩, ?_⟩
  unfold RoomFor
  decide +kernel

theorem test_meets_CompressOfEmptyInput :
    let s : State := { withSrc [] with dstCap := 9 }
    busy s = false ∧ Alone s ∧ s.srcLen = 0 ∧ 9 ≤ s.dstCap ∧ s.dstCap < 2 ^ 64 := by unfold Alone; decide

/-- DecLenReadsCount: 63 bits left; 10000 symbols of a tree; no symbol of none; one symbol of none. -/
theorem test_meets_DecLenReadsCount :
    srcBits { withSrc [0, 0, 0, 0, 0, 0, 0, 0] with bp := 1 } < 1 + 64 ∧
    (HoldsBits (parsedAB [0, 0, 0, 0, 0, 0, 0x27, 0x10]) 0 (bitsOf 64 (10000 : Word64).toNat) ∧
      (parsedAB [0, 0, 0, 0, 0, 0, 0x27, 0x10]).root ≠ 511#9) ∧
    (HoldsBits (withSrc [0, 0, 0, 0, 0, 0, 0, 0]) 0 (bitsOf 64 (0 : Word64).toNat)) ∧
    (HoldsBits (withSrc [0, 0, 0, 0, 0, 0, 0, 1]) 0 (bitsOf 64 (1 : Word64).toNat) ∧
      (withSrc [0, 0, 0, 0, 0, 0, 0, 1]).root = 511#9 ∧ (1 : Word64) ≠ 0) := by unfold HoldsBits; decide +kernel

/-- DecSymbolEmitsSymbol, CodeElementDecodesSymbol: S41 and the bare Leaf, room for one byte. -/
theorem test_meets_DecSymbolEmitsSymbol :
    (RootIs (parsedAB [0x80]) (some htAB) ∧ htAB.codeAt [true] = some 0x42 ∧ HoldsBits (parsedAB [0x80]) 0 [true] ∧
      RoomBytes { parsedAB [0x80] with dstCap := 1 } 1) ∧
    (RootIs (parsedOne [0x00]) (some (.leaf 0x41)) ∧ (HTree.leaf 0x41).codeAt [false] = some 0x41 ∧
      HoldsBits (parsedOne [0x00]) 0 [false]) :=
  ⟨⟨test_root_parsedAB _, by decide, by unfold HoldsBits; decide, by unfold RoomBytes; decide⟩,
    test_root_parsedOne _, by decide, by unfold HoldsBits; decide⟩

/-- DecSymbolRaisesTruncated: no bit left before the first (X3), and none left within a code of two bits. -/
theorem test_meets_DecSymbolRaisesTruncated :
    (RootIs (parsedAB []) (some htAB) ∧ htAB.codeAt ([] ++ [true]) = some 0x42 ∧ HoldsBits (parsedAB []) 0 [] ∧
      srcBits (parsedAB []) = 0) ∧
    (let s : State := { withSrc [0x01] with
        node := [(0, .internal 0 1 2), (1, .leaf 0x41 0), (2, .internal 0 3 4), (3, .leaf 0x42 0), (4, .leaf 0x43 0)]
        nalloc := 5, root := 0, bp := 7 }
      let x : HTree := .node (.leaf 0x41) (.node (.leaf 0x42) (.leaf 0x43))
      RootIs s (some x) ∧ x.codeAt ([true] ++ [false]) = some 0x42 ∧ HoldsBits s 7 [true] ∧ srcBits s = 7 + 1) :=
  ⟨⟨test_root_parsedAB _, by decide, by unfold HoldsBits; decide, by decide⟩,
    ⟨by decide, 0, 1, 2, rfl, ⟨by decide, 0, rfl⟩, by decide, 0, 3, 4, rfl, ⟨by decide, 0, rfl⟩, by decide, 0, rfl⟩,
    by decide, by unfold HoldsBits; decide, by decide⟩

/-- DecSymbolRaisesTruncated, DEC_SYMBOLS: no symbol and no bit with `COUNT` = 1 and no room, and the eight symbols of a byte
with `COUNT` = 9 and room for exactly eight. -/
theorem test_meets_DecSymbolsRaisesTruncated :
    (let s : State := { parsedAB [] with count := 1, dstCap := 0 };
      RootIs s (some htAB) ∧ HoldsBits s 0 ([] ++ []) ∧ srcBits s = 0 ∧ 0 < s.count.toNat ∧ RoomBytes s 0) ∧
    (let s : State := { parsedAB [0x40] with count := 9, dstCap := 8 }
     let codes : List (List Bit × Byte) := [([false], 0x41), ([true], 0x42)] ++ List.replicate 6 ([false], 0x41)
     RootIs s (some htAB) ∧ (∀ c ∈ codes, htAB.codeAt c.1 = some c.2) ∧ htAB.codeAt ([] ++ [true]) = some 0x42 ∧
      HoldsBits s 0 (codes.flatMap Prod.fst ++ []) ∧ srcBits s = 0 + (codes.flatMap Prod.fst ++ []).length ∧
      codes.length < s.count.toNat ∧ RoomBytes s codes.length) := by
  refine ⟨⟨test_root_parsedAB [], ?_, by decide, by decide, ?_⟩, test_root_parsedAB [0x40], by decide, by decide, ?_, by decide,
    by decide, ?_⟩
  · unfold HoldsBits; decide
  · unfold RoomBytes; decide
  · unfold HoldsBits; decide
  · unfold RoomBytes; decide

/-- DecSymbolRaisesUnreachable, DEC_SYMBOLS: no symbol before the 1, and two, with `COUNT` one more and exactly the room. -/
theorem test_meets_DecSymbolsRaisesUnreachable :
    (let s : State := { parsedOne [0x80] with count := 1, dstCap := 0 };
      HoldsBits s 0 (List.replicate 0 false ++ [true]) ∧ 0 < s.count.toNat ∧ RoomBytes s 0) ∧
    (let s : State := { parsedOne [0x20] with count := 3, dstCap := 2 };
      HoldsBits s 0 (List.replicate 2 false ++ [true]) ∧ 2 < s.count.toNat ∧ RoomBytes s 2) := by
  unfold HoldsBits RoomBytes; decide

theorem test_meets_DecSymbolRaisesUnreachable :
    RootIs (parsedOne [0x80]) (some (.leaf 0x41)) ∧ HoldsBits (parsedOne [0x80]) 0 [true] :=
  ⟨test_root_parsedOne _, by unfold HoldsBits; decide⟩

/-- DecSymbolsDecodesCount: no symbol; the two of S41. -/
theorem test_meets_DecSymbolsDecodesCount :
    (RootIs (parsedAB []) (some htAB) ∧ (parsedAB []).count.toNat = ([] : List (List Bit × Byte)).length ∧
      RoomBytes { parsedAB [] with dstCap := 0 } 0) ∧
    (RootIs (parsedAB [0x40]) (some htAB) ∧
      (∀ c ∈ [([false], (0x41 : Byte)), ([true], 0x42)], htAB.codeAt c.1 = some c.2) ∧
      HoldsBits (parsedAB [0x40]) 0 [false, true] ∧
      ({ parsedAB [0x40] with count := 2, dstCap := 2 } : State).count.toNat = 2 ∧
      RoomBytes { parsedAB [0x40] with count := 2, dstCap := 2 } 2) := by
  refine ⟨⟨test_root_parsedAB _, rfl, by unfold RoomBytes; decide⟩, test_root_parsedAB _, by decide, ?_, rfl, ?_⟩
  · unfold HoldsBits; decide
  · unfold RoomBytes; decide

/-- ContainerElements: the last bit, the last node entry, exactly nine and 64 bits, a length of an empty tree, both kinds of
phases for the pad. -/
theorem test_meets_ContainerElements :
    ({ withSrc [0] with bp := 7 } : State).bp.toNat + 1 ≤ srcBits { withSrc [0] with bp := 7 } ∧
    (({ withSrc [0, 0] with bp := 7, nalloc := 510 } : State).nalloc.toNat < 511 ∧
      ({ withSrc [0, 0] with bp := 7 } : State).bp.toNat + 9 ≤ srcBits { withSrc [0, 0] with bp := 7 }) ∧
    ((withSrc [0, 0, 0, 0, 0, 0, 0, 0]).bp.toNat + 64 ≤ srcBits (withSrc [0, 0, 0, 0, 0, 0, 0, 0]) ∧
      (parsedAB []).root ≠ 511#9) ∧
    ((withSrc []).phase ≠ .dSymbols ∧ (withSrc []).phase ≠ .done) ∧
    ({ withSrc [] with phase := .dSymbols } : State).phase = .dSymbols := by decide

/-- RecognisedElementsAgree: S22, the length of V3 aligned, S20. -/
theorem test_meets_RecognisedElementsAgree :
    HoldsBits (withSrc [0x00]) 0 (encode .tEmpty) ∧
    HoldsBits (withSrc [0, 0, 0, 0, 0, 0, 0x27, 0x10]) 0 (encode (.fLength 10000)) ∧
    HoldsBits (withSrc [0xD0, 0x40]) 0 (encode .tPresent ++ encode (.nLeaf 0x41)) := by unfold HoldsBits; decide +kernel

/-- StopsWhereNothingExists: no node and one node active; a byte without a code at index 0 with no room, and at the last
index after bytes with a code; no bit left; the last bit left and two asked for, 63 left and 64 asked for; seven left. -/
theorem test_meets_StopsWhereNothingExists :
    (withSrc []).active = [] ∧ (oneLeaf.active = [256] ∧ 256 < 511 ∧ (Table.get oneLeaf.node 256).isSome = true) ∧
    (let s : State := { withSrc [0x43] with codeLen := [(0x43, 0)], dstCap := 0 };
      0 < s.srcLen.toNat ∧ Table.get s.src 0 = some 0x43 ∧ Table.get s.codeLen (0x43 : Byte).toNat = some 0 ∧ RoomFor s 0) ∧
    (2 < uncodedAt2.srcLen.toNat ∧ Table.get uncodedAt2.src 2 = some 0x43 ∧
      Table.get uncodedAt2.codeLen (0x43 : Byte).toNat = some 0 ∧
      (∀ b, b < 2 → ∃ w : Byte, Table.get uncodedAt2.src b = some w ∧ HasCode uncodedAt2 w.toNat) ∧
      RoomFor uncodedAt2
        ((List.range 2).flatMap fun b => codeBitsOf uncodedAt2 ((Table.get uncodedAt2.src b).getD 0).toNat).length) ∧
    srcBits (withSrc []) ≤ (withSrc []).bp.toNat ∧
    ((Instr.brGetn 2).wellFormed = true ∧ srcBits { withSrc [0] with bp := 7 } < 7 + (2 : BitVec 7).toNat ∧
      ∀ a, 7 / 8 ≤ a → a < (withSrc [0]).srcLen.toNat → (Table.get (withSrc [0]).src a).isSome = true) ∧
    ((Instr.brGetn 64).wellFormed = true ∧
      srcBits { withSrc (List.replicate 8 0) with bp := 1 } < 1 + (64 : BitVec 7).toNat ∧
      ∀ a, 1 / 8 ≤ a → a < (withSrc (List.replicate 8 0)).srcLen.toNat →
        (Table.get (withSrc (List.replicate 8 0)).src a).isSome = true) ∧
    srcBits { withSrc [0] with bp := 1 } < ({ withSrc [0] with bp := 1 } : State).bp.toNat + 8 := by
  refine ⟨rfl, by decide, ⟨by decide, rfl, rfl, by unfold RoomFor; decide⟩, ⟨by decide, rfl, rfl, ?_, ?_⟩, by decide,
    ⟨by decide, by decide, ?_⟩, ⟨by decide, by decide, ?_⟩, by decide⟩
  · intro b hb
    rcases (by omega : b = 0 ∨ b = 1) with rfl | rfl
    · exact ⟨0x41, rfl, ⟨1, rfl, by decide⟩, rfl⟩
    · exact ⟨0x42, rfl, ⟨1, rfl, by decide⟩, rfl⟩
  · unfold RoomFor; decide +kernel
  · decide
  · decide

/-- StopsWhereNothingExists: BR_GETN(2) with one bit left stops. -/
theorem test_brGetn_short : exec (.brGetn 2) { withSrc [0xD0] with bp := 7 } = .fault .srcOutOfRange := rfl

/-- The input "AB" with exactly the room of CompressWritesContainer. -/
def inputAB : State := { withSrc [0x41, 0x42] with dstCap := 394 }

theorem test_meets_CompressWritesContainer :
    busy inputAB = false ∧ Alone inputAB ∧ inputAB.srcLen.toNat ≤ inputAB.srcCap ∧ SrcPlaced inputAB ∧
    330 + 32 * inputAB.srcLen.toNat ≤ inputAB.dstCap ∧ inputAB.dstCap < 2 ^ 64 := by unfold Alone SrcPlaced; decide

/-- RoundTrip: the input "AB", and V4 as the second run's input. -/
theorem test_meets_RoundTrip :
    ∃ t, commandRun .compress inputAB = .next t ∧
      let u : State := { withSrc [0xA8, 0x34, 0x20, 0, 0, 0, 0, 0, 0, 0, 2, 0x40] with dstCap := 2 }
      busy u = false ∧ Alone u ∧ u.srcLen = t.dstLen ∧ u.srcLen.toNat ≤ u.srcCap ∧
      (∀ a, a < t.dstLen.toNat → Table.get u.src a = Table.get t.dst a) ∧ inputAB.srcLen.toNat ≤ u.dstCap ∧
      u.dstCap < 2 ^ 64 := by
  have h : holds (commandRun .compress inputAB) (fun t => t.dstLen == 12 &&
      t.dst == bytesAt [0xA8, 0x34, 0x20, 0, 0, 0, 0, 0, 0, 0, 2, 0x40]) = true := by decide +kernel
  obtain ⟨t, ht, hp⟩ := exists_next_of_holds h
  simp only [Bool.and_eq_true, beq_iff_eq] at hp
  refine ⟨t, ht, by decide, ⟨rfl, rfl⟩, ?_, by decide, ?_, by decide, by decide⟩
  · rw [hp.1]; rfl
  · intro a _; rw [hp.2]; rfl

end Sys2Proof.Tests
end

/-! ## Proofs of the statements about the state (10_state.md)

### What each operation's updates ask of a relation

Moves.lean carries a relation through one operation at a time. Here the conditions are named for every operation, so that a
relation is carried through `exec` by one theorem.
-/

namespace Sys2Proof.Machine

section
variable {R Q : State → State → Prop}

/-- The conditions of Moves.lean on the updates of an operation's unit, for every operation. -/
def UnitMoves (R Q : State → State → Prop) : Instr → Prop
  | .compress => Closed R Q ∧ ∀ s, R s (s.started .eCount)
  | .decompress => Closed R Q ∧ ∀ s, R s (s.started .dTree)
  | .fcClear | .fcCount _ | .fcScan | .encCount => CounterMoves R Q
  | .tbInit | .tbMerge | .tbBuild | .encBuild => BuilderMoves R Q
  | .tbSer | .encTree => PackerMoves R Q ∧ ∀ s, R s s.freeRead
  | .tbDes | .decTree | .tEmpty | .tPresent | .nLeaf _ | .nInternal => ParserMoves R Q
  | .cbGen | .encCodebook => CodebookMoves R Q
  | .bwReset => ∀ s, R s { s with acc := 0, nbits := 0, dstLen := 0 }
  | .bwPut _ | .bwPutn _ _ | .bwAlign | .bwFlush | .bwPutbyte _ | .encLen | .encFlush => PackerMoves R Q
  | .brReset => ∀ s, R s { s with bp := 0 }
  | .brGet | .brGetn _ | .brGetbyte => UnpackerMoves R Q ∧ ∀ s v, R s { s with ret := v }
  | .brAlign | .fPad _ => UnpackerMoves R Q
  | .encCodes => EncoderMoves R Q
  | .decLen | .fLength _ => LengthMoves R Q
  | .decSymbol | .fCode _ => SymbolMoves R Q
  | .decSymbols => SymbolMoves R Q ∧ ∀ s, R s { s with emitted := 0 }

/-- A command is ignored while BUSY, and else starts its run (R200 to R202). -/
theorem command_next {p : Phase} {s t : State} (h : (command p s).outcome = .next t) :
    (busy s = true ∧ t = s) ∨ (busy s = false ∧ s.srcLen.toNat ≤ s.srcCap ∧ t = s.started p) := by
  unfold command at h
  split at h
  · next hb => cases h; exact .inl ⟨hb, rfl⟩
  · next hb =>
    split at h
    · next hle => cases h; exact .inr ⟨by simpa using hb, hle, rfl⟩
    · cases h

theorem moves_command (hC : Closed R Q) {p : Phase} (h : ∀ s, R s (s.started p)) : Moves R Q (command p) := by
  intro s
  unfold command
  split
  · exact hC.refl s
  · split
    · exact h s
    · trivial

/-- A value returned to the sequencer is kept in `ret` (log 5). -/
theorem Moves.andThen_keepRet {α : Type} (hC : Closed R Q) (hr : ∀ s v, R s { s with ret := v }) {f : Op α} (h : Moves R Q f)
    (v : α → Word64) : Moves R Q fun s => (f s).andThen fun a s => keepRet (v a) s :=
  Moves.andThen hC h fun a s => hr s (v a)

/-- What an operation answers is related to where it began: by `R`, or by `Q` where an error was raised. -/
theorem exec_moves {i : Instr} (h : UnitMoves R Q i) {s t : State} (ho : exec i s = .next t) : R s t ∨ Q s t := by
  cases i with
  | compress | decompress => exact (moves_command h.1 h.2).outcome_or ho
  | fcClear => exact .inl (by cases ho; exact h.clear s)
  | fcCount b => exact (moves_fcCount h b).outcome_or ho
  | fcScan | encCount => exact (moves_fcScan h).outcome_or ho
  | tbInit => exact (moves_tbInit h).outcome_or ho
  | tbMerge => exact (moves_tbMerge h).outcome_or ho
  | tbBuild | encBuild => exact (moves_tbBuild h).outcome_or ho
  | tbSer => exact (moves_tbSer h.1 h.2).outcome_or ho
  | encTree => exact (moves_encTree h.1 h.2).outcome_or ho
  | tbDes => exact (moves_tbDes h).outcome_or ho
  | decTree => exact (moves_decTree h).outcome_or ho
  | tEmpty => exact (moves_tEmpty h).outcome_or ho
  | tPresent => exact (moves_tPresent h).outcome_or ho
  | nLeaf sym => exact (moves_nLeaf h sym).outcome_or ho
  | nInternal => exact (moves_nInternal h).outcome_or ho
  | cbGen | encCodebook => exact (moves_cbGen h).outcome_or ho
  | bwReset | brReset => exact .inl (by cases ho; exact h s)
  | bwPut b => exact (moves_bwPut h b).outcome_or ho
  | bwPutn n v => exact (moves_bwPutn h n.toNat v).outcome_or ho
  | bwAlign | bwFlush | encFlush => exact (moves_bwAlign h).outcome_or ho
  | bwPutbyte v => exact (moves_bwPutbyte h v).outcome_or ho
  | encLen => exact (moves_encLen h).outcome_or ho
  | brGet => exact ((moves_brGet h.1).andThen_keepRet h.1.toClosed h.2 _).outcome_or ho
  | brGetn n => exact ((moves_brGetn h.1 n.toNat).andThen_keepRet h.1.toClosed h.2 _).outcome_or ho
  | brGetbyte => exact ((moves_brGetbyte h.1).andThen_keepRet h.1.toClosed h.2 _).outcome_or ho
  | brAlign => exact (moves_brAlign h).outcome_or ho
  | fPad bits => exact (moves_fPad h).outcome_or ho
  | encCodes => exact (moves_encCodes h).outcome_or ho
  | decLen => exact (moves_decLen h).outcome_or ho
  | fLength len => exact (moves_fLength h len).outcome_or ho
  | decSymbol => exact (moves_decSymbol h).outcome_or ho
  | fCode bits => exact (moves_fCode h bits).outcome_or ho
  | decSymbols => exact (moves_decSymbols h.1 h.2).outcome_or ho

end

/-! ### What a step can do -/

/-- No operation is issued by a phase exactly where no run is in progress (R235). -/
theorem phaseOp_eq_none_iff (s : State) : phaseOp s.phase = none ↔ busy s = false := by
  unfold busy
  cases s.phase <;> decide

/-- A step of the block runs the operation on the select lines, or the phase's, or nothing. -/
theorem blockStep_next {s t : State} (h : blockStep s = .next t) :
    (∃ i rest, s.issue = i :: rest ∧ exec i { s with issue := rest } = .next t) ∨
    (s.issue = [] ∧ ∃ i u, phaseOp s.phase = some i ∧ exec i s = .next u ∧ t = u.advanced) ∨
    (s.issue = [] ∧ busy s = false ∧ t = s) := by
  unfold blockStep at h
  split at h
  · next i rest hi => exact .inl ⟨i, rest, hi, h⟩
  · next hi =>
    split at h
    · next i hp =>
      cases he : exec i s with
      | next u => rw [he] at h; cases h; exact .inr (.inl ⟨hi, i, u, hp, he, rfl⟩)
      | fault f => rw [he] at h; cases h
      | refused r => rw [he] at h; cases h
    · next hp => cases h; exact .inr (.inr ⟨hi, (phaseOp_eq_none_iff s).1 hp, rfl⟩)

/-- A step is the block's, with the host's list as it was or without its PASS, or performs the host's next action. -/
theorem step_next {s t : State} (h : step s = .next t) :
    blockStep s = .next t ∨
    ∃ a rest, s.host = a :: rest ∧
      (blockStep { s with host := rest } = .next t ∨ hostAct a { s with host := rest } = .next t) := by
  unfold step machineStep at h
  split at h
  · exact .inl h
  · next rest hh => exact .inr ⟨_, rest, hh, .inl h⟩
  · next rest hh =>
    split at h
    · exact .inr ⟨_, rest, hh, .inr h⟩
    · exact .inl h
  · next a rest _ _ hh => exact .inr ⟨a, rest, hh, .inr h⟩

/-! ### The invariant -/

theorem bwReset_keepsInv (s : State) : KeepsInv s { s with acc := 0, nbits := 0, dstLen := 0 } := fun h =>
  { h with dstLenFits := Nat.zero_le _, accClean := accClean_zero _ rfl }

theorem brReset_keepsInv (s : State) : KeepsInv s { s with bp := 0 } := fun h =>
  { h with bpFits := fun _ => Nat.zero_le _ }

theorem emitted_keepsInv (s : State) (k : Word64) : KeepsInv s { s with emitted := k } := fun h => { h with }

/-- Every unit's updates keep the invariant. -/
theorem unitMoves_keepsInv (i : Instr) : UnitMoves KeepsInv KeepsInv i := by
  have hr : ∀ (s : State) v, KeepsInv s { s with ret := v } := fun s v => keepsInv_of_free rfl
  cases i with
  | compress | decompress => exact ⟨closed_keepsInv, fun s => started_keepsInv s _ (by decide)⟩
  | fcClear | fcCount | fcScan | encCount => exact counterMoves_keepsInv
  | tbInit | tbMerge | tbBuild | encBuild => exact builderMoves_keepsInv
  | tbSer | encTree => exact ⟨packerMoves_keepsInv, freeRead_keepsInv⟩
  | tbDes | decTree | tEmpty | tPresent | nLeaf | nInternal => exact parserMoves_keepsInv
  | cbGen | encCodebook => exact codebookMoves_keepsInv
  | bwReset => exact bwReset_keepsInv
  | bwPut | bwPutn | bwAlign | bwFlush | bwPutbyte | encLen | encFlush => exact packerMoves_keepsInv
  | brReset => exact brReset_keepsInv
  | brGet | brGetn | brGetbyte => exact ⟨unpackerMoves_keepsInv, hr⟩
  | brAlign | fPad => exact unpackerMoves_keepsInv
  | encCodes => exact encoderMoves_keepsInv
  | decLen | fLength => exact lengthMoves_keepsInv
  | decSymbol | fCode => exact symbolMoves_keepsInv
  | decSymbols => exact ⟨symbolMoves_keepsInv, fun s => emitted_keepsInv s 0⟩

theorem exec_keepsInv {i : Instr} {s t : State} (h : exec i s = .next t) : KeepsInv s t :=
  (exec_moves (unitMoves_keepsInv i) h).elim id id

/-- `PHASE` becomes ERROR by no arrow of R15. -/
theorem nextPhase_error_iff (s : State) : nextPhase s = .error ↔ s.phase = .error := by
  unfold nextPhase
  cases s.phase <;> simp <;> split <;> simp

/-- IDLE, DONE and ERROR have no arrow that leaves them by itself (R15). -/
theorem nextPhase_of_quiet {s : State} (hb : busy s = false) : nextPhase s = s.phase := by
  revert hb
  unfold busy nextPhase
  cases s.phase <;> simp [Phase.isBusy, stateCode]

theorem busy_of_busy_advanced {s : State} (h : busy s.advanced = true) : busy s = true := by
  by_contra hb
  have hq : busy s.advanced = busy s := congrArg Phase.isBusy (nextPhase_of_quiet (by simpa using hb))
  exact hb (hq.symm.trans h)

/-- The move of `PHASE` along its arrow keeps the invariant. -/
theorem advanced_keepsInv (s : State) : KeepsInv s s.advanced := fun h =>
  { h with
    errKindInError := h.errKindInError.trans (nextPhase_error_iff s).symm
    bpFits := fun hb => h.bpFits (busy_of_busy_advanced hb)
    eposFits := fun hb => h.eposFits (busy_of_busy_advanced hb) }

theorem blockStep_keepsInv {s t : State} (h : blockStep s = .next t) : KeepsInv s t := by
  rcases blockStep_next h with ⟨i, rest, -, he⟩ | ⟨-, i, u, -, he, rfl⟩ | ⟨-, -, rfl⟩
  · exact closed_keepsInv.trans (keepsInv_of_free rfl) (exec_keepsInv he)
  · exact closed_keepsInv.trans (exec_keepsInv he) (advanced_keepsInv u)
  · exact closed_keepsInv.refl t

/-- The machine after reset meets the invariant at every pair of capacities that `SRC_LEN` and `DST_LEN` can hold (R25). -/
theorem stateInv_reset {sc dc : Nat} (hs : List HostAction) (k : Nat) (h1 : sc < 2 ^ 64) (h2 : dc < 2 ^ 64) :
    StateInv { State.reset with srcCap := sc, dstCap := dc, host := hs, freeNext := k } := by
  exact
    { srcWf := rfl, dstWf := rfl, freqWf := rfl, nodeWf := rfl, codeLenWf := rfl, codeBitsWf := rfl, activeWf := rfl
      srcBelow := fun _ h => nomatch h
      dstBelow := fun _ h => nomatch h
      freqBelow := fun _ h => nomatch h
      nodeBelow := fun _ h => nomatch h
      codeLenBelow := fun _ h => nomatch h
      codeBitsBelow := fun _ h => nomatch h
      activeBelow := fun _ h => nomatch h
      capsFit := ⟨h1, h2⟩
      srcLenFits := Nat.zero_le _, dstLenFits := Nat.zero_le _
      nFits := Nat.zero_le _, nintFits := Nat.zero_le _, nallocFits := Nat.zero_le _
      accClean := accClean_zero _ rfl
      errKindInError := ⟨fun h => absurd rfl h, fun h => nomatch h⟩
      bpFits := fun h => nomatch h
      eposFits := fun h => nomatch h }

theorem resetInput_keepsInv (s : State) : KeepsInv s s.resetInput := fun h =>
  stateInv_reset s.host s.freeNext h.capsFit.1 h.capsFit.2

end Sys2Proof.Machine

namespace Sys2Proof.Machine

/-! ### What the host's actions can do -/

/-- A register write runs a command, changes nothing, or sets `SRC_LEN` outside a run (R11 to R14, R203). -/
theorem writeReg_next {r : Nat} {v : Word64} {s t : State} (h : writeReg r v s = .next t) :
    (∃ i, exec i s = .next t) ∨ t = s ∨ (busy s = false ∧ v.toNat ≤ s.srcCap ∧ t = { s with srcLen := v }) := by
  match r with
  | 0 =>
    simp only [writeReg, writeCmd] at h
    split at h
    · next i _ => exact .inl ⟨i, h⟩
    · cases h; exact .inr (.inl rfl)
  | 1 => cases h; exact .inr (.inl rfl)
  | 2 =>
    simp only [writeReg, writeSrcLen] at h
    split at h
    · cases h
    · next hb =>
      split at h
      · next hv => cases h; exact .inr (.inr ⟨by simpa using hb, hv, rfl⟩)
      · cases h
  | 3 =>
    simp only [writeReg, writeDstLen] at h
    split at h
    · cases h
    · cases h; exact .inr (.inl rfl)
  | _ + 4 => cases h

/-- From one state to the other only what the host has read has changed. -/
def OnlyReplied (s t : State) : Prop := t = { s with reply := t.reply, freeNext := t.freeNext }

theorem readReg_next {r : Nat} {s t : State} (h : readReg r s = .next t) : OnlyReplied s t := by
  match r with
  | 0 | 1 | 2 => cases h; rfl
  | 3 =>
    simp only [readReg] at h
    split at h <;> (cases h; rfl)
  | _ + 4 => cases h

theorem hostReadSrc_next {a : Word64} {s t : State} (h : hostReadSrc a s = .next t) : OnlyReplied s t := by
  unfold hostReadSrc at h
  split at h
  · split at h <;> (cases h; rfl)
  · cases h

theorem hostReadDst_next {a : Word64} {s t : State} (h : hostReadDst a s = .next t) : OnlyReplied s t := by
  unfold hostReadDst at h
  split at h
  · cases h
  · split at h
    · split at h <;> (cases h; rfl)
    · cases h

theorem hostWriteSrc_next {a : Word64} {v : Byte} {s t : State} (h : hostWriteSrc a v s = .next t) :
    a.toNat < s.srcCap ∧ t = { s with src := Table.set s.src a.toNat v } := by
  unfold hostWriteSrc at h
  split at h
  · cases h
  · split at h
    · next ha => cases h; exact ⟨ha, rfl⟩
    · cases h

theorem hostWriteDst_next {a : Word64} {v : Byte} {s t : State} (h : hostWriteDst a v s = .next t) :
    a.toNat < s.dstCap ∧ t = { s with dst := Table.set s.dst a.toNat v } := by
  unfold hostWriteDst at h
  split at h
  · cases h
  · split at h
    · next ha => cases h; exact ⟨ha, rfl⟩
    · cases h

/-! ### Every step keeps the invariant -/

theorem onlyReplied_keepsInv {s t : State} (h : OnlyReplied s t) : KeepsInv s t := keepsInv_of_free (by rw [h])

theorem writeReg_keepsInv {r : Nat} {v : Word64} {s t : State} (h : writeReg r v s = .next t) : KeepsInv s t := by
  rcases writeReg_next h with ⟨i, he⟩ | rfl | ⟨hb, hv, rfl⟩
  · exact exec_keepsInv he
  · exact closed_keepsInv.refl _
  · intro hi
    have idle : ∀ {P : Prop}, busy s = true → P := fun hbt => absurd (hb.symm.trans hbt) (by decide)
    exact { hi with srcLenFits := hv, bpFits := fun hbt => idle hbt, eposFits := fun hbt => idle hbt }

theorem hostWriteSrc_keepsInv {a : Word64} {v : Byte} {s t : State} (h : hostWriteSrc a v s = .next t) : KeepsInv s t := by
  obtain ⟨ha, rfl⟩ := hostWriteSrc_next h
  exact fun hi =>
    { hi with
      srcWf := Memory.wf_set _ _ _ hi.srcWf
      srcBelow := fun _ => get_set_some (P := fun a => a < s.srcCap) hi.srcBelow ha }

theorem hostWriteDst_keepsInv {a : Word64} {v : Byte} {s t : State} (h : hostWriteDst a v s = .next t) : KeepsInv s t := by
  obtain ⟨ha, rfl⟩ := hostWriteDst_next h
  exact fun hi =>
    { hi with
      dstWf := Memory.wf_set _ _ _ hi.dstWf
      dstBelow := fun _ => get_set_some (P := fun a => a < s.dstCap) hi.dstBelow ha }

theorem hostAct_keepsInv {a : HostAction} {s t : State} (h : hostAct a s = .next t) : KeepsInv s t := by
  cases a with
  | reset => cases h; exact resetInput_keepsInv s
  | writeSrc a v => exact hostWriteSrc_keepsInv h
  | readSrc a => exact onlyReplied_keepsInv (hostReadSrc_next h)
  | writeDst a v => exact hostWriteDst_keepsInv h
  | readDst a => exact onlyReplied_keepsInv (hostReadDst_next h)
  | writeReg r v => exact writeReg_keepsInv h
  | readReg r => exact onlyReplied_keepsInv (readReg_next h)
  | wait => cases h; exact keepsInv_of_free rfl
  | pass => cases h; exact closed_keepsInv.refl s

theorem step_keepsInv {s t : State} (h : step s = .next t) : KeepsInv s t := by
  rcases step_next h with hb | ⟨a, rest, -, hb | ha⟩
  · exact blockStep_keepsInv hb
  · exact closed_keepsInv.trans (keepsInv_of_free rfl) (blockStep_keepsInv hb)
  · exact closed_keepsInv.trans (keepsInv_of_free rfl) (hostAct_keepsInv ha)

/-- Settles O3: the units' updates (`unitMoves_keepsInv`), the move of `PHASE` and the host's accesses each keep it. -/
theorem stepKeepsInvariant : Obligations.StepKeepsInvariant := fun _ _ hi h => step_keepsInv h hi

/-- Settles O2: the capacities after reset are below 2 ^ 64 (log 6). -/
theorem resetMeetsInvariant : Obligations.ResetMeetsInvariant :=
  stateInv_reset (sc := Config.resetSrcCap) (dc := Config.resetDstCap) [] 0 (by decide) (by decide)

end Sys2Proof.Machine

namespace Sys2Proof.Machine

/-! ### The step, case by case -/

theorem step_of_noAction {s : State} (h : s.host = []) : step s = blockStep s := by
  simp only [step, machineStep, h]

theorem step_of_pass {s : State} {hs : List HostAction} (h : s.host = .pass :: hs) :
    step s = blockStep { s with host := hs } := by
  simp only [step, machineStep, h]

/-- WAIT leaves the step to the block until `STATUS` shows DONE or ERROR (R76, log 22). -/
theorem step_of_wait {s : State} {hs : List HostAction} (h : s.host = .wait :: hs) :
    step s = if s.phase = .done ∨ s.phase = .error then
        .next { s with host := hs, reply := (statusByte s).setWidth 64 }
      else blockStep s := by
  have hw : waitOver s = true ↔ s.phase = .done ∨ s.phase = .error := by simp [waitOver]
  simp only [step, machineStep, h, hw]
  rfl

theorem step_of_action {s : State} {a : HostAction} {hs : List HostAction} (h : s.host = a :: hs) (hp : a ≠ .pass)
    (hw : a ≠ .wait) : step s = hostAct a { s with host := hs } := by
  cases a with
  | pass => exact absurd rfl hp
  | wait => exact absurd rfl hw
  | _ => simp only [step, machineStep, h]

theorem blockStep_of_issue {s : State} {i : Instr} {rest : List Instr} (h : s.issue = i :: rest) :
    blockStep s = exec i { s with issue := rest } := by
  simp only [blockStep, h]

theorem blockStep_of_phase {s : State} {i : Instr} (h : s.issue = []) (hp : phaseOp s.phase = some i) :
    blockStep s = onNext State.advanced (exec i s) := by
  simp only [blockStep, h, hp]

theorem blockStep_of_quiet {s : State} (h : s.issue = []) (hb : busy s = false) : blockStep s = .next s := by
  simp only [blockStep, h, (phaseOp_eq_none_iff s).2 hb]

theorem step_of_quiet {s : State} (ha : Alone s) (hb : busy s = false) : step s = .next s := by
  rw [step_of_noAction ha.1, blockStep_of_quiet ha.2 hb]

/-- The host's write of a command's value to `CMD` runs the command (R72). -/
theorem hostAct_writeCmd {v : Word64} {i : Instr} {r : List Bit} (s : State)
    (h : decode .cmd (bitsOf 8 (v.setWidth 8).toNat) = .ok (i, r)) : hostAct (.writeReg 0 v) s = exec i s := by
  simp only [hostAct, writeReg, writeCmd, h, decoded]

theorem step_of_writeCmd {s : State} {v : Word64} {hs : List HostAction} {i : Instr} {r : List Bit}
    (h : s.host = .writeReg 0 v :: hs) (hd : decode .cmd (bitsOf 8 (v.setWidth 8).toNat) = .ok (i, r)) :
    step s = exec i { s with host := hs } := by
  rw [step_of_action h (by simp) (by simp), hostAct_writeCmd _ hd]

/-- The value that stands for a command decodes to it (R72). -/
theorem decode_commandWord {i : Instr} {v : Word64} (h : commandWord i = some v) :
    decode .cmd (bitsOf 8 (v.setWidth 8).toNat) = .ok (i, []) := by
  cases i <;> cases h <;> decide

/-- An operation that has been placed is what the next step runs (log 2). -/
theorem step_placeInstr {s : State} (i : Instr) (h : s.issue = []) : step (placeInstr i s) = exec i { s with host := [] } := by
  unfold placeInstr
  split
  · next v hv => exact step_of_writeCmd rfl (decode_commandWord hv)
  · rw [step_of_noAction rfl, blockStep_of_issue rfl, ← h]

/-- Settles O8, by the equations of `step` and `blockStep` above. -/
theorem stepRunsTheOperation : Obligations.StepRunsTheOperation := by
  refine ⟨fun s i rest hh hi => ?_, fun s v hs i r hh hd => step_of_writeCmd hh hd,
    fun s t i ha hp he => step_of_phase ha hp he, fun s ha hb => step_of_quiet ha hb, fun s nbits w i hd hi => ?_,
    fun s a hs hh hp hw => step_of_action hh hp hw, fun s hh => step_of_noAction hh, fun s hs hh => step_of_pass hh,
    fun s hs hh => step_of_wait hh, fun s i rest hi => blockStep_of_issue hi, fun s i hi hp => ?_,
    fun s hi hb => blockStep_of_quiet hi hb⟩
  · rw [step_of_noAction hh, blockStep_of_issue hi]
  · rw [State.withFetchWord, hd]
    exact step_placeInstr i hi
  · rw [blockStep_of_phase hi hp]
    exact ⟨fun t ht => by rw [ht]; rfl, fun f hf => by rw [hf]; rfl, fun r hr => by rw [hr]; rfl⟩

/-! ### Reset -/

theorem statusByte_of_idle {s : State} (hp : s.phase = .idle) (he : s.errKind = .none) : statusByte s = 0#8 := by
  rw [statusByte, hp, he]
  rfl

/-- Settles O1: both states are `State.reset` but for the capacities, the host's list and the count of free values. -/
theorem resetGivesStatedValues : Obligations.ResetGivesStatedValues := by
  intro s
  refine ⟨s.resetInput, rfl, fun u hu => ?_⟩
  have hval : u = { State.reset with srcCap := u.srcCap, dstCap := u.dstCap, host := u.host, freeNext := u.freeNext } := by
    rcases hu with rfl | rfl <;> rfl
  rw [hval]
  exact ⟨rfl, statusByte_of_idle rfl rfl, rfl, rfl, rfl, rfl, rfl, rfl, rfl, rfl, rfl, rfl, rfl, rfl, rfl, rfl, rfl,
    fun _ => ⟨rfl, rfl, rfl, rfl⟩,
    fun hh => step_of_quiet ⟨hh, rfl⟩ rfl⟩

/-! ### The host's accesses, case by case -/

section
variable {s : State} {a : Word64}

theorem readReg_noSuch {r : Nat} (h : 3 < r) (s : State) : readReg r s = .refused .noSuchRegister := by
  obtain ⟨k, rfl⟩ := Nat.exists_eq_add_of_le' (Nat.succ_le_of_lt h)
  rfl

theorem writeReg_noSuch {r : Nat} (h : 3 < r) (v : Word64) (s : State) : writeReg r v s = .refused .noSuchRegister := by
  obtain ⟨k, rfl⟩ := Nat.exists_eq_add_of_le' (Nat.succ_le_of_lt h)
  rfl

theorem hostReadSrc_of_placed {v : Byte} (ha : a.toNat < s.srcCap) (hv : Table.get s.src a.toNat = some v) :
    hostReadSrc a s = .next { s with reply := v.setWidth 64 } := by
  simp only [hostReadSrc, if_pos ha, hv, State.replied]

/-- A read of SRC below its capacity answers, and changes nothing else (R205, log 8). -/
theorem hostReadSrc_answers (ha : a.toNat < s.srcCap) : ∃ t, hostReadSrc a s = .next t ∧ OnlyReplied s t := by
  have : ∃ t, hostReadSrc a s = .next t := by
    unfold hostReadSrc
    rw [if_pos ha]
    split <;> exact ⟨_, rfl⟩
  exact this.imp fun t ht => ⟨ht, hostReadSrc_next ht⟩

theorem hostReadSrc_beyond (ha : s.srcCap ≤ a.toNat) : hostReadSrc a s = .fault .srcOutOfRange := by
  rw [hostReadSrc, if_neg (Nat.not_lt.2 ha)]

theorem hostReadDst_of_result {v : Byte} (hb : busy s = false) (hp : s.phase = .done) (hl : a.toNat < s.dstLen.toNat)
    (ha : a.toNat < s.dstCap) (hv : Table.get s.dst a.toNat = some v) :
    hostReadDst a s = .next { s with reply := v.setWidth 64 } := by
  have hres : resultByte a.toNat s = some v := by rw [resultByte, if_pos ⟨hp, hl⟩, hv]
  simp only [hostReadDst, hb, Bool.false_eq_true, if_false, if_pos ha, hres, State.replied]

/-- Outside a run a read of DST below its capacity answers, and changes nothing else (R205, U22). -/
theorem hostReadDst_answers (hb : busy s = false) (ha : a.toNat < s.dstCap) :
    ∃ t, hostReadDst a s = .next t ∧ OnlyReplied s t := by
  have : ∃ t, hostReadDst a s = .next t := by
    unfold hostReadDst
    rw [hb, if_neg (by decide), if_pos ha]
    split <;> exact ⟨_, rfl⟩
  exact this.imp fun t ht => ⟨ht, hostReadDst_next ht⟩

theorem hostReadDst_beyond (hb : busy s = false) (ha : s.dstCap ≤ a.toNat) : hostReadDst a s = .fault .dstOutOfRange := by
  rw [hostReadDst, hb, if_neg (by decide), if_neg (Nat.not_lt.2 ha)]

theorem hostWriteSrc_of_lt (hb : busy s = false) (ha : a.toNat < s.srcCap) (v : Byte) :
    hostWriteSrc a v s = .next { s with src := Table.set s.src a.toNat v } := by
  rw [hostWriteSrc, hb, if_neg (by decide), if_pos ha]

theorem hostWriteSrc_beyond (hb : busy s = false) (ha : s.srcCap ≤ a.toNat) (v : Byte) :
    hostWriteSrc a v s = .fault .srcOutOfRange := by
  rw [hostWriteSrc, hb, if_neg (by decide), if_neg (Nat.not_lt.2 ha)]

theorem hostWriteDst_of_lt (hb : busy s = false) (ha : a.toNat < s.dstCap) (v : Byte) :
    hostWriteDst a v s = .next { s with dst := Table.set s.dst a.toNat v } := by
  rw [hostWriteDst, hb, if_neg (by decide), if_pos ha]

theorem hostWriteDst_beyond (hb : busy s = false) (ha : s.dstCap ≤ a.toNat) (v : Byte) :
    hostWriteDst a v s = .fault .dstOutOfRange := by
  rw [hostWriteDst, hb, if_neg (by decide), if_neg (Nat.not_lt.2 ha)]

theorem writeSrcLen_of_le {v : Word64} (hb : busy s = false) (hv : v.toNat ≤ s.srcCap) :
    writeSrcLen v s = .next { s with srcLen := v } := by
  rw [writeSrcLen, hb, if_neg (by decide), if_pos hv]

theorem writeSrcLen_overCap {v : Word64} (hb : busy s = false) (hv : s.srcCap < v.toNat) :
    writeSrcLen v s = .refused .srcLenOverCap := by
  rw [writeSrcLen, hb, if_neg (by decide), if_neg (Nat.not_le.2 hv)]

theorem writeDstLen_of_not_busy (hb : busy s = false) : writeDstLen s = .next s := by
  rw [writeDstLen, hb, if_neg (by decide)]

theorem readDstLen_of_not_busy (hb : busy s = false) : readReg 3 s = .next { s with reply := s.dstLen } := by
  simp only [readReg, hb, Bool.false_eq_true, if_false, State.replied]

theorem readDstLen_answers (s : State) : ∃ t, readReg 3 s = .next t ∧ OnlyReplied s t :=
  ⟨_, rfl, readReg_next (r := 3) rfl⟩

theorem command_overCap {p : Phase} (hb : busy s = false) (h : s.srcCap < s.srcLen.toNat) :
    command p s = .refused .srcLenOverCap := by
  rw [command, hb, if_neg (by decide), if_neg (Nat.not_le.2 h)]

/-! What the host may not do while BUSY (R49 item 4, U17). -/

theorem hostWriteSrc_of_busy (hb : busy s = true) (v : Byte) : hostWriteSrc a v s = .refused .hostAccessWhileBusy :=
  if_pos hb

theorem hostWriteDst_of_busy (hb : busy s = true) (v : Byte) : hostWriteDst a v s = .refused .hostAccessWhileBusy :=
  if_pos hb

theorem hostReadDst_of_busy (hb : busy s = true) : hostReadDst a s = .refused .hostAccessWhileBusy := if_pos hb

theorem writeSrcLen_of_busy (hb : busy s = true) (v : Word64) : writeSrcLen v s = .refused .hostAccessWhileBusy := if_pos hb

theorem writeDstLen_of_busy (hb : busy s = true) : writeDstLen s = .refused .hostAccessWhileBusy := if_pos hb

end

/-- Settles O13: each access by its lemma above. -/
theorem hostAccessWhileBusy : Obligations.HostAccessWhileBusy := by
  intro s hb
  exact ⟨fun a v => hostWriteSrc_of_busy hb v, fun a v => hostWriteDst_of_busy hb v, fun a => hostReadDst_of_busy hb,
    fun v => writeSrcLen_of_busy hb v, fun v => writeDstLen_of_busy hb,
    fun a v ha hv => hostReadSrc_of_placed ha hv, fun a ha => hostReadSrc_answers ha, fun a ha => hostReadSrc_beyond ha,
    fun _ => rfl, fun r v hr => ⟨writeReg_noSuch hr v s, readReg_noSuch hr s⟩, rfl, rfl, rfl,
    readDstLen_answers s⟩

/-- Settles O14: each access by its lemma above. -/
theorem hostAccessOutsideRun : Obligations.HostAccessOutsideRun := by
  intro s hb
  refine ⟨rfl, rfl, rfl, readDstLen_of_not_busy hb, fun _ => rfl, fun v hv => writeSrcLen_of_le hb hv,
    fun v => writeDstLen_of_not_busy hb, fun a v ha => ?_, fun a v ha hv => hostReadSrc_of_placed ha hv,
    fun a ha => hostReadSrc_answers ha, fun a v hp hl ha hv => hostReadDst_of_result hb hp hl ha hv,
    fun a ha => hostReadDst_answers hb ha, fun a v ha => ?_,
    fun a v ha => ⟨hostWriteSrc_beyond hb ha v, hostReadSrc_beyond ha⟩,
    fun a v ha => ⟨hostWriteDst_beyond hb ha v, hostReadDst_beyond hb ha⟩,
    fun r v hr => ⟨writeReg_noSuch hr v s, readReg_noSuch hr s⟩⟩
  · exact ⟨_, hostWriteSrc_of_lt hb ha v, Table.get_set_self .., fun b hne => Table.get_set_ne _ _ hne, rfl⟩
  · exact ⟨_, hostWriteDst_of_lt hb ha v, Table.get_set_self .., fun b hne => Table.get_set_ne _ _ hne, rfl⟩

/-- Settles O15: the write and both commands make the same test of `SRC_CAP`. -/
theorem srcLenBeyondCapRefused : Obligations.SrcLenBeyondCapRefused := by
  intro s hb
  refine ⟨fun v hv => writeSrcLen_overCap hb hv, fun h => ?_⟩
  simp only [exec, execCompress, execDecompress, command_overCap hb h, Res.outcome_refused, and_self]

end Sys2Proof.Machine

namespace Sys2Proof.Machine

/-! ### What no operation changes -/

/-- SRC, the capacities and the host's side: what no operation of the block may change (R13, R41, R205). -/
def hostSide (s : State) : Memory × Word64 × Nat × Nat × List HostAction × Word64 :=
  (s.src, s.srcLen, s.srcCap, s.dstCap, s.host, s.reply)

/-- What an operation that raises no error keeps besides: `PHASE`, `ERRKIND` and the select lines. -/
def control (s : State) : Phase × ErrKind × List Instr := (s.phase, s.errKind, s.issue)

/-- The operations that may read a child of a Leaf, a free value (U24, log 12). -/
def readsChild : Instr → Bool
  | .tbSer | .encTree | .decSymbol | .decSymbols | .fCode _ => true
  | _ => false

/-- The operations that may raise an error: the decoder's and the container's elements (R169, R221 to R223). -/
def mayRaise : Instr → Bool
  | .tbDes | .decTree | .decLen | .decSymbol | .decSymbols => true
  | .tEmpty | .tPresent | .nLeaf _ | .nInternal | .fLength _ | .fCode _ => true
  | _ => false

/-- What an operation keeps that ends ordinarily; where `F` holds, the count of free values too. -/
structure Completes (F : Prop) (s t : State) : Prop where
  hostSide : hostSide t = hostSide s
  control : control t = control s
  freeNext : F → t.freeNext = s.freeNext

/-- What holds after an error was raised (R226), which only an operation does for which `E` holds. -/
structure Raises (E F : Prop) (s t : State) : Prop where
  mayRaise : E
  hostSide : Machine.hostSide t = Machine.hostSide s
  phase : t.phase = .error
  freeNext : F → t.freeNext = s.freeNext

section
variable {E F : Prop}

theorem closed_completes : Closed (Completes F) (Raises E F) where
  refl _ := ⟨rfl, rfl, fun _ => rfl⟩
  trans h k := ⟨k.1.trans h.1, k.2.trans h.2, fun hF => (k.3 hF).trans (h.3 hF)⟩
  after h k := ⟨k.1, k.2.trans h.1, k.3, fun hF => (k.4 hF).trans (h.3 hF)⟩

theorem packerMoves_completes : PackerMoves (Completes F) (Raises E F) where
  toClosed := closed_completes
  push _ _ _ := ⟨rfl, rfl, fun _ => rfl⟩
  put _ _ _ := ⟨rfl, rfl, fun _ => rfl⟩
  clear _ := ⟨rfl, rfl, fun _ => rfl⟩

theorem unpackerMoves_completes : UnpackerMoves (Completes F) (Raises E F) where
  toClosed := closed_completes
  ahead _ _ _ := ⟨rfl, rfl, fun _ => rfl⟩
  align _ := ⟨rfl, rfl, fun _ => rfl⟩

theorem builderMoves_completes : BuilderMoves (Completes F) (Raises E F) where
  toClosed := closed_completes
  init _ := ⟨rfl, rfl, fun _ => rfl⟩
  writeNode _ _ _ _ := ⟨rfl, rfl, fun _ => rfl⟩
  activate _ _ _ := ⟨rfl, rfl, fun _ => rfl⟩
  remove _ _ := ⟨rfl, rfl, fun _ => rfl⟩
  root _ _ := ⟨rfl, rfl, fun _ => rfl⟩
  merged _ _ := ⟨rfl, rfl, fun _ => rfl⟩
  one _ := ⟨rfl, rfl, fun _ => rfl⟩
  count _ _ _ := ⟨rfl, rfl, fun _ => rfl⟩

theorem counterMoves_completes : CounterMoves (Completes F) (Raises E F) where
  toClosed := closed_completes
  clear _ := ⟨rfl, rfl, fun _ => rfl⟩
  count _ _ _ := ⟨rfl, rfl, fun _ => rfl⟩
  start _ := ⟨rfl, rfl, fun _ => rfl⟩
  ahead _ _ := ⟨rfl, rfl, fun _ => rfl⟩

theorem codebookMoves_completes : CodebookMoves (Completes F) (Raises E F) where
  toClosed := closed_completes
  clear _ := ⟨rfl, rfl, fun _ => rfl⟩
  code _ _ _ _ := ⟨rfl, rfl, fun _ => rfl⟩

theorem encoderMoves_completes : EncoderMoves (Completes F) (Raises E F) where
  toPackerMoves := packerMoves_completes
  start _ := ⟨rfl, rfl, fun _ => rfl⟩
  ahead _ _ := ⟨rfl, rfl, fun _ => rfl⟩

theorem parserMoves_completes (hE : E) : ParserMoves (Completes F) (Raises E F) where
  toUnpackerMoves := unpackerMoves_completes
  init _ := ⟨rfl, rfl, fun _ => rfl⟩
  writeNode _ _ _ _ := ⟨rfl, rfl, fun _ => rfl⟩
  alloc _ _ := ⟨rfl, rfl, fun _ => rfl⟩
  root _ _ := ⟨rfl, rfl, fun _ => rfl⟩
  raised _ := ⟨hE, rfl, rfl, fun _ => rfl⟩

theorem lengthMoves_completes (hE : E) : LengthMoves (Completes F) (Raises E F) where
  toUnpackerMoves := unpackerMoves_completes
  count _ _ := ⟨rfl, rfl, fun _ => rfl⟩
  raised _ := ⟨hE, rfl, rfl, fun _ => rfl⟩

theorem freeRead_completes (hF : ¬ F) (s : State) : Completes F s s.freeRead := ⟨rfl, rfl, fun h => absurd h hF⟩

theorem symbolMoves_completes (hE : E) (hF : ¬ F) : SymbolMoves (Completes F) (Raises E F) where
  toUnpackerMoves := unpackerMoves_completes
  atRoot _ := ⟨rfl, rfl, fun _ => rfl⟩
  leaf _ _ := ⟨rfl, rfl, fun _ => rfl⟩
  inner _ _ := ⟨rfl, rfl, fun _ => rfl⟩
  free := freeRead_completes hF
  truncated _ := ⟨hE, rfl, rfl, fun _ => rfl⟩
  unreachable _ := ⟨hE, rfl, rfl, fun _ => rfl⟩
  push _ _ _ := ⟨rfl, rfl, fun _ => rfl⟩
  emitted _ := ⟨rfl, rfl, fun _ => rfl⟩

end

/-- The updates of every operation but the two commands, which move `PHASE` themselves. -/
theorem unitMoves_completes {i : Instr} (hi : i.format ≠ .cmd) :
    UnitMoves (Completes (readsChild i = false)) (Raises (mayRaise i = true) (readsChild i = false)) i := by
  cases i with
  | compress | decompress => exact absurd rfl hi
  | fcClear | fcCount | fcScan | encCount => exact counterMoves_completes
  | tbInit | tbMerge | tbBuild | encBuild => exact builderMoves_completes
  | tbSer | encTree => exact ⟨packerMoves_completes, freeRead_completes (by decide)⟩
  | tbDes | decTree | tEmpty | tPresent | nLeaf | nInternal => exact parserMoves_completes rfl
  | cbGen | encCodebook => exact codebookMoves_completes
  | bwReset | brReset => exact fun _ => ⟨rfl, rfl, fun _ => rfl⟩
  | bwPut | bwPutn | bwAlign | bwFlush | bwPutbyte | encLen | encFlush => exact packerMoves_completes
  | brGet | brGetn | brGetbyte => exact ⟨unpackerMoves_completes, fun _ _ => ⟨rfl, rfl, fun _ => rfl⟩⟩
  | brAlign | fPad => exact unpackerMoves_completes
  | encCodes => exact encoderMoves_completes
  | decLen | fLength => exact lengthMoves_completes rfl
  | decSymbol | fCode => exact symbolMoves_completes rfl Bool.noConfusion
  | decSymbols => exact ⟨symbolMoves_completes rfl Bool.noConfusion, fun _ => ⟨rfl, rfl, fun _ => rfl⟩⟩

/-- What any operation but a command does to the host's side, to `PHASE`, `ERRKIND` and the select lines. -/
theorem exec_completes_or_raises {i : Instr} {s t : State} (hi : i.format ≠ .cmd) (h : exec i s = .next t) :
    Completes (readsChild i = false) s t ∨ Raises (mayRaise i = true) (readsChild i = false) s t :=
  exec_moves (unitMoves_completes hi) h

/-- A command is COMPRESS or DECOMPRESS: it leaves the state as it is, or starts its run (R200 to R202). -/
theorem exec_command_next {i : Instr} {s t : State} (hi : i.format = .cmd) (h : exec i s = .next t) :
    t = s ∨ ∃ p, t = s.started p := by
  cases i with
  | compress | decompress => exact (command_next h).elim (fun h => .inl h.2) fun h => .inr ⟨_, h.2.2⟩
  | _ => cases hi

/-- No operation changes the host's side, nor the count of free values unless it may read a Leaf's child. -/
theorem exec_keeps_hostSide {i : Instr} {s t : State} (h : exec i s = .next t) :
    hostSide t = hostSide s ∧ (readsChild i = false → t.freeNext = s.freeNext) := by
  by_cases hi : i.format = .cmd
  · rcases exec_command_next hi h with rfl | ⟨p, rfl⟩ <;> exact ⟨rfl, fun _ => rfl⟩
  · rcases exec_completes_or_raises hi h with hc | hr
    · exact ⟨hc.hostSide, hc.freeNext⟩
    · exact ⟨hr.hostSide, hr.freeNext⟩

/-- Settles O16, by `exec_keeps_hostSide`. -/
theorem noOperationWritesSrc : Obligations.NoOperationWritesSrc := by
  intro i s t h
  obtain ⟨hs, hf⟩ := exec_keeps_hostSide h
  simp only [hostSide, Prod.mk.injEq] at hs
  obtain ⟨hsrc, hsrcLen, hsrcCap, hdstCap, hhost, hreply⟩ := hs
  refine ⟨hsrc, hsrcLen, hsrcCap, hdstCap, hhost, hreply, fun hn hc => hf ?_⟩
  cases i with
  | tbSer | encTree | decSymbol | decSymbols => exact absurd hn (by decide)
  | fCode p => exact absurd rfl (hc p)
  | _ => rfl

/-! ### The phases -/

/-- A phase's operation leaves `PHASE`, or has raised an error, which only the decoder's phases do (R15, R169). -/
theorem phase_of_phaseOp {s t : State} {i : Instr} (hp : phaseOp s.phase = some i) (h : exec i s = .next t) :
    t.phase = s.phase ∨ (mayRaise i = true ∧ t.phase = .error) := by
  have hi : i.format ≠ .cmd := by
    revert hp
    cases s.phase <;> rintro ⟨⟩ <;> decide
  rcases exec_completes_or_raises hi h with hc | hr
  · exact .inl (congrArg Prod.fst hc.control)
  · exact .inr ⟨hr.mayRaise, hr.phase⟩

/-- The arrow that a step of the block alone takes: the one of its phase, or the one to ERROR. -/
theorem phase_of_step {s t : State} (ha : Alone s) (h : step s = .next t) :
    t.phase = nextPhase { t with phase := s.phase } ∨
    (t.phase = .error ∧ s.phase ∈ [.dTree, .dLen, .dSymbols]) := by
  rw [step_of_noAction ha.1] at h
  rcases blockStep_next h with ⟨i, rest, hi, -⟩ | ⟨-, i, u, hp, he, rfl⟩ | ⟨-, hb, rfl⟩
  · exact absurd (ha.2.symm.trans hi) (List.cons_ne_nil _ _).symm
  · rcases phase_of_phaseOp hp he with hu | ⟨hm, hu⟩
    · left
      rw [← hu]
      rfl
    · right
      refine ⟨(nextPhase_error_iff u).2 hu, ?_⟩
      revert hm hp
      cases s.phase <;> rintro ⟨⟩ <;> decide
  · exact .inl (nextPhase_of_quiet hb).symm

theorem command_phase {p : Phase} {s t : State} (hb : busy s = false) (h : (command p s).outcome = .next t) :
    t.phase = p := by
  rcases command_next h with ⟨hb', -⟩ | ⟨-, -, rfl⟩
  · exact absurd (hb.symm.trans hb') (by decide)
  · rfl

/-- Settles O9: the reset state and the commands by definition; a step of the block alone takes the arrow of its phase or
the one to ERROR (`phase_of_step`). -/
theorem phaseMovesAlongArrows : Obligations.PhaseMovesAlongArrows := by
  refine ⟨rfl, fun s t hb h => command_phase hb h, fun s t hb h => command_phase hb h, fun s t ha h => ?_⟩
  have hstep := phase_of_step ha h
  unfold nextPhase at hstep
  refine ⟨?_, ?_, ?_, ?_, ?_, ?_, ?_, ?_, ?_, ?_, ?_, ?_, ?_⟩ <;> intro hp <;> simpa [hp] using hstep

end Sys2Proof.Machine

namespace Sys2Proof.Machine

/-! ### What the decoder's operations leave unchanged -/

/-- What the decoder's operations and the container's elements change in no case (R13, R226). -/
def decoderRest (s : State) : Word64 × List Nat × BitVec 8 × BitVec 3 × Word64 × Table Word64 × Table (BitVec 8) ×
    Table CodeWord × Memory × Nat × Nat × List HostAction × Word64 × Word64 :=
  (s.srcLen, s.active, s.acc, s.nbits, s.epos, s.freq, s.codeLen, s.codeBits, s.src, s.srcCap, s.dstCap, s.host, s.ret,
    s.reply)

/-- What a decoder's operation does that ends ordinarily: it only appends to DST. -/
structure DecoderKeeps (s t : State) : Prop where
  rest : decoderRest t = decoderRest s
  control : control t = control s
  dst : s.dstCap < 2 ^ 64 → s.dstLen.toNat ≤ t.dstLen.toNat ∧ DstOnlyAppended s t

/-- What holds after a decoder's operation has raised an error (R226). -/
structure DecoderRaised (s t : State) : Prop where
  rest : decoderRest t = decoderRest s
  phase : t.phase = .error
  errKind : t.errKind ≠ .none
  issue : t.issue = []
  dstLen : t.dstLen = 0
  below : s.dstCap < 2 ^ 64 → ∀ a, a < s.dstLen.toNat → Table.get t.dst a = Table.get s.dst a

theorem eq_of_decoderRest {s t : State} (h : decoderRest t = decoderRest s) :
    t = { s with
      n := t.n, nint := t.nint, nalloc := t.nalloc, root := t.root, node := t.node, bp := t.bp,
      count := t.count, emitted := t.emitted, dnode := t.dnode, dstate := t.dstate, dst := t.dst, dstLen := t.dstLen,
      errKind := t.errKind, phase := t.phase, issue := t.issue, freeNext := t.freeNext } := by
  cases s
  cases t
  simpa [decoderRest, and_assoc] using h

theorem dstCap_of_decoderRest {s t : State} (h : decoderRest t = decoderRest s) : t.dstCap = s.dstCap := by
  rw [eq_of_decoderRest h]

theorem DecoderKeeps.of_dst {s t : State} (h1 : decoderRest t = decoderRest s) (h2 : Machine.control t = Machine.control s)
    (h3 : t.dst = s.dst) (h4 : t.dstLen = s.dstLen) : DecoderKeeps s t :=
  ⟨h1, h2, fun _ => ⟨by rw [h4], fun a _ => by rw [h3]⟩⟩

theorem closed_decoder : Closed DecoderKeeps DecoderRaised where
  refl _ := .of_dst rfl rfl rfl rfl
  trans {s t u} h k := by
    refine ⟨k.rest.trans h.rest, k.control.trans h.control, fun hc => ?_⟩
    obtain ⟨hle, ha⟩ := h.dst hc
    obtain ⟨kle, ka⟩ := k.dst (by rwa [dstCap_of_decoderRest h.rest])
    exact ⟨hle.trans kle, fun a hr => (ka a (by omega)).trans (ha a (by omega))⟩
  after {s t u} h k := by
    refine ⟨k.rest.trans h.rest, k.phase, k.errKind, k.issue, k.dstLen, fun hc a hlt => ?_⟩
    obtain ⟨hle, ha⟩ := h.dst hc
    exact (k.below (by rwa [dstCap_of_decoderRest h.rest]) a (by omega)).trans (ha a (.inl hlt))

theorem raised_decoder (s : State) {k : ErrKind} (hk : k ≠ .none) : DecoderRaised s (s.raised k) :=
  ⟨rfl, rfl, hk, rfl, rfl, fun _ _ _ => rfl⟩

theorem unpackerMoves_decoder : UnpackerMoves DecoderKeeps DecoderRaised where
  toClosed := closed_decoder
  ahead _ _ _ := .of_dst rfl rfl rfl rfl
  align _ := .of_dst rfl rfl rfl rfl

theorem parserMoves_decoder : ParserMoves DecoderKeeps DecoderRaised where
  toUnpackerMoves := unpackerMoves_decoder
  init _ := .of_dst rfl rfl rfl rfl
  writeNode _ _ _ _ := .of_dst rfl rfl rfl rfl
  alloc _ _ := .of_dst rfl rfl rfl rfl
  root _ _ := .of_dst rfl rfl rfl rfl
  raised s := raised_decoder s (by decide)

theorem lengthMoves_decoder : LengthMoves DecoderKeeps DecoderRaised where
  toUnpackerMoves := unpackerMoves_decoder
  count _ _ := .of_dst rfl rfl rfl rfl
  raised s := raised_decoder s (by decide)

theorem symbolMoves_decoder : SymbolMoves DecoderKeeps DecoderRaised where
  toUnpackerMoves := unpackerMoves_decoder
  atRoot _ := .of_dst rfl rfl rfl rfl
  leaf _ _ := .of_dst rfl rfl rfl rfl
  inner _ _ := .of_dst rfl rfl rfl rfl
  free _ := .of_dst rfl rfl rfl rfl
  truncated s := raised_decoder s (by decide)
  unreachable s := raised_decoder s (by decide)
  push s v hlt := by
    refine ⟨rfl, rfl, fun hc => ⟨?_, pushDst_below v ⟨hlt, hc⟩⟩⟩
    have : (s.dstLen + 1).toNat = s.dstLen.toNat + 1 := toNat_add_one_of_lt hlt hc
    show s.dstLen.toNat ≤ (s.dstLen + 1).toNat
    omega
  emitted _ := .of_dst rfl rfl rfl rfl

/-- The operations of the decoder, and the elements of the container. -/
def OfDecoder (i : Instr) : Prop := i ∈ [.tbDes, .decTree, .decLen, .decSymbol, .decSymbols] ∨ i.format = .container

/-- The operations that write symbols to DST (R184). -/
def emits : Instr → Bool
  | .decSymbol | .decSymbols | .fCode _ => true
  | _ => false

theorem unitMoves_decoder {i : Instr} (hi : OfDecoder i) : UnitMoves DecoderKeeps DecoderRaised i := by
  cases i with
  | tbDes | decTree | tEmpty | tPresent | nLeaf | nInternal => exact parserMoves_decoder
  | decLen | fLength => exact lengthMoves_decoder
  | decSymbol | fCode => exact symbolMoves_decoder
  | decSymbols => exact ⟨symbolMoves_decoder, fun _ => .of_dst rfl rfl rfl rfl⟩
  | fPad => exact unpackerMoves_decoder
  | _ => simp [OfDecoder, Instr.format] at hi

/-! ### What they do to DST -/

/-- DST is as it was. -/
def KeepsDst (s t : State) : Prop := t.dst = s.dst

theorem unpackerMoves_keepsDst : UnpackerMoves KeepsDst KeepsDst where
  refl _ := rfl
  trans h k := Eq.trans k h
  after h k := Eq.trans k h
  ahead _ _ _ := rfl
  align _ := rfl

theorem parserMoves_keepsDst : ParserMoves KeepsDst KeepsDst where
  toUnpackerMoves := unpackerMoves_keepsDst
  init _ := rfl
  writeNode _ _ _ _ := rfl
  alloc _ _ := rfl
  root _ _ := rfl
  raised _ := rfl

theorem lengthMoves_keepsDst : LengthMoves KeepsDst KeepsDst where
  toUnpackerMoves := unpackerMoves_keepsDst
  count _ _ := rfl
  raised _ := rfl

/-- An operation of the decoder that emits no symbol leaves DST as it is, also where it raises. -/
theorem exec_keepsDst {i : Instr} {s t : State} (hi : OfDecoder i) (he : emits i = false) (h : exec i s = .next t) :
    t.dst = s.dst := by
  have hm : UnitMoves KeepsDst KeepsDst i := by
    cases i with
    | tbDes | decTree | tEmpty | tPresent | nLeaf | nInternal => exact parserMoves_keepsDst
    | decLen | fLength => exact lengthMoves_keepsDst
    | fPad => exact unpackerMoves_keepsDst
    | decSymbol | fCode | decSymbols => cases he
    | _ => simp [OfDecoder, Instr.format] at hi
  exact (exec_moves hm h).elim id id

/-- Two pairs of relations that a result respects, together. -/
theorem Responds.and {α : Type} {R Q R' Q' : State → State → Prop} {s : State} {r : Res α} (h : Responds R Q s r)
    (h' : Responds R' Q' s r) : Responds (fun s t => R s t ∧ R' s t) (fun s t => Q s t ∧ Q' s t) s r := by
  cases r with
  | ok | raised => exact ⟨h, h'⟩
  | fault | refused => trivial

/-- Where DEC_SYMBOLS raises, it has written no byte beyond those that `EMITTED` counts (R185, R226). -/
theorem decSymbols_raised_dst {s : State} (hc : s.dstCap < 2 ^ 64) :
    Responds (fun _ _ => True) (fun s t => ∀ a, s.dstLen.toNat + t.emitted.toNat ≤ a → Table.get t.dst a = Table.get s.dst a)
      s (decSymbols s) := by
  cases hr : decSymbols s with
  | raised t => exact (symbolsLoop_raised (s := { s with emitted := 0 }) hc hr).2
  | ok | fault | refused => trivial

/-- The bytes of DST that may have changed where an operation of the decoder has raised. -/
def DstAfterRaise (i : Instr) (s t : State) : Prop :=
  (i ≠ .decSymbols → t.dst = s.dst) ∧
  (i = .decSymbols → ∀ a, s.dstLen.toNat + t.emitted.toNat ≤ a → Table.get t.dst a = Table.get s.dst a)

theorem DstAfterRaise.of_dst {i : Instr} {s t : State} (h : t.dst = s.dst) : DstAfterRaise i s t :=
  ⟨fun _ => h, fun _ a _ => by rw [h]⟩

/-- What an operation of the decoder, or an element of the container, answers. -/
theorem exec_decoder_next {i : Instr} {s t : State} (hi : OfDecoder i) (hc : s.dstCap < 2 ^ 64) (h : exec i s = .next t) :
    DecoderKeeps s t ∨ (DecoderRaised s t ∧ DstAfterRaise i s t) := by
  cases he : emits i with
  | false => exact (exec_moves (unitMoves_decoder hi) h).imp_right fun hr => ⟨hr, .of_dst (exec_keepsDst hi he h)⟩
  | true =>
    cases i with
    | decSymbol =>
      have hm := (moves_decSymbol symbolMoves_decoder s).and (emits_decSymbol s)
      exact (hm.outcome_or h).imp And.left fun hr => ⟨hr.1, .of_dst hr.2.1⟩
    | fCode bits =>
      have hm := (moves_fCode symbolMoves_decoder bits s).and (emits_fCode bits s)
      exact (hm.outcome_or h).imp And.left fun hr => ⟨hr.1, .of_dst hr.2.1⟩
    | decSymbols =>
      have hm := (moves_decSymbols symbolMoves_decoder (fun _ => .of_dst rfl rfl rfl rfl) s).and (decSymbols_raised_dst hc)
      exact (hm.outcome_or h).imp And.left fun hr => ⟨hr.1, fun hne => absurd rfl hne, fun _ => hr.2⟩
    | _ => cases he

/-- Settles O52: what each operation answers (`exec_decoder_next`), and DST where it emits nothing (`exec_keepsDst`). -/
theorem decoderFrame : Obligations.DecoderFrame := by
  intro i s t hi hc h
  have hquiet : i ≠ .decSymbol → i ≠ .decSymbols → (∀ p, i ≠ .fCode p) → t.dst = s.dst ∧ t.freeNext = s.freeNext := by
    intro h1 h2 h3
    have he : emits i = false ∧ readsChild i = false := by
      cases i with
      | decSymbol => exact absurd rfl h1
      | decSymbols => exact absurd rfl h2
      | fCode p => exact absurd rfl (h3 p)
      | tbSer | encTree => simp [Instr.format] at hi
      | _ => exact ⟨rfl, rfl⟩
    exact ⟨exec_keepsDst hi he.1 h, (exec_keeps_hostSide h).2 he.2⟩
  rcases exec_decoder_next hi hc h with hk | ⟨hr, hd⟩
  · obtain ⟨hle, ha⟩ := hk.dst hc
    have hctl := hk.control
    simp only [control, Prod.mk.injEq] at hctl
    obtain ⟨hphase, herr, hissue⟩ := hctl
    exact ⟨eq_of_decoderRest hk.rest, fun a hlt => ha a (.inl hlt), hquiet, .inl ⟨hphase, herr, hissue, hle, ha⟩⟩
  · exact ⟨eq_of_decoderRest hr.rest, hr.below hc, hquiet,
      .inr ⟨hr.phase, hr.errKind, hr.issue, hr.dstLen, hd.1, hd.2⟩⟩

end Sys2Proof.Machine

/-! ## Proofs of the statements about the encodings (30_encoding.md)

### The decoder on an encoding
-/

namespace Sys2Proof

section
variable {i : Instr} {w v lo hi : Nat} {bs rest : List Bit} {f : Nat → Instr}

theorem decode_cmd_bitsOf (hv : v < 2 ^ 8) (h : decodeCmd v = .ok i) (rest : List Bit) :
    decode .cmd (bitsOf 8 v ++ rest) = .ok (i, rest) := by
  simp only [decode, takeNat_bitsOf hv, h]

/-- The select lines name the operation; its operand bits follow (R75, log 14). -/
theorem decode_uop_bitsOf (hv : v < 2 ^ 5) (bs : List Bit) : decode .uop (bitsOf 5 v ++ bs) = decodeUop v bs := by
  simp only [decode, takeNat_bitsOf hv]

theorem decode_uop_operand (hv : v < 2 ^ 5) (h : decodeUop v (bs ++ rest) = .ok (i, rest)) :
    decode .uop (bitsOf 5 v ++ bs ++ rest) = .ok (i, rest) := by
  rw [List.append_assoc, decode_uop_bitsOf hv, h]

theorem decodeWith_bitsOf (hv : v < 2 ^ w) (f : Nat → Instr) (rest : List Bit) :
    decodeWith w f (bitsOf w v ++ rest) = .ok (f v, rest) := by
  simp only [decodeWith, takeNat_bitsOf hv]

/-- An operand of `w` bits that the constructor `g` takes as it is. -/
theorem decodeWith_ofNat (g : BitVec w → Instr) (x : BitVec w) (rest : List Bit) :
    decodeWith w (fun v => g (BitVec.ofNat w v)) (bitsOf w x.toNat ++ rest) = .ok (g x, rest) := by
  rw [decodeWith_bitsOf x.isLt, BitVec.ofNat_toNat, BitVec.setWidth_eq]

theorem decodeRun_append (hlo : lo ≤ bs.length) (hhi : bs.length ≤ hi) (g : List Bit → Instr) (rest : List Bit) :
    decodeRun lo hi bs.length g (bs ++ rest) = .ok (g bs, rest) := by
  have hr : ¬ (bs.length < lo ∨ hi < bs.length) := by omega
  simp only [decodeRun, if_neg hr, splitBits_append]

theorem decodeGetn_bitsOf {n : BitVec 7} (h : Instr.getnOk n = true) (rest : List Bit) :
    decodeGetn (bitsOf 7 (n.toNat - 1) ++ rest) = .ok (.brGetn n, rest) := by
  simp only [Instr.getnOk, Bool.and_eq_true, decide_eq_true_eq] at h
  obtain ⟨h1, h64⟩ := h
  have hlt : n.toNat - 1 < 2 ^ 7 := by omega
  have hm : n.toNat - 1 < 64 := by omega
  simp only [decodeGetn, takeNat_bitsOf hlt, if_pos hm, Nat.sub_add_cancel h1, BitVec.ofNat_toNat, BitVec.setWidth_eq]

theorem decodePutn_bitsOf {n : BitVec 8} {v : CodeWord} (h : Instr.putnOk n v = true) (rest : List Bit) :
    decodePutn (bitsOf 8 (n.toNat - 1) ++ bitsOf 255 v.toNat ++ rest) = .ok (.bwPutn n v, rest) := by
  simp only [Instr.putnOk, Bool.and_eq_true, decide_eq_true_eq] at h
  obtain ⟨h1, hv⟩ := h
  have hn := n.isLt
  have hlt : n.toNat - 1 < 2 ^ 8 := by omega
  have hne : ¬ n.toNat - 1 = 255 := by omega
  rw [List.append_assoc]
  simp only [decodePutn, takeNat_bitsOf hlt, takeNat_bitsOf v.isLt, if_neg hne, Nat.sub_add_cancel h1, if_pos hv,
    BitVec.ofNat_toNat, BitVec.setWidth_eq]

/-- One bit as an operand (R141). -/
theorem bitsOf_one (b : Bit) : bitsOf 1 b.toNat = [b] := by cases b <;> rfl

/-- The decoder gives an encoded operation back, format by format. -/
theorem decode_encode (h : i.wellFormed = true) (rest : List Bit) :
    decode (channel i) (encode i ++ rest) = .ok (i, rest) := by
  cases i with
  | compress | decompress => exact decode_cmd_bitsOf (by decide) rfl rest
  | fcCount b => exact decode_uop_operand (by decide) (decodeWith_ofNat .fcCount b rest)
  | bwPutbyte v => exact decode_uop_operand (by decide) (decodeWith_ofNat .bwPutbyte v rest)
  | bwPut b =>
    have hb : (b.toNat == 1) = b := by cases b <;> rfl
    have hd := decodeWith_bitsOf b.toNat_lt (w := 1) (fun v => .bwPut (v == 1)) rest
    rw [bitsOf_one, hb] at hd
    exact decode_uop_operand (by decide) hd
  | bwPutn n v => exact decode_uop_operand (by decide) (decodePutn_bitsOf h rest)
  | brGetn n => exact decode_uop_operand (by decide) (decodeGetn_bitsOf h rest)
  | tEmpty | tPresent | nInternal => rfl
  | nLeaf sym => exact decodeWith_ofNat .nLeaf sym rest
  | fLength len => exact decodeWith_ofNat .fLength len rest
  | fCode bits =>
    simp only [Instr.wellFormed, Instr.codeOk, Bool.and_eq_true, decide_eq_true_eq] at h
    exact decodeRun_append h.1 h.2 .fCode rest
  | fPad bits =>
    simp only [Instr.wellFormed, Instr.padOk, decide_eq_true_eq] at h
    exact decodeRun_append (Nat.zero_le _) h .fPad rest
  | _ => exact decode_uop_bitsOf (by decide) rest

/-! ### What the decoder accepts -/

/-- Of its channel, well-formed, and its encoding what was read. -/
def Accepts (c : Channel) (bs : List Bit) (i : Instr) (rest : List Bit) : Prop :=
  i.wellFormed = true ∧ channel i = c ∧ bs = encode i ++ rest

theorem decodeCmd_ok (h : decodeCmd v = .ok i) : Accepts .cmd (bitsOf 8 v ++ rest) i rest := by
  unfold decodeCmd at h
  split at h
  · next hv => cases h; subst hv; exact ⟨rfl, rfl, rfl⟩
  · split at h
    · next hv => cases h; subst hv; exact ⟨rfl, rfl, rfl⟩
    · cases h

theorem decodeWith_ok (h : decodeWith w f bs = .ok (i, rest)) : ∃ v, v < 2 ^ w ∧ f v = i ∧ bs = bitsOf w v ++ rest := by
  unfold decodeWith at h
  split at h
  · cases h
  · next v r ht =>
    cases h
    obtain ⟨hbs, hv⟩ := takeNat_ok ht
    exact ⟨v, hv, rfl, hbs⟩

theorem decodeWith_ofNat_ok {g : BitVec w → Instr} (h : decodeWith w (fun v => g (BitVec.ofNat w v)) bs = .ok (i, rest)) :
    ∃ x : BitVec w, g x = i ∧ bs = bitsOf w x.toNat ++ rest := by
  obtain ⟨v, hv, rfl, rfl⟩ := decodeWith_ok h
  exact ⟨BitVec.ofNat w v, rfl, by rw [BitVec.toNat_ofNat, Nat.mod_eq_of_lt hv]⟩

theorem decodeRun_ok {n : Nat} {g : List Bit → Instr} (h : decodeRun lo hi n g bs = .ok (i, rest)) :
    ∃ x, g x = i ∧ bs = x ++ rest ∧ x.length = n ∧ lo ≤ n ∧ n ≤ hi := by
  unfold decodeRun at h
  split at h
  · cases h
  · next hr =>
    split at h
    · next x r hx =>
      cases h
      obtain ⟨hbs, hl⟩ := splitBits_some hx
      exact ⟨x, rfl, hbs, hl, by omega, by omega⟩
    · cases h

theorem decodeGetn_ok (h : decodeGetn bs = .ok (i, rest)) :
    ∃ n, i = .brGetn n ∧ Instr.getnOk n = true ∧ bs = bitsOf 7 (n.toNat - 1) ++ rest := by
  unfold decodeGetn at h
  split at h
  · cases h
  · next m r ht =>
    split at h
    · next hm =>
      cases h
      obtain ⟨hbs, -⟩ := takeNat_ok ht
      have hn : (BitVec.ofNat 7 (m + 1)).toNat = m + 1 := by
        rw [BitVec.toNat_ofNat, Nat.mod_eq_of_lt (by omega)]
      refine ⟨_, rfl, ?_, by rw [hn, Nat.add_sub_cancel, hbs]⟩
      simp only [Instr.getnOk, hn, Bool.and_eq_true, decide_eq_true_eq]
      omega
    · cases h

theorem decodePutn_ok (h : decodePutn bs = .ok (i, rest)) :
    ∃ n v, i = .bwPutn n v ∧ Instr.putnOk n v = true ∧
      bs = bitsOf 8 (n.toNat - 1) ++ bitsOf 255 v.toNat ++ rest := by
  unfold decodePutn at h
  split at h
  · cases h
  · next m bs' ht =>
    split at h
    · cases h
    · next v r hv =>
      obtain ⟨rfl, hm⟩ := takeNat_ok ht
      obtain ⟨rfl, hv255⟩ := takeNat_ok hv
      split at h
      · cases h
      · next hne =>
        split at h
        · next hvm =>
          cases h
          have h8 : (BitVec.ofNat 8 (m + 1)).toNat = m + 1 := by
            rw [BitVec.toNat_ofNat, Nat.mod_eq_of_lt (by omega)]
          have h255 : (BitVec.ofNat 255 v).toNat = v := by rw [BitVec.toNat_ofNat, Nat.mod_eq_of_lt hv255]
          refine ⟨_, _, rfl, ?_, by rw [h8, h255, Nat.add_sub_cancel, List.append_assoc]⟩
          simp only [Instr.putnOk, h8, h255, Bool.and_eq_true, decide_eq_true_eq]
          exact ⟨by omega, hvm⟩
        · cases h

/-- Every `UOPSEL` below 31 is an operation's, and 31 is none (R75). -/
theorem decodeUop_ok (h : decodeUop v bs = .ok (i, rest)) : Accepts .uop (bitsOf 5 v ++ bs) i rest := by
  unfold decodeUop at h
  split at h
  -- The operations with operand bits: FC_COUNT and BW_PUTBYTE, BW_PUT, BW_PUTN, BR_GETN; then the value that is none.
  case h_2 | h_15 =>
    obtain ⟨x, rfl, rfl⟩ := decodeWith_ofNat_ok h
    exact ⟨rfl, rfl, (List.append_assoc ..).symm⟩
  case h_11 =>
    obtain ⟨v, hv, rfl, rfl⟩ := decodeWith_ok h
    have hv : v = (v == 1).toNat := by
      obtain rfl | rfl : v = 0 ∨ v = 1 := by omega
      · rfl
      · rfl
    rw [hv, bitsOf_one]
    exact ⟨rfl, rfl, by simp [encode]⟩
  case h_12 =>
    obtain ⟨n, v, rfl, hok, rfl⟩ := decodePutn_ok h
    exact ⟨hok, rfl, (List.append_assoc ..).symm⟩
  case h_18 =>
    obtain ⟨n, rfl, hok, rfl⟩ := decodeGetn_ok h
    exact ⟨hok, rfl, (List.append_assoc ..).symm⟩
  case h_32 => cases h
  all_goals
    cases h
    exact ⟨rfl, rfl, rfl⟩

theorem decodePresence_ok (h : decodePresence bs = .ok (i, rest)) : Accepts .presence bs i rest := by
  match bs, h with
  | false :: _, h | true :: _, h => cases h; exact ⟨rfl, rfl, rfl⟩

theorem decodeNode_ok (h : decodeNode bs = .ok (i, rest)) : Accepts .node bs i rest := by
  match bs, h with
  | false :: _, h => cases h; exact ⟨rfl, rfl, rfl⟩
  | true :: bs, h =>
    obtain ⟨x, rfl, rfl⟩ := decodeWith_ofNat_ok (bs := bs) (g := .nLeaf) h
    exact ⟨rfl, rfl, rfl⟩

/-- What the decoder answers at a channel, by the decoder of that channel. -/
theorem decode_accepts {c : Channel} (h : decode c bs = .ok (i, rest)) : Accepts c bs i rest := by
  cases c with
  | cmd =>
    simp only [decode] at h
    split at h
    · cases h
    · next v r ht =>
      split at h
      · cases h
      · next hd =>
        cases h
        rw [(takeNat_ok ht).1]
        exact decodeCmd_ok hd
  | uop =>
    simp only [decode] at h
    split at h
    · cases h
    · next v r ht =>
      rw [(takeNat_ok ht).1]
      exact decodeUop_ok h
  | presence => exact decodePresence_ok h
  | node => exact decodeNode_ok h
  | length =>
    obtain ⟨x, rfl, rfl⟩ := decodeWith_ofNat_ok (g := .fLength) h
    exact ⟨rfl, rfl, rfl⟩
  | code n =>
    obtain ⟨x, rfl, rfl, rfl, hlo, hhi⟩ := decodeRun_ok h
    exact ⟨by simp [Instr.wellFormed, Instr.codeOk, hlo, hhi], rfl, rfl⟩
  | pad n =>
    obtain ⟨x, rfl, rfl, rfl, -, hhi⟩ := decodeRun_ok h
    exact ⟨by simp [Instr.wellFormed, Instr.padOk, hhi], rfl, rfl⟩

end

/-- Settles O5, by `decode_encode`. -/
theorem decodeOfEncodeIsIdentity : Obligations.DecodeOfEncodeIsIdentity := fun _ rest h => decode_encode h rest

/-- Settles O6, by `decode_accepts`. -/
theorem decodeAcceptsOnlyEncodings : Obligations.DecodeAcceptsOnlyEncodings := fun _ _ _ _ h => decode_accepts h

end Sys2Proof

namespace Sys2Proof

/-! ### The words of the spec -/

/-- Settles O7: a bit sequence written out is the encoding of the operation it stands for (`decode_encode`); the table's
words are evaluated. -/
theorem specWordsDecode : Obligations.SpecWordsDecode :=
  ⟨by decide, by decide, by decide, by decide, by decide, by decide, by decide, by decide, by decide, by decide,
    decode_encode (i := .tEmpty) rfl [], decode_encode (i := .tPresent) rfl [], decode_encode (i := .nLeaf 0x41) rfl [],
    decode_encode (i := .nInternal) rfl [], decode_encode (i := .fLength 10000) rfl []⟩

end Sys2Proof

namespace Sys2Proof.Machine

/-! ### The fields of `STATUS` -/

theorem statusByte_fields (s : State) :
    (statusByte s).extractLsb' 4 4 = 0#4 ∧ (statusByte s).extractLsb' 0 2 = stateCode s.phase ∧
      (statusByte s).extractLsb' 2 2 = errCode s.errKind := by
  unfold statusByte
  generalize errCode s.errKind = e
  generalize stateCode s.phase = c
  revert e c
  decide

/-- `STATE` by `PHASE` (R12): every phase but IDLE, DONE and ERROR is one of a run. -/
theorem stateCode_eq (p : Phase) :
    stateCode p = if p = .idle then 0#2 else if p = .done then 2#2 else if p = .error then 3#2 else 1#2 := by
  cases p <;> rfl

/-- `ERRKIND` is set exactly in ERROR, so that only six of the pairs of `STATE` and `ERRKIND` occur (R73). -/
theorem statusByte_mem {s : State} (h : s.errKind ≠ .none ↔ s.phase = .error) :
    statusByte s ∈ [0x00#8, 0x01#8, 0x02#8, 0x07#8, 0x0B#8, 0x0F#8] := by
  unfold statusByte
  by_cases hp : s.phase = .error
  · have he := h.2 hp
    rw [hp]
    cases hk : s.errKind with
    | none => exact absurd hk he
    | malformedContainer | truncatedBitstream | unreachableSymbol => decide
  · have he : s.errKind = .none := by_contra fun he => hp (h.1 he)
    rw [he]
    cases hk : s.phase with
    | error => exact absurd hk hp
    | _ => decide

/-- Settles O4: the fields by `statusByte_fields`, the six values by the invariant on `ERRKIND` (`statusByte_mem`). -/
theorem statusTakesSixValues : Obligations.StatusTakesSixValues := by
  intro s hi
  obtain ⟨hzero, hstate, herr⟩ := statusByte_fields s
  refine ⟨hzero, by rw [hstate, stateCode_eq], ?_, statusByte_mem hi.errKindInError⟩
  rw [herr]
  cases s.errKind <;> rfl

/-! ### Codes -/

/-- After CB_GEN the code of a symbol is a path of the tree to it (R130, R131). -/
theorem codeAt_codeBitsOf {s t : State} {x : HTree} (h : RootIs s (some x)) (hd : x.depth ≤ 255) (hn : x.syms.Nodup)
    (ht : exec .cbGen s = .next t) {b : Byte} (hb : b ∈ x.syms) : x.codeAt (codeBitsOf t b.toNat) = some b := by
  obtain ⟨u, hu, hcode, -, -⟩ := cbGen_of_root h fun y hy => by cases hy; exact ⟨hd, hn⟩
  have hut : u = t := by
    have : exec .cbGen s = .next u := by simp only [exec, execCbGen, hu, Res.outcome_ok]
    rw [this] at ht
    cases ht
    rfl
  subst hut
  obtain ⟨p, hp⟩ := HTree.codeAt_of_mem_syms hb
  have hl := HTree.length_codeAt hp
  rw [(hcode x b p rfl hp).codeBitsOf (by omega)]
  exact hp

/-- Settles O30: the codes are paths to different Leaves of one tree, and no path to a Leaf goes on to another
(`HTree.codeAt_append`). -/
theorem codesArePrefixFree : Obligations.CodesArePrefixFree := by
  intro s t x h hd hn ht a ha
  have hpa := codeAt_codeBitsOf h hd hn ht ha
  refine ⟨HTree.codeAt_ne_nil hpa, fun b hb hab ⟨q, hq⟩ => hab ?_⟩
  have hpb := codeAt_codeBitsOf h hd hn ht hb
  rw [← hq] at hpb
  exact (HTree.codeAt_append hpa hpb).2

/-! ### The container's elements -/

section
variable {s : State}

theorem consume_of_le {k : Nat} (e : ErrKind) (h : s.bp.toNat + k ≤ srcBits s) :
    consume k e s = .ok () { s with bp := s.bp + BitVec.ofNat 67 k } := by
  rw [consume, fewerThan_eq_false h, if_neg Bool.false_ne_true]

/-- The bits of an element that are left are consumed, and nothing else changes. -/
theorem consume_exists {k : Nat} (e : ErrKind) (h : s.bp.toNat + k ≤ srcBits s) :
    ∃ t, consume k e s = .ok () t ∧ t.bp.toNat = s.bp.toNat + k ∧ t = { s with bp := t.bp } :=
  ⟨_, consume_of_le e h, bp_add h, rfl⟩

/-- N_LEAF (R63, R64, R110) where an entry and nine bits are left. -/
theorem nLeaf_exists (sym : Byte) (hn : s.nalloc.toNat < 511) (h : s.bp.toNat + 9 ≤ srcBits s) :
    ∃ t, nLeaf sym s = .ok () t ∧ Table.get t.node s.nalloc.toNat = some (.leaf sym 0) ∧
      (∀ i, i ≠ s.nalloc.toNat → Table.get t.node i = Table.get s.node i) ∧
      t.nalloc = s.nalloc + 1 ∧ t.bp.toNat = s.bp.toNat + 9 ∧
      t = { s with node := t.node, nalloc := t.nalloc, bp := t.bp } := by
  have ha := (allocNode_of_lt hn).1
  obtain ⟨t, ht, htb, hts⟩ := consume_exists (s := { s with nalloc := s.nalloc + 1 }) (k := 1) .malformedContainer
    (by show s.bp.toNat + 1 ≤ srcBits s; omega)
  have hsb : srcBits t = srcBits s := by rw [hts]; rfl
  obtain ⟨u, hu, hub, hus⟩ := consume_exists (s := t) (k := 8) .malformedContainer
    (by rw [hsb, htb]; show s.bp.toNat + 1 + 8 ≤ srcBits s; omega)
  obtain ⟨v, hv, hvi, hvk, hvs⟩ := writeNode_exists (s := u) (.leaf sym 0) hn
  refine ⟨v, ?_, hvi, fun i hi => ?_, ?_, ?_, ?_⟩
  · simp only [nLeaf, ha, ht, hu, hv, Res.andThen_ok]
  · rw [hvk i hi, hus, hts]
  · rw [hvs, hus, hts]
  · rw [hvs]
    show u.bp.toNat = _
    rw [hub, htb]
  · rw [hvs, hus, hts]

theorem nInternal_exists (hn : s.nalloc.toNat < 511) (h : s.bp.toNat + 1 ≤ srcBits s) :
    ∃ t, nInternal s = .ok () t ∧ t.nalloc = s.nalloc + 1 ∧ t.bp.toNat = s.bp.toNat + 1 ∧
      t = { s with nalloc := t.nalloc, bp := t.bp } := by
  obtain ⟨t, ht, htb, hts⟩ := consume_exists (s := { s with nalloc := s.nalloc + 1 }) .malformedContainer h
  refine ⟨t, ?_, ?_, htb, ?_⟩
  · simp only [nInternal, (allocNode_of_lt hn).1, ht, Res.andThen_ok]
  · rw [hts]
  · rw [hts]

/-- F_LENGTH (R67) where 64 bits are left: the rest of it is the last test of DEC_LEN. -/
theorem fLength_of_le (len : Word64) (h : s.bp.toNat + 64 ≤ srcBits s) :
    fLength len s = checkCount { s with count := len, bp := s.bp + 64 } := by
  simp only [fLength, consume_of_le _ h, Res.andThen_ok]
  rfl

theorem checkCount_of_imp (h : s.root = NIL → s.count = 0) : checkCount s = .ok () s := by
  rw [checkCount, if_neg fun hc => hc.2 (h hc.1)]

end

/-- Settles O53: what each element consumes is left (`consume_exists`), so that none raises. -/
theorem containerElements : Obligations.ContainerElements := by
  intro s
  refine ⟨fun h => ?_, fun sym hn h => ?_, fun hn h => ?_, fun L h hL => ?_, fun p h1 h2 => ?_, fun p h => ?_⟩
  · obtain ⟨t, ht, hb, hs⟩ := consume_exists (s := s) .malformedContainer h
    refine ⟨t, ?_, ?_, hb, hs⟩
    · simp only [exec, execTPresent, tPresent, ht, Res.outcome_ok]
    · simp only [exec, execTEmpty, tEmpty, ht, Res.andThen_ok, Res.outcome_ok, NIL]
  · obtain ⟨t, ht, hrest⟩ := nLeaf_exists sym hn h
    exact ⟨t, by simp only [exec, execNLeaf, ht, Res.outcome_ok], hrest⟩
  · obtain ⟨t, ht, hrest⟩ := nInternal_exists hn h
    exact ⟨t, by simp only [exec, execNInternal, ht, Res.outcome_ok], hrest⟩
  · refine ⟨{ s with count := L, bp := s.bp + 64 }, ?_, bp_add h, rfl⟩
    have hc : checkCount { s with count := L, bp := s.bp + 64 } = .ok () _ := checkCount_of_imp hL
    simp only [exec, execFLength, fLength_of_le L h, hc, Res.outcome_ok]
  · have hne : ¬ (s.phase = .dSymbols ∨ s.phase = .done) := not_or.2 ⟨h1, h2⟩
    have he : exec (.fPad p) s = exec .brAlign s := by simp only [exec, execFPad, execBrAlign, fPad, if_neg hne]
    exact ⟨he, _, he⟩
  · simp only [exec, execFPad, fPad, if_pos h, Res.outcome_ok]

/-- Settles O54: both emit the symbol from the same state (`decSymbol_of_code`). -/
theorem codeElementDecodesSymbol : Obligations.CodeElementDecodesSymbol := by
  intro s x path sym h hp hb hr
  obtain ⟨t, hd, hf, -, -, hts⟩ := decSymbol_of_code h hp hb
  have hlen : t.dstLen = s.dstLen := by rw [hts]
  have hcap : t.dstCap = s.dstCap := by rw [hts]
  obtain ⟨u, hu, hus, -⟩ := emitSymbol_of_room (s := t) sym (by rwa [RoomBytes, hlen, hcap])
  refine ⟨u, ?_, ?_, by rw [← hlen, hus]⟩
  · simp only [exec, execFCode, hf, hu, Res.outcome_ok]
  · simp only [exec, execDecSymbol, hd, hu, Res.outcome_ok]

/-! ### The decoder's operations and the elements they recognise -/

/-- What TB_DES begins with (R109). -/
def parserReset (s : State) : State := { s with n := 0, nint := 0, nalloc := 0, root := NIL }

theorem tbDes_of_presence {s t : State} {b : Bit} {bs : List Bit} (h : HoldsBits s s.bp.toNat (b :: bs))
    (ht : brGet (parserReset s) = .ok b t) :
    tbDes s = if b = treePresent then (desNode desBound t).andThen fun r s => setParsedRoot r s
      else .ok () { t with root := NIL } := by
  have hx : exhausted (parserReset s) = false := exhausted_of_lt h.lt
  have hstart : ({ s with nalloc := 0, n := 0, nint := 0, root := NIL } : State) = parserReset s := rfl
  simp only [tbDes, hstart, hx, Bool.false_eq_true, if_false, ht, Res.andThen_ok]

/-- The presence bit 0: TB_DES is T_EMPTY after its initialisation (R62, R109). -/
theorem tbDes_eq_tEmpty {s : State} (h : HoldsBits s s.bp.toNat [treeEmpty]) : tbDes s = tEmpty (parserReset s) := by
  have h0 : HoldsBits (parserReset s) s.bp.toNat [treeEmpty] := h.congr rfl rfl
  rw [tbDes_of_presence h (brGet_of_holds h0).1, tEmpty, consume_one _ h0]
  rfl

/-- DEC_LEN on a byte boundary is F_LENGTH of what it reads (R67, R182). -/
theorem decLen_eq_fLength {s : State} (L : Word64) (hp : s.bp.toNat % 8 = 0)
    (h : HoldsBits s s.bp.toNat (bitsOf 64 L.toNat)) : decLen s = fLength L s := by
  have hle := h.1
  rw [length_bitsOf] at hle
  rw [(decLen_of_holds L hp h).1, fLength_of_le L hle]

/-- A Leaf as the parsed root gets the synthesized root of the N = 1 tree at the next entry (R109). -/
theorem setParsedRoot_of_leaf {s : State} {r : Nat} {sym : Byte} {f : Word64} (hr : r < 511)
    (hf : Table.get s.node r = some (.leaf sym f)) (hn : s.nalloc.toNat < 511) :
    ∃ t, setParsedRoot r s = .ok () t ∧
      Table.get t.node s.nalloc.toNat = some (.internal 0 (BitVec.ofNat 9 r) NIL) ∧
      (∀ i, i ≠ s.nalloc.toNat → Table.get t.node i = Table.get s.node i) ∧ t.bp = s.bp ∧
      t.root = BitVec.ofNat 9 s.nalloc.toNat := by
  obtain ⟨t, ht, hti, htk, hts⟩ := writeNode_exists (s := s) (.internal 0 (BitVec.ofNat 9 r) NIL) hn
  refine ⟨{ t with nalloc := t.nalloc + 1, root := BitVec.ofNat 9 s.nalloc.toNat }, ?_, hti, htk, ?_, rfl⟩
  · simp only [setParsedRoot, readNode_of_get hr hf, ht, Res.andThen_ok]
  · rw [hts]

/-- TB_DES on the field of one Leaf: the Leaf at entry 0, the synthesized root at entry 1 (R65, R109). -/
theorem tbDes_of_leaf {s : State} {sym : Byte} (h : HoldsBits s s.bp.toNat (treePresent :: (HTree.leaf sym).bits)) :
    ∃ t, tbDes s = .ok () t ∧ Table.get t.node 0 = some (.leaf sym 0) ∧ Table.get t.node 1 = some (.internal 0 0 NIL) ∧
      (∀ i, i ≠ 0 → i ≠ 1 → Table.get t.node i = Table.get s.node i) ∧ t.bp.toNat = s.bp.toNat + 10 ∧ t.root = 1 := by
  have h0 : HoldsBits (parserReset s) s.bp.toNat (treePresent :: (HTree.leaf sym).bits) := h.congr rfl rfl
  obtain ⟨t, ht, htb, hts⟩ := brGet_exists h0
  have htn : t.nalloc.toNat = 0 := by rw [hts]; rfl
  have hbits : HoldsBits t t.bp.toNat (HTree.leaf sym).bits := by
    rw [htb]
    exact (holdsBits_cons.1 h0).2.congr (by rw [hts]) (by rw [hts])
  obtain ⟨u, hu, hui, huk, hun, hub, hus⟩ := desNode_of_leaf 511 hbits (by omega)
  rw [htn] at hu hui huk hun
  obtain ⟨v, hv, hvi, hvk, hvb, hvr⟩ := setParsedRoot_of_leaf (s := u) (r := 0) (by decide) hui (by omega)
  rw [hun] at hvi hvk hvr
  refine ⟨v, ?_, ?_, hvi, fun i h0 h1 => ?_, ?_, hvr⟩
  · rw [tbDes_of_presence h ht, if_pos rfl, desBound, hu, Res.andThen_ok, hv]
  · rw [hvk 0 (by decide), hui]
  · rw [hvk i h1, huk i h0, hts]
    rfl
  · rw [hvb, hub, htb]
    rfl

/-- T_PRESENT and N_LEAF, after the initialisation of TB_DES, where ten bits are left (R62 to R64). -/
theorem elements_of_leaf {s : State} (sym : Byte) (h : s.bp.toNat + 10 ≤ srcBits s) :
    ∃ t, execAll [.tPresent, .nLeaf sym] (parserReset s) = .next t ∧ Table.get t.node 0 = some (.leaf sym 0) ∧
      (∀ i, i ≠ 0 → Table.get t.node i = Table.get s.node i) ∧ t.bp.toNat = s.bp.toNat + 10 := by
  obtain ⟨t, ht, htb, hts⟩ := consume_exists (s := parserReset s) (k := 1) .malformedContainer
    (by show s.bp.toNat + 1 ≤ srcBits s; omega)
  have htn : t.nalloc.toNat = 0 := by rw [hts]; rfl
  have hsb : srcBits t = srcBits s := by rw [hts]; rfl
  have hle : t.bp.toNat + 9 ≤ srcBits t := by
    rw [hsb, htb]
    exact h
  obtain ⟨u, hu, hui, huk, -, hub, -⟩ := nLeaf_exists sym (by omega) hle
  rw [htn] at hui huk
  refine ⟨u, ?_, hui, fun i hi => ?_, ?_⟩
  · simp only [execAll, exec, execTPresent, execNLeaf, tPresent, ht, hu, Res.outcome_ok]
  · rw [huk i hi, hts]
    rfl
  · rw [hub, htb]
    rfl

/-- Settles O55: `tbDes_eq_tEmpty`, `decLen_eq_fLength`, and the two sides of one Leaf, `tbDes_of_leaf` and
`elements_of_leaf`. -/
theorem recognisedElementsAgree : Obligations.RecognisedElementsAgree := by
  intro s
  refine ⟨fun h => congrArg Res.outcome (tbDes_eq_tEmpty h), fun L hp h => congrArg Res.outcome (decLen_eq_fLength L hp h),
    fun sym h => ?_⟩
  obtain ⟨u, hu, hu0, hu1, huk, hub, hur⟩ := tbDes_of_leaf (s := s) (sym := sym) h
  obtain ⟨t, ht, ht0, htk, htb⟩ := elements_of_leaf (s := s) sym h.1
  refine ⟨t, u, ht, congrArg Res.outcome hu, ht0, BitVec.eq_of_toNat_eq (hub.trans htb.symm), fun i hi => ?_, hu1, hur⟩
  by_cases h0 : i = 0
  · rw [h0, hu0, ht0]
  · rw [huk i h0 hi, htk i h0]

end Sys2Proof.Machine

/-! ## Proofs of the statements about the counter and the units' frames (40_frequency_counter.md) -/

namespace Sys2Proof.Machine

/-! ### Counting -/

/-- Settles O17: every entry below 256 reads 0 after the fill. -/
theorem fcClearZeroesFreq : Obligations.FcClearZeroesFreq :=
  fun _ => ⟨_, rfl, fun b => (Table.get_fill 256 0 b.toNat).trans (if_pos b.isLt), rfl⟩

/-- Settles O18: one write of `FREQ` (`fcCount_of_written`), read at its own index and at another. -/
theorem fcCountAddsOne : Obligations.FcCountAddsOne := fun _ _ _ h =>
  ⟨_, congrArg Res.outcome (fcCount_of_written h), Table.get_set_self _ _ _, fun _ hc => Table.get_set_ne _ _ hc, rfl⟩

/-- Settles O19: what FC_SCAN counts (`fcScan_of_placed`) adds up to the input's length (`freqSum_of_counted`); ENC_COUNT is
FC_SCAN (R161). -/
theorem fcScanCountsSrc : Obligations.FcScanCountsSrc := by
  intro s hs
  obtain ⟨t, ht, hfreq, hframe⟩ := fcScan_of_placed hs
  have hepos : t.epos = s.srcLen := congrArg State.epos hframe
  refine ⟨t, congrArg Res.outcome ht, congrArg Res.outcome ht, hfreq, freqSum_of_counted hs hfreq, hepos, ?_⟩
  rw [hepos]
  exact hframe

/-! ### Frames of the units

A unit's frame is stated by a function that blanks what the unit may write: the two states blanked are the same. The relation
composes whatever is blanked, and each primitive update of the unit keeps it by computation. -/

/-- The two states agree in all that `blank` leaves. -/
def SameBlanked (blank : State → State) (s t : State) : Prop := blank t = blank s

/-- The state without what the counter writes (R90 to R92). -/
def blankCounter (s : State) : State := { s with freq := [], epos := 0 }

/-- The state without what the construction writes (R101 to R103). -/
def blankBuilder (s : State) : State := { s with n := 0, nint := 0, nalloc := 0, root := NIL, active := [], node := [] }

/-- The state without what the codebook generator writes (R130). -/
def blankCodebook (s : State) : State := { s with codeLen := [], codeBits := [] }

/-- The state without what the unpacker writes and returns (R150 to R154, log 5). -/
def blankUnpacker (s : State) : State := { s with bp := 0, ret := 0 }

theorem closed_sameBlanked (blank : State → State) : Closed (SameBlanked blank) (SameBlanked blank) where
  refl _ := rfl
  trans h k := Eq.trans k h
  after h k := Eq.trans k h

theorem counterMoves_sameBlanked : CounterMoves (SameBlanked blankCounter) (SameBlanked blankCounter) where
  toClosed := closed_sameBlanked _
  clear _ := rfl
  count _ _ _ := rfl
  start _ := rfl
  ahead _ _ := rfl

theorem builderMoves_sameBlanked : BuilderMoves (SameBlanked blankBuilder) (SameBlanked blankBuilder) where
  toClosed := closed_sameBlanked _
  init _ := rfl
  writeNode _ _ _ _ := rfl
  activate _ _ _ := rfl
  remove _ _ := rfl
  root _ _ := rfl
  merged _ _ := rfl
  one _ := rfl
  count _ _ _ := rfl

theorem codebookMoves_sameBlanked : CodebookMoves (SameBlanked blankCodebook) (SameBlanked blankCodebook) where
  toClosed := closed_sameBlanked _
  clear _ := rfl
  code _ _ _ _ := rfl

theorem unpackerMoves_sameBlanked : UnpackerMoves (SameBlanked blankUnpacker) (SameBlanked blankUnpacker) where
  toClosed := closed_sameBlanked _
  ahead _ _ _ := rfl
  align _ := rfl

/-- An operation whose updates keep what `blank` leaves keeps it. -/
theorem exec_sameBlanked {blank : State → State} {i : Instr} {s t : State}
    (hm : UnitMoves (SameBlanked blank) (SameBlanked blank) i) (h : exec i s = .next t) : blank t = blank s :=
  (exec_moves hm h).elim id id

theorem eq_of_blankCounter {s t : State} (h : blankCounter t = blankCounter s) :
    t = { s with freq := t.freq, epos := t.epos } :=
  congrArg (fun x : State => { x with freq := t.freq, epos := t.epos }) h

theorem eq_of_blankBuilder {s t : State} (h : blankBuilder t = blankBuilder s) :
    t = { s with n := t.n, nint := t.nint, nalloc := t.nalloc, root := t.root, active := t.active, node := t.node } :=
  congrArg (fun x : State =>
    { x with n := t.n, nint := t.nint, nalloc := t.nalloc, root := t.root, active := t.active, node := t.node }) h

theorem eq_of_blankCodebook {s t : State} (h : blankCodebook t = blankCodebook s) :
    t = { s with codeLen := t.codeLen, codeBits := t.codeBits } :=
  congrArg (fun x : State => { x with codeLen := t.codeLen, codeBits := t.codeBits }) h

theorem eq_of_blankUnpacker {s t : State} (h : blankUnpacker t = blankUnpacker s) :
    t = { s with bp := t.bp, ret := t.ret } :=
  congrArg (fun x : State => { x with bp := t.bp, ret := t.ret }) h

/-- Settles O57: each unit's updates keep the state blanked of what the unit writes (`exec_sameBlanked`). -/
theorem unitFrames : Obligations.UnitFrames := by
  intro i s t h
  refine ⟨fun hi => eq_of_blankCounter (exec_sameBlanked ?_ h), fun hi => eq_of_blankBuilder (exec_sameBlanked ?_ h),
    fun hi => eq_of_blankCodebook (exec_sameBlanked ?_ h), fun hi => eq_of_blankUnpacker (exec_sameBlanked ?_ h)⟩
  · rcases hi with rfl | ⟨b, rfl⟩ | rfl | rfl <;> exact counterMoves_sameBlanked
  · rcases hi with rfl | rfl | rfl | rfl <;> exact builderMoves_sameBlanked
  · rcases hi with rfl | rfl <;> exact codebookMoves_sameBlanked
  · rcases hi with rfl | rfl | ⟨n, rfl⟩ | rfl | rfl
    · exact fun _ => rfl
    · exact ⟨unpackerMoves_sameBlanked, fun _ _ => rfl⟩
    · exact ⟨unpackerMoves_sameBlanked, fun _ _ => rfl⟩
    · exact unpackerMoves_sameBlanked
    · exact ⟨unpackerMoves_sameBlanked, fun _ _ => rfl⟩

end Sys2Proof.Machine

/-! ## Proofs of the statements about the tree builder (41_tree_builder.md) -/

namespace Sys2Proof.Machine

/-! ### Construction -/

/-- Settles O20: the counts and Leaves of `tbInit_of_written`; the registers it sets are read off its frame. -/
theorem tbInitMakesLeaves : Obligations.TbInitMakesLeaves := by
  intro s hs
  obtain ⟨t, ht, hactive, hn, hleaf, hkeep, hframe⟩ := tbInit_of_written hs
  have hnint : t.nint = 0 := congrArg State.nint hframe
  have hnalloc : t.nalloc = 0 := congrArg State.nalloc hframe
  have hroot : t.root = 511#9 := congrArg State.root hframe
  refine ⟨t, congrArg Res.outcome ht, hleaf, hkeep, hactive, hn, hnint, hnalloc, hroot, ?_⟩
  rw [hnint, hnalloc, hroot]
  exact hframe

/-- The members of a set of active nodes after a merge (R102). -/
theorem mem_merged (l : List Nat) (a b k i : Nat) :
    i ∈ insertIx (eraseIx (eraseIx l a) b) k ↔ (i ∈ l ∧ i ≠ a ∧ i ≠ b) ∨ i = k := by
  rw [mem_insertIx, mem_eraseIx, mem_eraseIx, and_assoc, or_comm]

/-- A merge removes two active nodes and makes a new one active (R102). -/
theorem length_merged {l : List Nat} {a b k : Nat} (hl : l.Nodup) (ha : a ∈ l) (hb : b ∈ l) (hab : a ≠ b) (hk : k ∉ l) :
    (insertIx (eraseIx (eraseIx l a) b) k).length + 1 = l.length := by
  have hfresh : k ∉ eraseIx (eraseIx l a) b := fun h => hk ((mem_eraseIx _ _ _).1 ((mem_eraseIx _ _ _).1 h).1).1
  have hbl : b ∈ eraseIx l a := (mem_eraseIx _ _ _).2 ⟨hb, hab.symm⟩
  have hnodup : (eraseIx l a).Nodup := hl.filter _
  rw [length_insertIx hfresh, length_eraseIx hnodup hbl, length_eraseIx hl ha]

/-- Settles O21: the state of `tbMerge_of_least`, whose active nodes are `mem_merged` and `length_merged`. -/
theorem tbMergeJoinsTwoLeast : Obligations.TbMergeJoinsTwoLeast := by
  intro s a b ea eb hr hn ha hb hab hea heb hma hmb
  exact ⟨_, congrArg Res.outcome (tbMerge_of_least hr hn ha hb hab hea heb hma hmb), Table.get_set_self _ _ _,
    fun i hi => Table.get_set_ne _ _ hi, mem_merged s.active a b _, fun hl hk => length_merged hl ha hb hab hk, rfl, rfl⟩

/-- Settles O22: ENC_BUILD is TB_BUILD (R162). -/
theorem tbBuildOfNothing : Obligations.TbBuildOfNothing := fun _ hf hp =>
  have h := congrArg Res.outcome (tbBuild_of_none hf hp)
  ⟨_, h, h, rfl⟩

/-- Settles O23: ENC_BUILD is TB_BUILD (R162). -/
theorem tbBuildOfOneSymbol : Obligations.TbBuildOfOneSymbol := by
  intro s b hf hp
  obtain ⟨t, ht, hrest⟩ := tbBuild_of_one hf hp
  exact ⟨t, congrArg Res.outcome ht, congrArg Res.outcome ht, hrest⟩

/-- Settles O24: the tree of `tbBuild_of_many` has one Leaf a symbol, which fixes its size (`HTree.size_eq`) and bounds its
depth (`HTree.depth_lt`). -/
theorem tbBuildMakesTree : Obligations.TbBuildMakesTree := by
  intro s hf hp hw
  obtain ⟨t, x, ht, hroot, hsyms, hrest⟩ := tbBuild_of_many hf hp hw
  have hleaves : x.syms.length = (present s).length := by
    rw [← hsyms.length_eq, List.length_map]
  have hsize := x.size_eq
  have hdepth := x.depth_lt
  exact ⟨t, x, congrArg Res.outcome ht, congrArg Res.outcome ht, hroot, hsyms, by omega, by omega, hrest⟩

/-! ### Serialization -/

/-- A tree field has ten bits a Leaf: its marker, its symbol, and the presence bit or the marker of an Internal node (R61). -/
theorem length_treeField_some (x : HTree) : (treeField (some x)).length = 10 * x.syms.length := by
  have hsize := x.size_eq
  have hbits := x.length_bits
  rw [treeField, List.length_cons]
  omega

/-- Settles O25: what TB_SER appends is the tree field (`tbSer_of_root`); its length is `length_treeField_some`. -/
theorem tbSerPutsTreeField : Obligations.TbSerPutsTreeField := by
  intro s T hroot hd hr
  have hdepth : ∀ x, T = some x → x.depth < pathBound := fun x hx => Nat.lt_of_le_of_lt (hd x hx) (by decide)
  obtain ⟨t, ht, happ⟩ := tbSer_of_root hroot hdepth hr
  refine ⟨t, congrArg Res.outcome ht, happ.bits, ?_, happ.below, happ.same⟩
  cases T with
  | none => rfl
  | some x => exact length_treeField_some x

/-! ### Deserialization -/

/-- Settles O26 by `tbDes_of_holds`. -/
theorem tbDesInvertsTreeField : Obligations.TbDesInvertsTreeField := by
  intro s T hbits hsize
  obtain ⟨t, ht, hroot, hbp, hframe, hfreq⟩ := tbDes_of_holds hbits hsize
  exact ⟨t, congrArg Res.outcome ht, hroot, hbp, hfreq, hframe⟩

/-- An error of TB_DES is the next state of TB_DES, and of DEC_TREE, which does not go on to BR_ALIGN (R181, R226). -/
theorem exec_of_tbDes_raised {s t : State} (h : tbDes s = .raised t) :
    exec .tbDes s = .next t ∧ exec .decTree s = .next t := by
  constructor
  · exact congrArg Res.outcome h
  · simp only [exec, execDecTree, decTree, h, Res.andThen_raised, Res.outcome_raised]

/-- Settles O27: TB_DES raises where the field is cut (`tbDes_of_short`), and DEC_TREE with it. -/
theorem tbDesRaisesOnShortField : Obligations.TbDesRaisesOnShortField := by
  intro s T p q hpq hq hbits hend
  obtain ⟨u, hu, hframe⟩ := tbDes_of_short hpq hq hbits hend
  obtain ⟨hdes, hdec⟩ := exec_of_tbDes_raised hu
  exact ⟨_, u, hdes, hdec, rfl, hframe⟩

/-- Settles O28: TB_DES raises where no entry is left (`tbDes_of_large`), and DEC_TREE with it. -/
theorem tbDesRefusesNode512 : Obligations.TbDesRefusesNode512 := by
  intro s h
  obtain ⟨u, hu, hframe⟩ := tbDes_of_large h
  obtain ⟨hdes, hdec⟩ := exec_of_tbDes_raised hu
  exact ⟨_, u, hdes, hdec, rfl, hframe⟩

/-! ### Stops -/

section
variable {s : State}

theorem removeLeast_of_none (h : s.active = []) : removeLeast s = .refused .noSuchActiveNode := by
  simp only [removeLeast, h, leastOf, Res.andThen_ok]

theorem tbMerge_of_none (h : s.active = []) : tbMerge s = .refused .noSuchActiveNode := by
  rw [tbMerge, removeLeast_of_none h, Res.andThen_refused]

/-- TB_MERGE with one active node removes it and finds no second one (R102). -/
theorem tbMerge_of_single {a : Nat} (h : s.active = [a]) (ha : a < 511) (hnode : (Table.get s.node a).isSome = true) :
    tbMerge s = .refused .noSuchActiveNode := by
  obtain ⟨e, he⟩ := Option.isSome_iff_exists.1 hnode
  have hread : Readable s s.active := by
    intro i hi
    rw [h, List.mem_singleton] at hi
    exact hi ▸ ⟨ha, hnode⟩
  have hleast : ∀ i ∈ s.active, i ≠ a → KeyBefore s a i := fun i hi hne => by
    rw [h, List.mem_singleton] at hi
    exact absurd hi hne
  have hfirst := removeLeast_of_least hread (by rw [h]; exact List.mem_singleton_self a) he hleast
  have hempty : eraseIx s.active a = [] := by simp [h, eraseIx]
  rw [tbMerge, hfirst, Res.andThen_ok, removeLeast_of_none hempty, Res.andThen_refused]

/-- BR_GET with no bit left names a byte of SRC that does not exist (R41, R156). -/
theorem brGet_of_exhausted (h : srcBits s ≤ s.bp.toNat) : brGet s = .fault .srcOutOfRange := by
  have hend : ¬ s.bp.toNat / 8 < s.srcLen.toNat := by unfold srcBits at h; omega
  rw [brGet, readSrc, if_neg hend, Res.andThen_fault]

/-- BR_GETN with fewer bits left than it asks for, the bytes that are left placed (R152, R156). -/
theorem brGetn_of_short {n : Nat} (hn : 1 ≤ n) (h : srcBits s < s.bp.toNat + n)
    (hp : ∀ a, s.bp.toNat / 8 ≤ a → a < s.srcLen.toNat → (Table.get s.src a).isSome = true) :
    brGetn n s = .fault .srcOutOfRange := by
  obtain ⟨k, rfl⟩ := Nat.exists_eq_add_of_le' hn
  exact getLoop_of_short 0 h hp

theorem brGetbyte_of_short (h : srcBits s < s.bp.toNat + 8) : brGetbyte s = .fault .srcOutOfRange :=
  if_pos (decide_eq_true h)

end

/-- Settles O58: one lemma a stop; the operand of a well-formed BR_GETN is at least 1. -/
theorem stopsWhereNothingExists : Obligations.StopsWhereNothingExists := by
  intro s
  refine ⟨?_, fun a v ha hv hl hc hr => congrArg Res.outcome (encCodes_of_uncoded ha hv hl hc hr), fun h => ?_,
    fun n hn h hp => ?_, fun h => ?_⟩
  · rintro (h | ⟨a, h, ha, hnode⟩)
    · exact congrArg Res.outcome (tbMerge_of_none h)
    · exact congrArg Res.outcome (tbMerge_of_single h ha hnode)
  · simp only [exec, execBrGet, brGet_of_exhausted h, Res.andThen_fault, Res.outcome_fault]
  · have hpos : 1 ≤ n.toNat := by
      simp only [Instr.wellFormed, Instr.getnOk, Bool.and_eq_true, decide_eq_true_eq] at hn
      exact hn.1
    simp only [exec, execBrGetn, brGetn_of_short hpos h hp, Res.andThen_fault, Res.outcome_fault]
  · simp only [exec, execBrGetbyte, brGetbyte_of_short h, Res.andThen_fault, Res.outcome_fault]

end Sys2Proof.Machine

/-! ## Proof of the statement about the codebook generator (42_codebook_generator.md) -/

namespace Sys2Proof.Machine

/-- Settles O29: `cbGen_of_root` gives every symbol its path, left-aligned (`leftAligned_getLsbD`); ENC_CODEBOOK is CB_GEN
(R164). -/
theorem cbGenGivesPaths : Obligations.CbGenGivesPaths := by
  intro s T hroot hT
  obtain ⟨t, ht, hcode, hother, hframe⟩ := cbGen_of_root hroot hT
  refine ⟨t, congrArg Res.outcome ht, congrArg Res.outcome ht, fun x sym path hx hpath => ?_, hother, hframe⟩
  obtain ⟨hlen, hbits⟩ := hcode x sym path hx hpath
  have hfits : path.length ≤ 255 := by
    have hle := HTree.length_codeAt hpath
    have hdepth := (hT x hx).1
    omega
  exact ⟨hlen, leftAligned path, hbits, leftAligned_getLsbD path hfits⟩

end Sys2Proof.Machine

/-! ## Proofs of the statements about the packer and the unpacker (43_bitstream_packer_unpacker.md) -/

namespace Sys2Proof.Machine

/-! ### Bits of `ACC` -/

section
variable {s : State}

theorem getLsbD_setStreamBit (v : Byte) {k j : Nat} (b : Bit) (hk : k < 8) (hj : j < 8) :
    (setStreamBit v k b).getLsbD j = if j = 7 - k then b else v.getLsbD j := by
  have h := streamBit_setStreamBit v k (7 - j) b hk (by omega)
  have hjj : 7 - (7 - j) = j := by omega
  have hiff : 7 - j = k ↔ j = 7 - k := by omega
  simpa only [streamBit, hjj, hiff] using h

/-- The first `NBITS + 1` bits of `ACC` after a bit is put (R141). -/
theorem map_streamBit_put (s : State) (b : Bit) :
    (List.range (s.nbits.toNat + 1)).map (streamBit (setStreamBit s.acc s.nbits.toNat b)) = accBits s ++ [b] := by
  have hn := s.nbits.isLt
  rw [List.range_succ, List.map_append, accBits]
  congr 1
  · refine List.map_congr_left fun j hj => ?_
    rw [List.mem_range] at hj
    rw [streamBit_setStreamBit _ _ _ _ hn (by omega), if_neg (by omega)]
  · rw [List.map_singleton, streamBit_setStreamBit _ _ _ _ hn hn, if_pos rfl]

theorem eq_of_bitsOf_byte {v w : Byte} (h : bitsOf 8 v.toNat = bitsOf 8 w.toNat) : v = w := by
  apply BitVec.eq_of_toNat_eq
  rw [← natOf_bitsOf v.isLt, h, natOf_bitsOf w.isLt]

theorem accBits_of_aligned (h : s.nbits = 0) : accBits s = [] := by simp [accBits, h]

/-- `ACC` as it stands is the bits put so far and zeros (R17, R143). -/
theorem bitsOf_acc_of_clean (hc : AccClean s) (hn : s.nbits ≠ 0) :
    accBits s ++ List.replicate (padLen s.nbits.toNat) false = bitsOf 8 s.acc.toNat := by
  have hlt := s.nbits.isLt
  have hpos : s.nbits.toNat ≠ 0 := fun h => hn (BitVec.eq_of_toNat_eq h)
  have hsum : 8 = s.nbits.toNat + padLen s.nbits.toNat := by unfold padLen; omega
  have hzero : ∀ j ∈ List.range (padLen s.nbits.toNat), streamBit s.acc (s.nbits.toNat + j) = false := fun j hj =>
    hc _ (Nat.le_add_right _ _) (by rw [List.mem_range] at hj; omega)
  rw [bitsOf_byte]
  conv_rhs => rw [hsum]
  rw [List.range_add, List.map_append, List.map_map, accBits]
  congr 1
  refine (List.eq_replicate_iff.2 ⟨by simp, ?_⟩).symm
  simpa using hzero

/-- With no bit pending, the unused bits of `ACC` are all of them. -/
theorem acc_eq_zero_of_clean (hc : AccClean s) (hn : s.nbits = 0) : s.acc = 0 := by
  refine byte_ext fun j hj => ?_
  rw [hc j (by rw [hn]; exact Nat.zero_le j) hj]
  simp [streamBit]

/-! ### What the packer's operations answer, as a state -/

/-- The state after the byte `v` completes at DST: the byte is appended and the packer is empty (R141). -/
def byteDone (v : Byte) (s : State) : State :=
  { s with acc := 0, nbits := 0, dst := Table.set s.dst s.dstLen.toNat v, dstLen := s.dstLen + 1 }

/-- What every statement about a byte written says of it: where it stands, and that nothing else of DST changes (R42). -/
theorem pushed_dst (v : Byte) (h : RoomBytes s 1) :
    Table.get (Table.set s.dst s.dstLen.toNat v) s.dstLen.toNat = some v ∧ (s.dstLen + 1).toNat = s.dstLen.toNat + 1 ∧
      DstOnlyAppended s { s with dst := Table.set s.dst s.dstLen.toNat v, dstLen := s.dstLen + 1 } :=
  ⟨Table.get_set_self _ _ _, (pushDst_of_room v h).2, pushDst_below v h⟩

theorem bwPut_of_partial (b : Bit) (h : s.nbits.toNat ≠ 7) :
    bwPut b s = .ok () { s with acc := setStreamBit s.acc s.nbits.toNat b, nbits := s.nbits + 1 } := if_neg h

theorem bwPut_of_eighth (b : Bit) (h : s.nbits.toNat = 7) (hr : RoomBytes s 1) :
    bwPut b s = .ok () (byteDone (setStreamBit s.acc s.nbits.toNat b) s) := by
  simp only [bwPut, if_pos h, (pushDst_of_room _ hr).1, Res.andThen_ok, byteDone]

theorem bwPut_of_full (b : Bit) (h : s.nbits.toNat = 7) (hf : s.dstCap ≤ s.dstLen.toNat) :
    bwPut b s = .refused .dstFull := by
  simp only [bwPut, if_pos h, pushDst, if_neg (Nat.not_lt.2 hf), Res.andThen_refused]

/-- Bits that complete the pending byte to `v` write `v` and leave the packer empty. -/
theorem putBits_completes_byte {bs : List Bit} {v : Byte} (hb : bs ≠ []) (hv : accBits s ++ bs = bitsOf 8 v.toNat)
    (hr : RoomBytes s 1) : putBits bs s = .ok () (byteDone v s) := by
  induction bs generalizing s with
  | nil => exact absurd rfl hb
  | cons b bs ih =>
    have hlen : s.nbits.toNat + (bs.length + 1) = 8 := by simpa [accBits] using congrArg List.length hv
    have hput := map_streamBit_put s b
    by_cases h7 : s.nbits.toNat = 7
    · obtain rfl : bs = [] := List.length_eq_zero_iff.1 (by omega)
      have hbyte : setStreamBit s.acc s.nbits.toNat b = v := by
        refine eq_of_bitsOf_byte (Eq.trans ?_ hv)
        rw [bitsOf_byte, ← hput, h7]
      rw [putBits, forEach, bwPut_of_eighth b h7 hr, hbyte]
      rfl
    · have hn : (s.nbits + 1).toNat = s.nbits.toNat + 1 := toNat_add_one_of_lt (m := 7) (by omega) (by decide)
      rw [putBits, forEach, bwPut_of_partial b h7, Res.andThen_ok]
      refine ih (s := { s with acc := _, nbits := s.nbits + 1 }) ?_ ?_ hr
      · exact List.ne_nil_of_length_pos (by omega)
      · simp only [accBits, hn, hput]
        rw [List.append_assoc]
        exact hv

/-- BW_ALIGN at a byte boundary (R143). -/
theorem bwAlign_of_aligned (h : s.nbits = 0) : bwAlign s = .ok () s := by
  rw [bwAlign, h]
  rfl

/-- BW_ALIGN with a byte pending writes `ACC` as it stands (R143). -/
theorem bwAlign_of_pending (hn : s.nbits ≠ 0) (hc : AccClean s) (hr : RoomBytes s 1) :
    bwAlign s = .ok () (byteDone s.acc s) := by
  refine putBits_completes_byte (fun h => hn (BitVec.eq_of_toNat_eq ?_)) (bitsOf_acc_of_clean hc hn) hr
  have hpad : padLen s.nbits.toNat = 0 := by simpa using h
  have hlt := s.nbits.isLt
  unfold padLen at hpad
  show s.nbits.toNat = 0
  omega

end

/-! ### One operation of the packer -/

/-- Settles O31: one equation of BW_PUT a clause; the new `ACC` is read by `getLsbD_setStreamBit`. -/
theorem bwPutAppendsBit : Obligations.BwPutAppendsBit := by
  intro s b
  refine ⟨fun h => ?_, fun h hr => ?_, fun h hf => congrArg Res.outcome (bwPut_of_full b h hf)⟩
  · exact ⟨_, congrArg Res.outcome (bwPut_of_partial b h), rfl,
      fun j hj => getLsbD_setStreamBit _ _ s.nbits.isLt hj, rfl⟩
  · obtain ⟨hat, hlen, hbelow⟩ := pushed_dst (setStreamBit s.acc s.nbits.toNat b) hr
    refine ⟨_, _, congrArg Res.outcome (bwPut_of_eighth b h hr), fun j hj => ?_, hat, hlen, hbelow, rfl⟩
    rw [getLsbD_setStreamBit _ _ s.nbits.isLt hj, h]

/-- Settles O32 by `bwPutn_of_room`: the bits that BW_PUTN puts are those of `v`. -/
theorem bwPutnAppendsBits : Obligations.BwPutnAppendsBits := by
  intro s n v hr
  obtain ⟨t, ht, happ⟩ := bwPutn_of_room n.toNat v hr
  exact ⟨t, congrArg Res.outcome ht, happ.bits, happ.below, happ.same⟩

/-- Settles O33: BW_FLUSH and ENC_FLUSH are BW_ALIGN (R144, R168). -/
theorem alignWritesPendingByte : Obligations.AlignWritesPendingByte := by
  intro s i hi
  have hexec : exec i s = (bwAlign s).outcome := by rcases hi with rfl | rfl | rfl <;> rfl
  rw [hexec]
  refine ⟨fun h => congrArg Res.outcome (bwAlign_of_aligned h), fun hn hc hr => ?_⟩
  obtain ⟨hat, hlen, hbelow⟩ := pushed_dst s.acc hr
  exact ⟨_, congrArg Res.outcome (bwAlign_of_pending hn hc hr), hat, hlen, hbelow, rfl⟩

/-- Settles O34: eight bits put at a byte boundary complete the byte that BW_PUTBYTE writes (`putBits_completes_byte`), and an
`ACC` already clear is cleared. -/
theorem bwPutbyteWritesByte : Obligations.BwPutbyteWritesByte := by
  intro s v hr
  obtain ⟨hat, hlen, hbelow⟩ := pushed_dst v hr
  refine ⟨_, congrArg Res.outcome (pushDst_of_room v hr).1, hat, hlen, hbelow, rfl, fun hn hc => ?_⟩
  have hval : (v.setWidth 255).toNat = v.toNat := by
    rw [BitVec.toNat_setWidth, Nat.mod_eq_of_lt (lt_trans v.isLt (by decide))]
  have hputn : bwPutn 8 (v.setWidth 255) s = .ok () (byteDone v s) := by
    rw [bwPutn, hval]
    refine putBits_completes_byte (List.ne_nil_of_length_pos (by simp)) ?_ hr
    rw [accBits_of_aligned hn, List.nil_append]
  refine (congrArg Res.outcome hputn).trans ?_
  rw [Res.outcome_ok, byteDone, ← acc_eq_zero_of_clean hc hn, ← hn]

/-! ### The packer over a sequence of bits (R146) -/

/-- No bit that is put raises an error (R169). -/
theorem putBits_ne_raised (bs : List Bit) (s t : State) : putBits bs s ≠ .raised t := fun h => by
  have hm := moves_putBits (packerMoves_completes (E := False) (F := True)) bs s
  rw [h] at hm
  exact hm.mayRaise

theorem bwPut_ne_raised (b : Bit) (s t : State) : bwPut b s ≠ .raised t := fun h => by
  refine putBits_ne_raised [b] s t ?_
  rw [putBits, forEach, h, Res.andThen_raised]

/-- An operation followed by others, where it answers a next state. -/
theorem execAll_cons_of_next {i : Instr} {is : List Instr} {s t : State} (h : exec i s = .next t) :
    execAll (i :: is) s = execAll is t := by
  rw [execAll, h]

/-- BW_PUT of every bit and BW_FLUSH, as operations of one sequence. -/
theorem execAll_puts_flush (bs : List Bit) (s : State) :
    execAll (bs.map .bwPut ++ [.bwFlush]) s = ((putBits bs s).andThen fun _ u => bwFlush u).outcome := by
  induction bs generalizing s with
  | nil =>
    show execAll [.bwFlush] s = (bwFlush s).outcome
    simp only [execAll, exec, execBwFlush]
    cases bwFlush s <;> rfl
  | cons b bs ih =>
    have hput : putBits (b :: bs) s = (bwPut b s).andThen fun _ u => putBits bs u := rfl
    rw [hput, Res.andThen_assoc]
    simp only [List.map_cons, List.cons_append, execAll, exec, execBwPut]
    cases hb : bwPut b s with
    | ok a u => exact ih u
    | raised u => exact absurd hb (bwPut_ne_raised b s u)
    | fault f => rfl
    | refused r => rfl

/-- From an empty packer BW_FLUSH puts the zeros of `pad8` (R5, R143). -/
theorem putBits_pad8 {s : State} (bs : List Bit) (hn : s.nbits = 0) (hd : s.dstLen.toNat ≤ s.dstCap)
    (hc : s.dstCap < 2 ^ 64) : putBits (pad8 bs) s = (putBits bs s).andThen fun _ u => bwFlush u := by
  rw [putBits, pad8, forEach_append]
  cases hu : forEach bwPut bs s with
  | ok a u =>
    have hcount := (putBits_ok hd hc hu).1.count
    have hn0 : s.nbits.toNat = 0 := congrArg BitVec.toNat hn
    have hpad : padLen u.nbits.toNat = padLen bs.length := by unfold padLen; omega
    simp only [putBits, hu, Res.andThen_ok, bwFlush, bwAlign, hpad]
  | raised u | fault f | refused r => simp only [putBits, hu, Res.andThen_raised, Res.andThen_fault, Res.andThen_refused]

/-- The state after BW_RESET (R140). -/
def packerReset (s : State) : State := { s with acc := 0, nbits := 0, dstLen := 0 }

/-- BW_RESET, the bits `bs` and BW_FLUSH put `pad8(bs)` into an empty packer. -/
theorem execAll_packing (s : State) (bs : List Bit) (hc : s.dstCap < 2 ^ 64) :
    execAll ([.bwReset] ++ bs.map .bwPut ++ [.bwFlush]) s = (putBits (pad8 bs) (packerReset s)).outcome := by
  rw [putBits_pad8 (s := packerReset s) bs rfl (Nat.zero_le _) hc, ← execAll_puts_flush]
  exact execAll_cons_of_next rfl

/-- What DST holds once `pad8(bs)` has been put into an empty packer (R146). -/
theorem packed_of_appends {s t : State} {bs : List Bit} (h : Appends (packerReset s) (pad8 bs) t) :
    t.nbits = 0 ∧ t.dstLen.toNat = (bs.length + 7) / 8 ∧ dstBits t = pad8 bs := by
  have hcount : 8 * t.dstLen.toNat + t.nbits.toNat = 8 * ((bs.length + 7) / 8) := by
    have := h.count
    rw [length_pad8] at this
    simpa [packerReset] using this
  have hlt := t.nbits.isLt
  have hn : t.nbits = 0 := BitVec.eq_of_toNat_eq (show t.nbits.toNat = 0 by omega)
  refine ⟨hn, by omega, ?_⟩
  rw [← dstBits_of_aligned hn, h.bits]
  rfl

/-- Settles O36: the sequence puts `pad8(bs)` into an empty packer (`execAll_packing`), which has room for it. -/
theorem packerLaw : Obligations.PackerLaw := by
  intro s bs hroom hc
  have hr : RoomFor (packerReset s) (pad8 bs).length := by
    rw [length_pad8]
    refine ⟨?_, hc⟩
    show 0 + (0 + 8 * ((bs.length + 7) / 8)) / 8 ≤ s.dstCap
    omega
  obtain ⟨t, ht, happ⟩ := putBits_of_room (pad8 bs) hr
  obtain ⟨hn, hlen, hbits⟩ := packed_of_appends happ
  have hacc : t.acc = 0 := acc_eq_zero_of_clean (happ.clean (accClean_zero _ rfl)) hn
  refine ⟨t, (execAll_packing s bs hc).trans (congrArg Res.outcome ht), hn, hlen, hbits,
    fun a => happ.held a (Nat.zero_le a), fun a ha => happ.below a (.inr ha), ?_⟩
  rw [← hacc, ← hn]
  exact happ.same

/-! ### The unpacker -/

/-- A bit returned to the sequencer, zero-extended (R151, log 5). -/
theorem setWidth_ofBool (b : Bit) : (BitVec.ofBool b).setWidth 64 = (if b then 1 else 0 : Word64) := by
  cases b <;> rfl

theorem exec_brGet_of_ok {s t : State} {b : Bit} (h : brGet s = .ok b t) :
    exec .brGet s = .next { t with ret := if b then 1 else 0 } := by
  simp only [exec, execBrGet, h, Res.andThen_ok, keepRet, Res.outcome_ok, setWidth_ofBool]

theorem exec_brGetn_of_ok {s t : State} {n : BitVec 7} {v : Word64} (h : brGetn n.toNat s = .ok v t) :
    exec (.brGetn n) s = .next { t with ret := v } := by
  simp only [exec, execBrGetn, h, Res.andThen_ok, keepRet, Res.outcome_ok]

theorem exec_brGetbyte_of_ok {s t : State} {v : Byte} (h : brGetbyte s = .ok v t) :
    exec .brGetbyte s = .next { t with ret := v.setWidth 64 } := by
  simp only [exec, execBrGetbyte, h, Res.andThen_ok, keepRet, Res.outcome_ok]

/-- Settles O35: BR_ALIGN's position by `alignUp_toNat`, which does not pass a multiple of 8. -/
theorem resetsAndReaderAlign : Obligations.ResetsAndReaderAlign := by
  intro s
  refine ⟨rfl, rfl, fun h => ⟨_, rfl, alignUp_toNat h, fun hle => ?_, rfl⟩⟩
  show (alignUp s.bp).toNat ≤ srcBits s
  rw [alignUp_toNat h]
  unfold srcBits at *
  omega

/-- Settles O37 by `brGet_of_placed`. -/
theorem brGetReturnsBit : Obligations.BrGetReturnsBit := fun _ _ hlt hv =>
  ⟨_, exec_brGet_of_ok (brGet_of_placed hlt hv), bp_add (k := 1) hlt, rfl, rfl⟩

/-- Settles O38: BR_GETN returns the number that the bits spell (`brGetn_of_holds`), which fits 64 bits. -/
theorem brGetnReturnsBits : Obligations.BrGetnReturnsBits := by
  intro s n bs hwf hlen hbits
  have hn : n.toNat ≤ 64 := by
    simp only [Instr.wellFormed, Instr.getnOk, Bool.and_eq_true, decide_eq_true_eq] at hwf
    exact hwf.2
  obtain ⟨hget, hbp⟩ := brGetn_of_holds bs hbits
  rw [hlen] at hget hbp
  have hlt : natOf bs < 2 ^ n.toNat := hlen ▸ natOf_lt bs
  have hfit : (BitVec.ofNat 64 (natOf bs)).toNat = natOf bs := by
    rw [BitVec.toNat_ofNat, Nat.mod_eq_of_lt (hlt.trans_le (Nat.pow_le_pow_right (by decide) hn))]
  refine ⟨_, exec_brGetn_of_ok hget, hbp, lt_of_eq_of_lt hfit hlt, fun j h => ?_, rfl⟩
  rw [BitVec.getLsbD, hfit, ← hlen, testBit_natOf bs j h]

/-- Settles O39: a whole byte in SRC is eight bits (`holdsBits_byte`), and the number they spell is the byte. -/
theorem brGetbyteReturnsByte : Obligations.BrGetbyteReturnsByte := by
  intro s v hp hle hv
  obtain ⟨hget, hbp⟩ := brGetbyte_of_placed hle hv
  refine ⟨_, exec_brGetbyte_of_ok hget, ?_, hbp, rfl, rfl⟩
  have hgetn := (brGetn_of_holds _ ((holdsBits_byte hp hle).2 hv)).1
  have hval : BitVec.ofNat 64 (natOf (bitsOf 8 v.toNat)) = v.setWidth 64 := by
    rw [natOf_bitsOf v.isLt, BitVec.ofNat_toNat]
  rw [length_bitsOf, hval] at hgetn
  exact exec_brGetn_of_ok (n := 8) hgetn

/-! ### The unpacker on what the packer wrote (R155) -/

/-- The k-th of a sequence of BR_GET returns the k-th bit that SRC holds. -/
theorem execAll_brGet_of_holds {s : State} {bs : List Bit} (h : HoldsBits s s.bp.toNat bs) (k : Nat) (hk : k < bs.length) :
    ∃ t, execAll (List.replicate (k + 1) .brGet) s = .next t ∧ t.bp.toNat = s.bp.toNat + (k + 1) ∧
      t.ret = (if bs[k] then 1 else 0) := by
  induction bs generalizing s k with
  | nil => exact absurd hk (Nat.not_lt_zero k)
  | cons b bs ih =>
    obtain ⟨hget, hbp⟩ := brGet_of_holds h
    have hstep := execAll_cons_of_next (is := List.replicate k .brGet) (exec_brGet_of_ok hget)
    rw [List.replicate_succ, hstep]
    cases k with
    | zero => exact ⟨_, rfl, hbp, rfl⟩
    | succ k =>
      have hrest := ((holdsBits_cons.1 h).2).congr (t := { s with bp := s.bp + 1, ret := if b then 1 else 0 }) rfl rfl
      rw [← hbp] at hrest
      obtain ⟨t, ht, htb, hret⟩ := ih hrest k (Nat.lt_of_succ_lt_succ hk)
      refine ⟨t, ht, ?_, hret⟩
      rw [htb, hbp]
      omega

/-- SRC holds the bits of a result that has been placed in it. -/
theorem holdsBits_of_copied {t u : State} (hlen : u.srcLen = t.dstLen)
    (hcopy : ∀ a, a < t.dstLen.toNat → Table.get u.src a = Table.get t.dst a)
    (hheld : ∀ a, a < t.dstLen.toNat → (Table.get t.dst a).isSome = true) : HoldsBits u 0 (dstBits t) := by
  refine holdsBits_bytes (fun a => (Table.get t.dst a).getD 0) t.dstLen.toNat rfl ?_ fun a ha => ?_
  · rw [srcBits, hlen, Nat.zero_add]
  · obtain ⟨v, hv⟩ := Option.isSome_iff_exists.1 (hheld a ha)
    rw [Nat.zero_div, Nat.zero_add, hcopy a ha, hv]
    rfl

/-- Settles O40: the packing that has ended put `pad8(bs)` (`execAll_packing`), so SRC holds it, and the reads return its
bits in order. -/
theorem symmetryLaw : Obligations.SymmetryLaw := by
  intro s t u bs hc hpack hlen hcopy hbp
  rw [execAll_packing s bs hc] at hpack
  have happ : Appends (packerReset s) (pad8 bs) t := by
    rcases Res.outcome_eq_next hpack with ⟨_, hok⟩ | hraised
    · exact (putBits_ok (s := packerReset s) (Nat.zero_le _) hc hok).1
    · exact absurd hraised (putBits_ne_raised _ _ _)
  have hbits : HoldsBits u 0 (pad8 bs) := by
    rw [← (packed_of_appends happ).2.2]
    exact holdsBits_of_copied hlen hcopy fun a => happ.held a (Nat.zero_le a)
  have hu : u.bp.toNat = 0 := congrArg BitVec.toNat hbp
  refine ⟨hbits, fun k hk => ?_⟩
  obtain ⟨w, hw, hwb, hret⟩ := execAll_brGet_of_holds (by rw [hu]; exact (holdsBits_append.1 hbits).1) k hk
  exact ⟨w, hw, by rw [hwb, hu, Nat.zero_add], hret⟩

/-! ### What the packing operations leave unchanged -/

/-- The state without what the packing operations may write (R141 to R145, R167, log 9). -/
def blankPacking (s : State) : State := { s with acc := 0, nbits := 0, dst := [], dstLen := 0, epos := 0, freeNext := 0 }

/-- What a packing operation does: DST is only appended to, and `EPOS` stays where `P` holds. -/
structure PackingKeeps (P : Prop) (s t : State) : Prop where
  rest : blankPacking t = blankPacking s
  epos : P → t.epos = s.epos
  dst : s.dstCap < 2 ^ 64 → s.dstLen.toNat ≤ t.dstLen.toNat ∧ DstOnlyAppended s t

section
variable {P : Prop}

theorem PackingKeeps.of_dst {s t : State} (h1 : blankPacking t = blankPacking s) (h2 : P → t.epos = s.epos)
    (h3 : t.dst = s.dst) (h4 : t.dstLen = s.dstLen) : PackingKeeps P s t :=
  ⟨h1, h2, fun _ => ⟨by rw [h4], fun a _ => by rw [h3]⟩⟩

theorem PackingKeeps.dstCap {s t : State} (h : PackingKeeps P s t) : t.dstCap = s.dstCap := by
  show (blankPacking t).dstCap = (blankPacking s).dstCap
  rw [h.rest]

theorem PackingKeeps.trans {s t u : State} (h : PackingKeeps P s t) (k : PackingKeeps P t u) : PackingKeeps P s u := by
  refine ⟨k.rest.trans h.rest, fun hP => (k.epos hP).trans (h.epos hP), fun hc => ?_⟩
  obtain ⟨hle, ha⟩ := h.dst hc
  obtain ⟨kle, ka⟩ := k.dst (by rwa [h.dstCap])
  exact ⟨hle.trans kle, fun a hr => (ka a (by omega)).trans (ha a (by omega))⟩

theorem packerMoves_packing : PackerMoves (PackingKeeps P) (PackingKeeps P) where
  refl _ := .of_dst rfl (fun _ => rfl) rfl rfl
  trans := .trans
  after := .trans
  push s v hlt := by
    refine ⟨rfl, fun _ => rfl, fun hc => ?_⟩
    obtain ⟨-, hlen, hbelow⟩ := pushed_dst v ⟨hlt, hc⟩
    exact ⟨Nat.le_of_lt (hlen ▸ Nat.lt_succ_self _), hbelow⟩
  put _ _ _ := .of_dst rfl (fun _ => rfl) rfl rfl
  clear _ := .of_dst rfl (fun _ => rfl) rfl rfl

theorem encoderMoves_packing (hP : ¬ P) : EncoderMoves (PackingKeeps P) (PackingKeeps P) where
  toPackerMoves := packerMoves_packing
  start _ := .of_dst rfl (fun h => absurd h hP) rfl rfl
  ahead _ _ := .of_dst rfl (fun h => absurd h hP) rfl rfl

end

theorem eq_of_blankPacking {s t : State} (h : blankPacking t = blankPacking s) :
    t = { s with
      acc := t.acc, nbits := t.nbits, dst := t.dst, dstLen := t.dstLen, epos := t.epos, freeNext := t.freeNext } :=
  congrArg (fun x : State =>
    { x with
      acc := t.acc, nbits := t.nbits, dst := t.dst, dstLen := t.dstLen, epos := t.epos, freeNext := t.freeNext }) h

/-- The packing operations: the packer's, TB_SER and the encoder's writing phases. -/
def OfPacking (i : Instr) : Prop :=
  i ∈ [.tbSer, .bwAlign, .bwFlush, .encTree, .encLen, .encFlush, .encCodes] ∨ (∃ b, i = .bwPut b) ∨
    (∃ n v, i = .bwPutn n v) ∨ ∃ v, i = .bwPutbyte v

/-- Every packing operation's updates keep it, ENC_CODES without `EPOS` (R167). -/
theorem unitMoves_packing {i : Instr} (hi : OfPacking i) :
    UnitMoves (PackingKeeps (i ≠ .encCodes)) (PackingKeeps (i ≠ .encCodes)) i := by
  cases i with
  | tbSer | encTree => exact ⟨packerMoves_packing, fun _ => .of_dst rfl (fun _ => rfl) rfl rfl⟩
  | bwPut | bwPutn | bwAlign | bwFlush | bwPutbyte | encLen | encFlush => exact packerMoves_packing
  | encCodes => exact encoderMoves_packing (fun h => h rfl)
  | _ => simp [OfPacking] at hi

/-- Only TB_SER and ENC_TREE among them may read a Leaf's child (log 12). -/
theorem readsChild_of_packing {i : Instr} (hi : OfPacking i) (h1 : i ≠ .tbSer) (h2 : i ≠ .encTree) :
    readsChild i = false := by
  cases i with
  | tbSer => exact absurd rfl h1
  | encTree => exact absurd rfl h2
  | decSymbol | decSymbols | fCode => simp [OfPacking] at hi
  | _ => rfl

/-- Settles O56: each operation's updates keep what `PackingKeeps` says (`unitMoves_packing`); the count of free values by
`exec_keeps_hostSide`. -/
theorem packingFrame : Obligations.PackingFrame := by
  intro i s t hi hc h
  have hk : PackingKeeps (i ≠ .encCodes) s t := (exec_moves (unitMoves_packing hi) h).elim id id
  obtain ⟨hle, happ⟩ := hk.dst hc
  exact ⟨eq_of_blankPacking hk.rest, hk.epos,
    fun h1 h2 => (exec_keeps_hostSide h).2 (readsChild_of_packing hi h1 h2), hle, happ⟩

end Sys2Proof.Machine

/-! ## Proofs of the statements about the encoder (44_huffman_encoder.md) -/

namespace Sys2Proof.Machine

/-! ### The writing phases -/

/-- The depth bound of a code is below the bound of the traversal (R4, R113). -/
theorem depth_lt_pathBound {T : Option HTree} (h : ∀ x, T = some x → x.depth ≤ 255) :
    ∀ x, T = some x → x.depth < pathBound :=
  fun x hx => Nat.lt_of_le_of_lt (h x hx) (by decide)

/-- Settles O41: ENC_TREE appends the padded field (`encTree_of_root`), which is whole bytes, so an `ACC` kept clean is 0. -/
theorem encTreeWritesPaddedField : Obligations.EncTreeWritesPaddedField := by
  intro s T hroot hd hn hclean hr
  obtain ⟨t, ht, happ, htn⟩ := encTree_of_root hroot (depth_lt_pathBound hd) hn hr
  have hacc : t.acc = 0 := acc_eq_zero_of_clean (happ.clean hclean) htn
  have hcount := happ.count
  rw [hn, htn, length_pad8] at hcount
  refine ⟨t, congrArg Res.outcome ht, ?_, happ.below, ?_, ?_⟩
  · rw [← dstBits_of_aligned htn, happ.bits, dstBits_of_aligned hn]
  · omega
  · rw [← hacc, ← htn]
    exact happ.same

/-- Byte `k` of the length field as a slice of the word (R166). -/
theorem lenByte_eq_extractLsb' (v : Word64) (k : Nat) : lenByte v k = v.extractLsb' (56 - 8 * k) 8 := by
  apply BitVec.eq_of_toNat_eq
  simp [lenByte]

/-- Settles O42 by `encLen_of_room`. -/
theorem encLenWritesBigEndian : Obligations.EncLenWritesBigEndian := by
  intro s hr
  obtain ⟨t, ht, hpush⟩ := encLen_of_room hr
  refine ⟨t, congrArg Res.outcome ht, fun k hk => ?_, hpush.len, hpush.below, hpush.same⟩
  rw [hpush.bytes k hk, lenByte_eq_extractLsb']

/-- Settles O43 by `encCodes_of_room`. -/
theorem encCodesPutsCodeStream : Obligations.EncCodesPutsCodeStream := by
  intro s hs hc hr
  obtain ⟨t, ht, happ⟩ := encCodes_of_room hs hc hr
  refine ⟨_, congrArg Res.outcome ht, happ.bits, rfl, happ.below, ?_⟩
  exact congrArg (fun u : State => { u with epos := s.srcLen }) happ.same

/-! ### What an encoder's operation leaves unchanged -/

/-- What no operation of a COMPRESS run touches: `PHASE`, `ERRKIND` and the select lines, which raising an error would move
(R226), and the registers of the decoder and the unpacker (R18). -/
def outsideEncoder (s : State) :
    Phase × ErrKind × List Instr × BitVec 67 × Word64 × Word64 × NodeIx × DState × Word64 :=
  (s.phase, s.errKind, s.issue, s.bp, s.count, s.emitted, s.dnode, s.dstate, s.ret)

/-- Two states that agree but for what a unit writes agree in `outsideEncoder`, if the unit writes none of it. -/
theorem outsideEncoder_of_blanked {blank : State → State} (hb : ∀ s, outsideEncoder (blank s) = outsideEncoder s)
    {s t : State} (h : blank t = blank s) : outsideEncoder t = outsideEncoder s := by
  rw [← hb t, h, hb s]

theorem outsideEncoder_of_packing {i : Instr} {s t : State} (hi : OfPacking i) (h : exec i s = .next t) :
    outsideEncoder t = outsideEncoder s :=
  outsideEncoder_of_blanked (blank := blankPacking) (fun _ => rfl) ((exec_moves (unitMoves_packing hi) h).elim id id).rest

/-- Settles O44: the units' frames (`exec_sameBlanked`) and the packing operations' (`unitMoves_packing`) blank none of
`outsideEncoder`. -/
theorem encoderNeverRaises : Obligations.EncoderNeverRaises := by
  intro i s t hi h
  have hunit : ∀ blank : State → State, (∀ s, outsideEncoder (blank s) = outsideEncoder s) →
      UnitMoves (SameBlanked blank) (SameBlanked blank) i → outsideEncoder t = outsideEncoder s :=
    fun _ hb hm => outsideEncoder_of_blanked hb (exec_sameBlanked hm h)
  have hside : outsideEncoder t = outsideEncoder s := by
    cases i with
    | fcClear | fcCount | fcScan | encCount => exact hunit blankCounter (fun _ => rfl) counterMoves_sameBlanked
    | tbInit | tbMerge | tbBuild | encBuild => exact hunit blankBuilder (fun _ => rfl) builderMoves_sameBlanked
    | cbGen | encCodebook => exact hunit blankCodebook (fun _ => rfl) codebookMoves_sameBlanked
    | bwReset => cases h; rfl
    | tbSer | bwAlign | bwFlush | encTree | encLen | encCodes | encFlush =>
      exact outsideEncoder_of_packing (.inl (by decide)) h
    | bwPut b => exact outsideEncoder_of_packing (.inr (.inl ⟨b, rfl⟩)) h
    | bwPutn n v => exact outsideEncoder_of_packing (.inr (.inr (.inl ⟨n, v, rfl⟩))) h
    | bwPutbyte v => exact outsideEncoder_of_packing (.inr (.inr (.inr ⟨v, rfl⟩))) h
    | _ => simp at hi
  simp only [outsideEncoder, Prod.mk.injEq] at hside
  obtain ⟨hphase, herr, hissue, hbp, hcount, hemitted, hdnode, hdstate, hret⟩ := hside
  exact ⟨hphase, herr, hbp, hcount, hemitted, hdnode, hdstate, hissue, hret⟩

/-! ### What the packer has accepted -/

/-- The packer has accepted exactly the bits `bs`, and every byte below `DST_LEN` has been written. -/
structure Packed (bs : List Bit) (s : State) : Prop where
  bits : packedBits s = bs
  held : ∀ a, a < s.dstLen.toNat → (Table.get s.dst a).isSome = true

section
variable {s t : State} {bs cs : List Bit}

theorem packed_nil (hl : s.dstLen = 0) (hn : s.nbits = 0) : Packed [] s where
  bits := by simp [packedBits, dstBits, accBits, hl, hn]
  held a ha := by simp [hl] at ha

theorem Packed.append (h : Packed bs s) (k : Appends s cs t) : Packed (bs ++ cs) t where
  bits := by rw [k.bits, h.bits]
  held a ha := by
    by_cases hs : a < s.dstLen.toNat
    · rw [k.below a (.inl hs)]
      exact h.held a hs
    · exact k.held a (Nat.le_of_not_lt hs) ha

theorem Packed.length (h : Packed bs s) : 8 * s.dstLen.toNat + s.nbits.toNat = bs.length := by
  rw [← h.bits, packedBits, List.length_append, length_dstBits, accBits, List.length_map, List.length_range]

theorem Packed.aligned (h : Packed bs s) (hb : bs.length % 8 = 0) : s.nbits = 0 := by
  have hlen := h.length
  have hlt := s.nbits.isLt
  exact BitVec.eq_of_toNat_eq (show s.nbits.toNat = 0 by omega)

theorem Packed.dstBits (h : Packed bs s) (hb : bs.length % 8 = 0) : dstBits s = bs := by
  rw [← dstBits_of_aligned (h.aligned hb), h.bits]

/-- Bytes appended at a byte boundary are their bits appended. -/
theorem Pushes.appends {n : Nat} {f : Nat → Byte} (h : Pushes s n f t) (hn : s.nbits = 0) :
    Appends s ((List.range n).flatMap fun k => bitsOf 8 (f k).toNat) t := by
  have hnbits : t.nbits = s.nbits := (congrArg State.nbits h.same :)
  have hacc : t.acc = s.acc := (congrArg State.acc h.same :)
  refine ⟨?_, ?_, h.below, ?_, ?_, fun a hlo hhi => ?_⟩
  · rw [dstBits_of_aligned (hnbits.trans hn), h.dstBits, dstBits_of_aligned hn]
  · rw [hnbits, hacc]
    exact h.same
  · have hlen : ((List.range n).flatMap fun k => bitsOf 8 (f k).toNat).length = 8 * n := by
      simp [List.length_flatMap, Nat.mul_comm]
    rw [h.len, hnbits, hlen]
    omega
  · unfold AccClean
    rw [hnbits, hacc]
    exact id
  · obtain ⟨k, rfl⟩ := Nat.exists_eq_add_of_le hlo
    rw [h.bytes k (by rw [h.len] at hhi; omega)]
    rfl

/-- Whole bytes, all of whose bits are 0, are zero bytes. -/
theorem Packed.get_dst_eq_zero {n a : Nat} (h : Packed (List.replicate (8 * n) false) s) (ha : a < n) :
    Table.get s.dst a = some 0 := by
  have hlen := h.length
  rw [List.length_replicate] at hlen
  have hlt : a < s.dstLen.toNat := by have := s.nbits.isLt; omega
  obtain ⟨v, hv⟩ := Option.isSome_iff_exists.1 (h.held a hlt)
  have hbits : ∀ b ∈ bitsOf 8 v.toNat, b = false := fun b hb => by
    refine List.eq_of_mem_replicate (n := 8 * n) ?_
    rw [← h.dstBits (by simp), Machine.dstBits, List.mem_flatMap]
    exact ⟨a, List.mem_range.2 hlt, by rwa [hv]⟩
  have hzero : bitsOf 8 v.toNat = bitsOf 8 (0 : Byte).toNat := List.eq_replicate_iff.2 ⟨length_bitsOf 8 _, hbits⟩
  rw [hv, eq_of_bitsOf_byte hzero]

end

/-- Bits after whole bytes are padded as they are alone (R5). -/
theorem pad8_append {bs : List Bit} (cs : List Bit) (h : bs.length % 8 = 0) : pad8 (bs ++ cs) = bs ++ pad8 cs := by
  have hpad : padLen (bs ++ cs).length = padLen cs.length := by
    rw [List.length_append]
    unfold padLen
    omega
  rw [pad8, hpad, pad8, List.append_assoc]

/-! ### The tree and the codes of an input -/

/-- The tree `T` in `s` is one for the input of `s₀`: it is empty exactly where the input is, and holds every byte of it. -/
structure TreeFor (s₀ : State) (T : Option HTree) (s : State) : Prop where
  root : RootIs s T
  empty : T = none ↔ s₀.srcLen = 0
  count : s.n = 0 ↔ T = none
  leaves : ∀ x, T = some x → x.syms.length ≤ 256
  nodup : ∀ x, T = some x → x.syms.Nodup
  mem : ∀ (a : Nat) (b : Byte), a < s₀.srcLen.toNat → Table.get s₀.src a = some b → ∃ x, T = some x ∧ b ∈ x.syms

/-- Besides, every symbol of the tree has its path as its code in `s`, and `cs` is the code stream (R22, R68). -/
structure Coded (s₀ : State) (T : Option HTree) (cs : List Bit) (s : State) : Prop extends TreeFor s₀ T s where
  codes : ∀ x (b : Byte), T = some x → b ∈ x.syms → x.codeAt (codeBitsOf s b.toNat) = some b ∧ HasCode s b.toNat
  stream : codeStream s = cs

theorem TreeFor.depth_le {s₀ s : State} {T : Option HTree} (h : TreeFor s₀ T s) : ∀ x, T = some x → x.depth ≤ 255 := by
  intro x hx
  have hleaves := h.leaves x hx
  have hdepth := x.depth_lt
  omega

section
variable {s t : State}

theorem freqAt_of_counted (h : ∀ b : Byte, Table.get t.freq b.toNat = some (BitVec.ofNat 64 (occurrences s b)))
    (b : Byte) : freqAt t b.toNat = occurrences s b := by
  have hle : occurrences s b ≤ s.srcLen.toNat := occurrencesBelow_le s _ b
  have hlt := s.srcLen.isLt
  rw [freqAt, h b, Option.map_some, Option.getD_some, BitVec.toNat_ofNat, Nat.mod_eq_of_lt (by omega)]

theorem freqWritten_of_counted
    (h : ∀ b : Byte, Table.get t.freq b.toNat = some (BitVec.ofNat 64 (occurrences s b))) : FreqWritten t := by
  intro b hb
  have hget := h (BitVec.ofNat 8 b)
  rw [BitVec.toNat_ofNat, Nat.mod_eq_of_lt hb] at hget
  rw [hget]
  rfl

theorem present_eq_nil_iff (s : State) : present s = [] ↔ freqSum s = 0 := by
  simp [present, freqSum, List.sum_eq_zero_iff]

/-- What TB_BUILD makes of the counts of an input is a tree for it (R93, R106). -/
theorem TreeFor.of_built {u : State} {T : Option HTree} (hs : SrcPlaced s)
    (hf : ∀ b : Byte, Table.get t.freq b.toNat = some (BitVec.ofNat 64 (occurrences s b))) (h : Built t T u) :
    TreeFor s T u where
  root := h.root
  empty := by
    rw [h.none_iff, present_eq_nil_iff, freqSum_of_counted hs hf]
    exact BitVec.toNat_inj (y := 0#64)
  count := by
    rw [h.none_iff, ← List.length_eq_zero_iff, ← h.count]
    exact (BitVec.toNat_inj (y := 0#9)).symm
  leaves _ hx := h.length_le hx
  nodup _ hx := h.nodup hx
  mem a b ha hb := by
    have hfreq : freqAt t b.toNat ≠ 0 := by
      rw [freqAt_of_counted hf]
      exact (occurrences_pos ha hb).ne'
    cases T with
    | none =>
      have hmem := mem_present.2 ⟨b.isLt, hfreq⟩
      rw [h.none_iff.1 rfl] at hmem
      cases hmem
    | some x => exact ⟨x, rfl, h.mem rfl hfreq⟩

/-- ENC_CODEBOOK gives every symbol of the tree its code (R130, R164). -/
theorem TreeFor.exec_encCodebook {s₀ : State} {T : Option HTree} (h : TreeFor s₀ T s) :
    ∃ t, exec .encCodebook s = .next t ∧ Coded s₀ T (codeStream t) t ∧
      t = { s with codeLen := t.codeLen, codeBits := t.codeBits } := by
  obtain ⟨t, ht, hcode, -, hframe⟩ := cbGen_of_root h.root fun x hx => ⟨h.depth_le x hx, h.nodup x hx⟩
  have hroot : t.root = s.root := (congrArg State.root hframe :)
  have hnode : t.node = s.node := (congrArg State.node hframe :)
  have hn : t.n = s.n := (congrArg State.n hframe :)
  have htree : TreeFor s₀ T t := { h with root := rootIs_congr h.root hroot hnode, count := by rw [hn]; exact h.count }
  refine ⟨t, congrArg Res.outcome ht, { htree with codes := fun x b hx hb => ?_, stream := rfl }, hframe⟩
  obtain ⟨p, hp⟩ := HTree.codeAt_of_mem_syms hb
  have hfits : p.length ≤ 255 := by
    have hle := HTree.length_codeAt hp
    have hdepth := h.depth_le x hx
    omega
  have hcp := hcode x b p hx hp
  rw [hcp.codeBitsOf hfits]
  exact ⟨hp, hcp.hasCode hfits (HTree.codeAt_ne_nil hp)⟩

/-- The codes of the empty input (R163). -/
theorem codeStream_of_empty (h : s.srcLen = 0) : codeStream s = [] := by simp [codeStream, h]

/-- No packing operation touches the tree or the codebook. -/
theorem Coded.advanced {s₀ : State} {T : Option HTree} {cs : List Bit} (h : Coded s₀ T cs s)
    (hb : blankPacking t = blankPacking s) : Coded s₀ T cs t.advanced where
  toTreeFor := { h.toTreeFor with
    root := rootIs_congr h.root (congrArg State.root hb :) (congrArg State.node hb :)
    count := by
      rw [show t.advanced.n = s.n from (congrArg State.n hb :)]
      exact h.count }
  codes x b hx hm := by
    have hbits : codeBitsOf t.advanced b.toNat = codeBitsOf s b.toNat := (congrArg (codeBitsOf · b.toNat) hb :)
    have hhas : HasCode t.advanced b.toNat = HasCode s b.toNat := (congrArg (HasCode · b.toNat) hb :)
    rw [hbits, hhas]
    exact h.codes x b hx hm
  stream := Eq.trans (congrArg codeStream hb :) h.stream

end

/-! ### A COMPRESS run, phase by phase (R160) -/

/-- The state of a run begun in `s₀` that has come to phase `p`: no error stands, nothing but the sequencer acts, and what
the host placed is as it was. -/
structure Running (s₀ : State) (p : Phase) (s : State) : Prop where
  phase : s.phase = p
  alone : Alone s
  errKind : s.errKind = .none
  hostSide : hostSide s = hostSide s₀

section
variable {s₀ s t : State} {p : Phase} {i : Instr} {k : Nat}

theorem format_of_phaseOp (h : phaseOp p = some i) : i.format ≠ .cmd := by
  revert h
  cases p <;> rintro ⟨⟩ <;> decide

/-- COMPRESS starts a run (R200). -/
theorem compress_started (hb : busy s = false) (ha : Alone s) (hcap : s.srcLen.toNat ≤ s.srcCap) :
    commandRun .compress s = runToEnd 8 (s.started .eCount) ∧ Running s .eCount (s.started .eCount) := by
  have hexec : exec .compress s = .next (s.started .eCount) := by
    simp only [exec, execCompress, command, hb, if_pos hcap, Res.outcome_ok, Bool.false_eq_true, if_false]
  exact ⟨by rw [commandRun, hexec], rfl, ha, rfl, rfl⟩

/-- One phase of the run whose operation raises no error (R15, R169). -/
theorem Running.step (h : Running s₀ p s) (hp : phaseOp p = some i) (hm : mayRaise i = false)
    (he : exec i s = .next t) :
    runToEnd (k + 1) s = runToEnd k t.advanced ∧ Running s₀ (nextPhase { t with phase := p }) t.advanced := by
  obtain ⟨rfl, halone, herr, hhost⟩ := h
  have hbusy : busy s = true := by
    by_contra hb
    rw [(phaseOp_eq_none_iff s).2 (by simpa using hb)] at hp
    cases hp
  have hc := (exec_completes_or_raises (format_of_phaseOp hp) he).resolve_right fun hr => by
    rw [hm] at hr
    exact absurd hr.mayRaise (by decide)
  obtain ⟨hside, hcontrol, -⟩ := hc
  simp only [control, Prod.mk.injEq] at hcontrol
  obtain ⟨hphase, hkind, hissue⟩ := hcontrol
  have hh : t.host = s.host := (congrArg (fun x => x.2.2.2.2.1) hside :)
  refine ⟨runToEnd_phase halone hbusy hp he, ?_, ⟨hh.trans halone.1, hissue.trans halone.2⟩, hkind.trans herr,
    hside.trans hhost⟩
  rw [← hphase]
  rfl

theorem Running.src (h : Running s₀ p s) : s.src = s₀.src := (congrArg (fun x => x.1) h.hostSide :)

theorem Running.srcLen (h : Running s₀ p s) : s.srcLen = s₀.srcLen := (congrArg (fun x => x.2.1) h.hostSide :)

theorem Running.dstCap (h : Running s₀ p s) : s.dstCap = s₀.dstCap := (congrArg (fun x => x.2.2.2.1) h.hostSide :)

theorem Running.srcPlaced (h : Running s₀ p s) (hs : SrcPlaced s₀) : SrcPlaced s := by
  unfold SrcPlaced
  rw [h.src, h.srcLen]
  exact hs

theorem statusByte_of_done (hp : s.phase = .done) (he : s.errKind = .none) : statusByte s = 0x02#8 := by
  rw [statusByte, hp, he]
  rfl

end

/-- A run begun in `s₀` that has come to a writing phase `p` with the tree `T` and the code stream `cs`, the bits `bs`
written. -/
structure Encoding (s₀ : State) (T : Option HTree) (cs : List Bit) (p : Phase) (bs : List Bit) (s : State) : Prop where
  running : Running s₀ p s
  coded : Coded s₀ T cs s
  packed : Packed bs s

section
variable {s₀ s t : State} {T : Option HTree} {cs bs ds : List Bit} {p : Phase} {i : Instr} {k : Nat}

/-- E_COUNT and E_BUILD (R161, R162): from any idle state the run comes on with a tree for the input, and nothing written.
The codebook is left out where the tree is empty (R163). -/
theorem compress_builds (hb : busy s = false) (ha : Alone s) (hcap : s.srcLen.toNat ≤ s.srcCap) (hs : SrcPlaced s) :
    ∃ T t, commandRun .compress s = runToEnd 6 t ∧ Running s (if T = none then .eTree else .eCodebook) t ∧
      TreeFor s T t ∧ Packed [] t := by
  obtain ⟨hrun, hstart⟩ := compress_started hb ha hcap
  obtain ⟨c, hc, hcounts, hcframe⟩ := fcScan_of_placed (hstart.srcPlaced hs)
  obtain ⟨hcountRun, hcounted⟩ := hstart.step (k := 7) rfl rfl (congrArg Res.outcome hc)
  have hsum : freqSum c.advanced = s.srcLen.toNat := freqSum_of_counted hs hcounts
  obtain ⟨u, T, hu, hbuilt⟩ :=
    tbBuild_of_written (freqWritten_of_counted (t := c.advanced) hcounts) (by rw [hsum]; exact s.srcLen.isLt)
  obtain ⟨hbuildRun, hnext⟩ := hcounted.step (k := 6) rfl rfl (congrArg Res.outcome hu)
  have htree : TreeFor s T u := .of_built (t := c.advanced) hs hcounts hbuilt
  have hlen : u.dstLen = 0 := Eq.trans (congrArg State.dstLen hbuilt.same :) (congrArg State.dstLen hcframe :)
  have hnbits : u.nbits = 0 := Eq.trans (congrArg State.nbits hbuilt.same :) (congrArg State.nbits hcframe :)
  have hphase : nextPhase { u with phase := .eBuild } = if T = none then .eTree else .eCodebook :=
    if_congr htree.count rfl rfl
  refine ⟨T, u.advanced, by rw [hrun, hcountRun, hbuildRun], ?_, { htree with }, packed_nil hlen hnbits⟩
  rw [← hphase]
  exact hnext

/-- The run comes to E_TREE with a tree and codes for the input, and nothing written (R161 to R164). -/
theorem compress_to_eTree (hb : busy s = false) (ha : Alone s) (hcap : s.srcLen.toNat ≤ s.srcCap) (hs : SrcPlaced s) :
    ∃ k T cs t, commandRun .compress s = runToEnd (k + 4) t ∧ Encoding s T cs .eTree [] t := by
  obtain ⟨T, u, hrun, hnext, htree, hpacked⟩ := compress_builds hb ha hcap hs
  by_cases hT : T = none
  · rw [if_pos hT] at hnext
    have hcoded : Coded s T (codeStream u) u :=
      { htree with codes := fun x _ hx => (nomatch hT.symm.trans hx), stream := rfl }
    exact ⟨2, T, _, u, hrun, hnext, hcoded, hpacked⟩
  · rw [if_neg hT] at hnext
    obtain ⟨t, ht, hcoded, hframe⟩ := htree.exec_encCodebook
    obtain ⟨hcodeRun, hcodeNext⟩ := hnext.step (k := 5) rfl rfl ht
    have hwritten : Packed [] t.advanced := by
      obtain ⟨hbits, hheld⟩ := hpacked
      rw [hframe]
      exact ⟨hbits, hheld⟩
    exact ⟨1, T, _, t.advanced, hrun.trans hcodeRun, hcodeNext, hcoded.advanced rfl, hwritten⟩

theorem Encoding.roomFor {n : Nat} (h : Encoding s₀ T cs p bs s) (hr : bs.length + n ≤ 8 * s₀.dstCap)
    (hc : s₀.dstCap < 2 ^ 64) : RoomFor s n := by
  have hlen := h.packed.length
  rw [RoomFor, h.running.dstCap]
  omega

/-- One writing phase: what its operation packs. -/
theorem Encoding.step (h : Encoding s₀ T cs p bs s) (hp : phaseOp p = some i) (hi : OfPacking i)
    (he : exec i s = .next t) (hd : Packed ds t) :
    runToEnd (k + 1) s = runToEnd k t.advanced ∧
      Encoding s₀ T cs (nextPhase { t with phase := p }) ds t.advanced := by
  have hm : mayRaise i = false := by
    cases i with
    | tbDes | decTree | decLen | decSymbol | decSymbols | tEmpty | tPresent | nLeaf | nInternal | fLength | fCode =>
      simp [OfPacking] at hi
    | _ => rfl
  have hk : blankPacking t = blankPacking s := ((exec_moves (unitMoves_packing hi) he).elim id id).rest
  obtain ⟨hrun, hnext⟩ := h.running.step (k := k) hp hm he
  exact ⟨hrun, hnext, h.coded.advanced hk, hd.bits, hd.held⟩

/-- E_TREE (R165). -/
theorem Encoding.eTree (h : Encoding s₀ T cs .eTree [] s) (hr : (pad8 (treeField T)).length ≤ 8 * s₀.dstCap)
    (hc : s₀.dstCap < 2 ^ 64) :
    ∃ t, runToEnd (k + 1) s = runToEnd k t ∧ Encoding s₀ T cs .eLen (pad8 (treeField T)) t := by
  have hroom : RoomFor s ((treeField T).length + 7) := by
    rw [length_pad8] at hr
    have hlen := h.packed.length
    rw [List.length_nil] at hlen
    rw [RoomFor, h.running.dstCap]
    omega
  obtain ⟨t, ht, happ, -⟩ :=
    encTree_of_root h.coded.root (depth_lt_pathBound h.coded.depth_le) (h.packed.aligned rfl) hroom
  exact ⟨_, h.step rfl (.inl (by decide)) (congrArg Res.outcome ht) (h.packed.append happ)⟩

/-- E_LEN (R166): the run of the empty input is DONE with it (R163). -/
theorem Encoding.eLen (h : Encoding s₀ T cs .eLen bs s) (hb : bs.length % 8 = 0) (hr : bs.length + 64 ≤ 8 * s₀.dstCap)
    (hc : s₀.dstCap < 2 ^ 64) :
    ∃ t, runToEnd (k + 1) s = runToEnd k t ∧
      Encoding s₀ T cs (if T = none then .done else .eCodes) (bs ++ bitsOf 64 s₀.srcLen.toNat) t := by
  have hroom : RoomBytes s 8 := by
    have hlen := h.packed.length
    rw [RoomBytes, h.running.dstCap]
    omega
  obtain ⟨t, ht, hpush⟩ := encLen_of_room hroom
  have happ := hpush.appends (h.packed.aligned hb)
  rw [← bitsOf_lenBytes, h.running.srcLen] at happ
  have hn : t.n = s.n := (congrArg State.n hpush.same :)
  have hphase : nextPhase { t with phase := .eLen } = if T = none then .done else .eCodes :=
    if_congr (by rw [← h.coded.count, ← hn]) rfl rfl
  rw [← hphase]
  exact ⟨_, h.step rfl (.inl (by decide)) (congrArg Res.outcome ht) (h.packed.append happ)⟩

/-- E_CODES (R167). -/
theorem Encoding.eCodes (h : Encoding s₀ T cs .eCodes bs s) (hs : SrcPlaced s₀)
    (hr : bs.length + cs.length ≤ 8 * s₀.dstCap) (hc : s₀.dstCap < 2 ^ 64) :
    ∃ t, runToEnd (k + 1) s = runToEnd k t ∧ Encoding s₀ T cs .eFlush (bs ++ cs) t := by
  have hcodes : ∀ a v, a < s.srcLen.toNat → Table.get s.src a = some v → HasCode s v.toNat := fun a v ha hv => by
    rw [h.running.srcLen] at ha
    rw [h.running.src] at hv
    obtain ⟨x, hx, hm⟩ := h.coded.mem a v ha hv
    exact (h.coded.codes x v hx hm).2
  have hstream := h.coded.stream
  obtain ⟨t, ht, happ⟩ := encCodes_of_room (h.running.srcPlaced hs) hcodes (by rw [hstream]; exact h.roomFor hr hc)
  rw [hstream] at happ
  obtain ⟨hbits, hheld⟩ := h.packed.append happ
  exact ⟨_, h.step rfl (.inl (by decide)) (congrArg Res.outcome ht) ⟨hbits, hheld⟩⟩

/-- E_FLUSH (R168). -/
theorem Encoding.eFlush (h : Encoding s₀ T cs .eFlush bs s) (hr : (pad8 bs).length ≤ 8 * s₀.dstCap)
    (hc : s₀.dstCap < 2 ^ 64) :
    ∃ t, runToEnd (k + 1) s = runToEnd k t ∧ Encoding s₀ T cs .done (pad8 bs) t := by
  have hlen := h.packed.length
  have hpad : padLen s.nbits.toNat = padLen bs.length := by unfold padLen; omega
  have hroom : RoomFor s (padLen s.nbits.toNat) := by
    rw [hpad]
    refine h.roomFor ?_ hc
    simpa [pad8] using hr
  obtain ⟨t, ht, happ, -⟩ := bwAlign_of_room hroom
  rw [hpad] at happ
  exact ⟨_, h.step rfl (.inl (by decide)) (congrArg Res.outcome ht) (h.packed.append happ)⟩

/-- The container of R60: the padded tree field, the length, the padded code stream. -/
def container (T : Option HTree) (len : Word64) (cs : List Bit) : List Bit :=
  pad8 (treeField T) ++ bitsOf 64 len.toNat ++ pad8 cs

theorem length_container (T : Option HTree) (len : Word64) (cs : List Bit) :
    (container T len cs).length = 8 * (((treeField T).length + 7) / 8 + 8 + (cs.length + 7) / 8) := by
  rw [container, List.length_append, List.length_append, length_pad8, length_pad8, length_bitsOf]
  omega

/-- The writing phases of a run, to its end: four of them, or two where the input is empty. -/
theorem Encoding.toEnd (h : Encoding s₀ T cs .eTree [] s) (hs : SrcPlaced s₀)
    (hr : (container T s₀.srcLen cs).length ≤ 8 * s₀.dstCap) (hc : s₀.dstCap < 2 ^ 64) :
    ∃ t, runToEnd (k + 4) s = .next t ∧ Encoding s₀ T cs .done (container T s₀.srcLen cs) t := by
  rw [length_container] at hr
  have hfield := length_pad8 (treeField T)
  obtain ⟨t₁, hrun₁, h₁⟩ := h.eTree (k := k + 3) (by omega) hc
  obtain ⟨t₂, hrun₂, h₂⟩ := h₁.eLen (k := k + 2) (by omega) (by omega) hc
  have hlen : (pad8 (treeField T) ++ bitsOf 64 s₀.srcLen.toNat).length = (pad8 (treeField T)).length + 64 := by
    rw [List.length_append, length_bitsOf]
  by_cases hT : T = none
  · rw [if_pos hT] at h₂
    have hempty : cs = [] := by
      rw [← h₂.coded.stream]
      exact codeStream_of_empty (h₂.running.srcLen.trans (h₂.coded.empty.1 hT))
    refine ⟨t₂, ?_, ?_⟩
    · rw [hrun₁, hrun₂, runToEnd_done (by rw [busy, h₂.running.phase]; rfl)]
    · rw [container, hempty, show pad8 [] = [] from rfl, List.append_nil]
      exact hempty ▸ h₂
  · rw [if_neg hT] at h₂
    obtain ⟨t₃, hrun₃, h₃⟩ := h₂.eCodes (k := k + 1) hs (by omega) hc
    have hpad := pad8_append cs (show (pad8 (treeField T) ++ bitsOf 64 s₀.srcLen.toNat).length % 8 = 0 by omega)
    have hcodes := length_pad8 cs
    obtain ⟨t₄, hrun₄, h₄⟩ := h₃.eFlush (k := k) (by rw [hpad, List.length_append]; omega) hc
    rw [hpad] at h₄
    refine ⟨t₄, ?_, h₄⟩
    rw [hrun₁, hrun₂, hrun₃, hrun₄, runToEnd_done (by rw [busy, h₄.running.phase]; rfl)]

end

/-- Settles O45: the empty input has the empty tree and no codes, so the container is 72 zero bits (`Encoding.toEnd`). -/
theorem compressOfEmptyInput : Obligations.CompressOfEmptyInput := by
  intro s hb ha hempty hroom hc
  have hzero : s.srcLen.toNat = 0 := by rw [hempty]; rfl
  have hs : SrcPlaced s := fun a h => by omega
  obtain ⟨k, T, cs, u, hrun, hu⟩ := compress_to_eTree hb ha (by omega) hs
  obtain rfl : T = none := hu.coded.empty.2 hempty
  obtain rfl : cs = [] := hu.coded.stream.symm.trans (codeStream_of_empty (hu.running.srcLen.trans hempty))
  have hbits : container none s.srcLen [] = List.replicate (8 * 9) false := by rw [hempty]; decide
  obtain ⟨t, ht, hdone⟩ := hu.toEnd (k := k) hs (by rw [hbits, List.length_replicate]; omega) hc
  rw [hbits] at hdone
  have hlen : t.dstLen.toNat = 9 := by
    have hcount := hdone.packed.length
    have hn := t.nbits.isLt
    rw [List.length_replicate] at hcount
    omega
  exact ⟨t, hrun.trans ht, statusByte_of_done hdone.running.phase hdone.running.errKind, BitVec.eq_of_toNat_eq hlen,
    fun a h => hdone.packed.get_dst_eq_zero h⟩

/-- The room that O59 asks for is enough for the container: 255 bits a code and 256 Leaves at most (G2, R106). -/
theorem Encoding.length_container_le {s₀ s : State} {T : Option HTree} {cs : List Bit} {p : Phase} {bs : List Bit}
    (h : Encoding s₀ T cs p bs s) : (container T s₀.srcLen cs).length ≤ 8 * (330 + 32 * s₀.srcLen.toNat) := by
  have hfield := length_treeField_le h.coded.leaves
  have hcodes := length_codeStream_le s
  rw [h.coded.stream, h.running.srcLen] at hcodes
  rw [length_container]
  omega

/-- Settles O59: the run comes to E_TREE with a tree and its codes (`compress_to_eTree`) and writes the container
(`Encoding.toEnd`). -/
theorem compressWritesContainer : Obligations.CompressWritesContainer := by
  intro s hb ha hcap hs hroom hc
  obtain ⟨k, T, cs, u, hrun, hu⟩ := compress_to_eTree hb ha hcap hs
  have hle := hu.length_container_le
  obtain ⟨t, ht, hdone⟩ := hu.toEnd (k := k) hs (by omega) hc
  refine ⟨t, T, hrun.trans ht, statusByte_of_done hdone.running.phase hdone.running.errKind, hdone.running.src,
    hdone.running.srcLen, hdone.coded.root, hdone.coded.empty, fun a b hlt hv => ?_, ?_⟩
  · obtain ⟨x, hx, hm⟩ := hdone.coded.mem a b hlt hv
    exact ⟨x, hx, (hdone.coded.codes x b hx hm).1⟩
  · rw [hdone.coded.stream]
    exact hdone.packed.dstBits (by rw [length_container]; omega)

end Sys2Proof.Machine

/-! ## Proofs of the statements about the decoder (45_huffman_decoder.md) -/

namespace Sys2Proof.Machine

/-! ### The phase operations D_TREE and D_LEN -/

/-- Settles O46 by `decTree_of_holds`: `8 · ceil(p / 8)` is the first multiple of 8 that is not below `p`. -/
theorem decTreeReadsAlignedField : Obligations.DecTreeReadsAlignedField := by
  intro s T hbits hsize
  obtain ⟨t, ht, hroot, hbp, hframe⟩ := decTree_of_holds hbits hsize
  exact ⟨t, congrArg Res.outcome ht, hroot, by omega, by omega, by omega, hframe⟩

/-- The case M5 of DEC_LEN: the empty tree with a count that is not zero (R182, R221). -/
theorem checkCount_of_empty {s : State} (hr : s.root = NIL) (hc : s.count ≠ 0) :
    checkCount s = .raised (s.raised .malformedContainer) := by
  rw [checkCount, if_pos ⟨hr, hc⟩]
  rfl

/-- Settles O47: `decLen_of_short` is the case M4; where the field is there (`decLen_of_holds`) the last test decides. -/
theorem decLenReadsCount : Obligations.DecLenReadsCount := by
  intro s L
  refine ⟨fun hshort => congrArg Res.outcome (decLen_of_short hshort), fun hp hbits hL => ?_, fun hp hbits hr hL => ?_⟩
  · obtain ⟨hlen, hbp⟩ := decLen_of_holds L hp hbits
    rw [checkCount_of_imp hL] at hlen
    exact ⟨_, congrArg Res.outcome hlen, hbp, rfl⟩
  · obtain ⟨hlen, hbp⟩ := decLen_of_holds L hp hbits
    rw [checkCount_of_empty (s := { s with count := L, bp := s.bp + 64 }) hr hL] at hlen
    exact ⟨_, congrArg Res.outcome hlen, hbp, rfl⟩

/-! ### DEC_SYMBOL -/

/-- DEC_SYMBOL on the code of a symbol, with room for its byte (R184). -/
theorem decSymbol_of_room {s : State} {x : HTree} {path : List Bit} {sym : Byte} (h : RootIs s (some x))
    (hp : x.codeAt path = some sym) (hb : HoldsBits s s.bp.toNat path) (hr : RoomBytes s 1) :
    ∃ t, decSymbol s = .ok () t ∧ t.bp.toNat = s.bp.toNat + path.length ∧
      Table.get t.dst s.dstLen.toNat = some sym ∧ t.dstLen.toNat = s.dstLen.toNat + 1 ∧ DstOnlyAppended s t ∧
      (∃ f, Table.get s.node t.dnode.toNat = some (.leaf sym f)) ∧
      t = { s with
        bp := t.bp, dst := t.dst, dstLen := t.dstLen, emitted := s.emitted + 1, dnode := t.dnode, dstate := .atRoot } := by
  obtain ⟨u, hu, -, hbp, hleaf, hus⟩ := decSymbol_of_code h hp hb
  have hlen : u.dstLen = s.dstLen := (congrArg State.dstLen hus :)
  have hcap : u.dstCap = s.dstCap := (congrArg State.dstCap hus :)
  have hdst : u.dst = s.dst := (congrArg State.dst hus :)
  obtain ⟨t, ht, hbyte, htl, happ, hts⟩ := emitSymbol_of_room sym (s := u) (by rwa [RoomBytes, hlen, hcap])
  have htbp : t.bp = u.bp := (congrArg State.bp hts :)
  have hnode : t.dnode = u.dnode := (congrArg State.dnode hts :)
  rw [DstOnlyAppended, hlen, hdst] at happ
  rw [hlen] at hbyte htl
  exact ⟨t, hu.trans ht, by rw [htbp, hbp], hbyte, htl, happ, by rwa [hnode], by rw [hts, hus]⟩

/-- Settles O48 by `decSymbol_of_room`. -/
theorem decSymbolEmitsSymbol : Obligations.DecSymbolEmitsSymbol := by
  intro s x path sym h hp hb hr
  obtain ⟨t, ht, hrest⟩ := decSymbol_of_room h hp hb hr
  exact ⟨t, congrArg Res.outcome ht, hrest⟩

/-! ### DEC_SYMBOLS: what an error leaves of the symbols before it -/

section
variable {s t : State} {codes : List (List Bit × Byte)}

theorem Decoded.rootIs {T : Option HTree} (hD : Decoded s codes t) (h : RootIs s T) : RootIs t T :=
  rootIs_congr h (congrArg State.root hD.same :) (congrArg State.node hD.same :)

theorem Decoded.srcBits (hD : Decoded s codes t) : srcBits t = srcBits s := (congrArg Machine.srcBits hD.same :)

/-- The bits after the codes that have been decoded come next. -/
theorem Decoded.holdsRest {p : List Bit} (hD : Decoded s codes t)
    (hb : HoldsBits s s.bp.toNat (codes.flatMap Prod.fst ++ p)) : HoldsBits t t.bp.toNat p := by
  rw [hD.bp]
  exact (holdsBits_append.1 hb).2.congr (congrArg State.src hD.same :) (congrArg State.srcLen hD.same :)

/-- What DEC_SYMBOLS leaves where the DEC_SYMBOL after the symbols `codes` raises an error (R185, R226). -/
structure RaisedAfter (s : State) (codes : List (List Bit × Byte)) (k : ErrKind) (t : State) : Prop where
  emitted : t.emitted.toNat = codes.length
  bytes : ∀ j (h : j < codes.length), Table.get t.dst (s.dstLen.toNat + j) = some codes[j].2
  others : ∀ a, a < s.dstLen.toNat ∨ s.dstLen.toNat + codes.length ≤ a → Table.get t.dst a = Table.get s.dst a
  same : t = { s with
    bp := t.bp, dst := t.dst, emitted := t.emitted, dnode := t.dnode, dstate := t.dstate, errKind := k, dstLen := 0,
    phase := .error, issue := [] }

theorem Decoded.raised {u : State} (hD : Decoded { s with emitted := 0 } codes t) (k : ErrKind)
    (hu : u = { t with bp := u.bp, dnode := u.dnode, dstate := u.dstate }) : RaisedAfter s codes k (u.raised k) := by
  have hdst : u.dst = t.dst := (congrArg State.dst hu :)
  have hemitted : u.emitted = t.emitted := (congrArg State.emitted hu :)
  have hlen := hD.dstLen
  refine ⟨?_, fun j hj => ?_, fun a ha => ?_, ?_⟩
  · show u.emitted.toNat = _
    rw [hemitted, hD.emitted]
    exact Nat.zero_add _
  · show Table.get u.dst _ = _
    rw [hdst]
    exact hD.bytes j hj
  · show Table.get u.dst _ = _
    rw [hdst]
    exact hD.below a (ha.imp id hlen.trans_le)
  · unfold State.raised
    rw [hu, hD.same]

end

/-- DEC_SYMBOLS where SRC ends within a code (R222). -/
theorem decSymbols_of_short {s : State} {x : HTree} {codes : List (List Bit × Byte)} {p q : List Bit} {sym : Byte}
    (h : RootIs s (some x)) (hc : ∀ c ∈ codes, x.codeAt c.1 = some c.2) (hp : x.codeAt (p ++ q) = some sym) (hq : q ≠ [])
    (hb : HoldsBits s s.bp.toNat (codes.flatMap Prod.fst ++ p))
    (he : srcBits s = s.bp.toNat + (codes.flatMap Prod.fst ++ p).length) (hn : codes.length < s.count.toNat)
    (hr : RoomBytes s codes.length) :
    ∃ t, decSymbols s = .raised t ∧ t.bp.toNat = srcBits s ∧ RaisedAfter s codes .truncatedBitstream t ∧
      t.dstate = if p = [] then .atRoot else .descending := by
  obtain ⟨t, hD, hraise⟩ := decSymbols_raised h hc (holdsBits_append.1 hb).1 hn hr
  have hend : srcBits t = t.bp.toNat + p.length := by
    rw [hD.srcBits, hD.bp, Nat.add_assoc, ← List.length_append]
    exact he
  obtain ⟨u, hu, hstate, hbp, hframe⟩ := decSymbol_of_short (hD.rootIs h) hp hq (hD.holdsRest hb) hend
  exact ⟨_, hraise _ hu, hbp.trans hD.srcBits, hD.raised _ hframe, hstate⟩

theorem atRoot_iff_of_eq_ite {p : List Bit} {d : DState} (h : d = if p = [] then .atRoot else .descending) :
    d = .atRoot ↔ p = [] := by
  rw [h]
  split <;> simp [*]

/-- Settles O49: `decSymbol_of_short`, and after the symbols before it `decSymbols_of_short`. -/
theorem decSymbolRaisesTruncated : Obligations.DecSymbolRaisesTruncated := by
  constructor
  · intro s x p q sym h hp hq hb he
    obtain ⟨u, hu, hstate, hbp, hframe⟩ := decSymbol_of_short h hp hq hb he
    refine ⟨_, congrArg Res.outcome hu, hbp, ?_, atRoot_iff_of_eq_ite hstate⟩
    unfold State.raised
    rw [hframe]
  · intro s x codes p q sym h hc hp hq hb he hn hr
    obtain ⟨t, ht, hbp, hleft, hstate⟩ := decSymbols_of_short h hc hp hq hb he hn hr
    exact ⟨t, congrArg Res.outcome ht, hbp, hleft.emitted, hleft.bytes, hleft.others, hleft.same,
      atRoot_iff_of_eq_ite hstate⟩

/-- DEC_SYMBOLS where a 1 follows `n` bits 0 in an N = 1 tree (R223): each 0 is the code of its symbol. -/
theorem decSymbols_of_absent {s : State} {sym : Byte} {n : Nat} (h : RootIs s (some (.leaf sym)))
    (hb : HoldsBits s s.bp.toNat (List.replicate n false ++ [true])) (hn : n < s.count.toNat) (hr : RoomBytes s n) :
    ∃ t, decSymbols s = .raised t ∧ t.bp.toNat = s.bp.toNat + n + 1 ∧ t.dnode = s.root ∧ t.dstate = .atRoot ∧
      RaisedAfter s (List.replicate n ([false], sym)) .unreachableSymbol t := by
  have hfst : (List.replicate n ([false], sym)).flatMap Prod.fst = List.replicate n false := by
    rw [List.flatMap_replicate]
    simp
  have hlen : (List.replicate n ([false], sym)).length = n := List.length_replicate
  have hc : ∀ c ∈ List.replicate n ([false], sym), (HTree.leaf sym).codeAt c.1 = some c.2 := fun c hm => by
    rw [List.eq_of_mem_replicate hm]
    rfl
  rw [← hfst] at hb
  obtain ⟨t, hD, hraise⟩ :=
    decSymbols_raised h hc (holdsBits_append.1 hb).1 (by rw [hlen]; exact hn) (by rw [hlen]; exact hr)
  have hbit : HoldsBits t t.bp.toNat [true] := hD.holdsRest hb
  have hbp : t.bp.toNat = s.bp.toNat + n := by
    rw [hD.bp, hfst, List.length_replicate]
  have hroot : t.root = s.root := (congrArg State.root hD.same :)
  refine ⟨_, hraise _ (decSymbol_of_absent (hD.rootIs h) hbit), ?_, hroot, rfl, hD.raised _ rfl⟩
  show (t.bp + 1).toNat = _
  rw [← hbp]
  exact bp_add (k := 1) hbit.1

/-- Settles O50: `decSymbol_of_absent`, and after the symbols before it `decSymbols_of_absent`. -/
theorem decSymbolRaisesUnreachable : Obligations.DecSymbolRaisesUnreachable := by
  intro s sym h
  constructor
  · intro hb
    exact ⟨_, congrArg Res.outcome (decSymbol_of_absent h hb), bp_add (k := 1) hb.1, rfl⟩
  · intro n hb hn hr
    obtain ⟨t, ht, hbp, hnode, hstate, hleft⟩ := decSymbols_of_absent h hb hn hr
    obtain ⟨hemitted, hbytes, hothers, hframe⟩ := hleft
    rw [List.length_replicate] at hemitted hothers
    refine ⟨t, congrArg Res.outcome ht, hbp, hemitted, fun k hk => ?_, hothers, ?_⟩
    · rw [hbytes k (by rwa [List.length_replicate]), List.getElem_replicate]
    · rwa [hnode, hstate] at hframe

/-- Settles O51 by `decSymbols_of_codes`. -/
theorem decSymbolsDecodesCount : Obligations.DecSymbolsDecodesCount := by
  intro s x codes h hc hb hn hr
  obtain ⟨t, ht, hrest⟩ := decSymbols_of_codes h hc hb hn hr
  exact ⟨t, congrArg Res.outcome ht, hrest⟩

/-! ### A DECOMPRESS run, phase by phase (R180) -/

/-- The tree that `ROOT` and `NODE` hold is empty exactly where `ROOT` = `NIL` (R23). -/
theorem RootIs.root_eq_NIL_iff {s : State} {T : Option HTree} (h : RootIs s T) : s.root = NIL ↔ T = none := by
  match T, h with
  | none, h => exact iff_of_true h rfl
  | some (.leaf _), h => exact iff_of_false h.1 (Option.some_ne_none _)
  | some (.node _ _), h => exact iff_of_false (ne_NIL_of_lt (IsTree.lt h)) (Option.some_ne_none _)

theorem busy_of_phaseOp {s : State} {i : Instr} (h : phaseOp s.phase = some i) : busy s = true := by
  by_contra hb
  rw [(phaseOp_eq_none_iff s).2 (by simpa using hb)] at h
  cases h

/-- One phase of a run whose operation ends ordinarily, as its frame says (R15). -/
theorem Running.step_of_kept {s₀ s t : State} {p : Phase} {i : Instr} {k : Nat} (h : Running s₀ p s)
    (hp : phaseOp p = some i) (he : exec i s = .next t) (hside : Machine.hostSide t = Machine.hostSide s)
    (hcontrol : control t = control s) :
    runToEnd (k + 1) s = runToEnd k t.advanced ∧ Running s₀ (nextPhase { t with phase := p }) t.advanced := by
  obtain ⟨rfl, halone, herr, hhost⟩ := h
  simp only [control, Prod.mk.injEq] at hcontrol
  obtain ⟨hphase, hkind, hissue⟩ := hcontrol
  have hh : t.host = s.host := (congrArg (fun x => x.2.2.2.2.1) hside :)
  refine ⟨runToEnd_phase halone (busy_of_phaseOp hp) hp he, ?_, ⟨hh.trans halone.1, hissue.trans halone.2⟩,
    hkind.trans herr, hside.trans hhost⟩
  rw [← hphase]
  rfl

theorem Running.runToEnd_of_done {s₀ s : State} {k : Nat} (h : Running s₀ .done s) : runToEnd k s = .next s :=
  runToEnd_done (by rw [busy, h.phase]; rfl)

/-- A DECOMPRESS run begun in `s₀` that has come to phase `p`, on a byte boundary of SRC, with the bits `bs` before it and
nothing emitted. -/
structure Decoding (s₀ : State) (p : Phase) (bs : List Bit) (s : State) : Prop where
  running : Running s₀ p s
  aligned : s.bp.toNat % 8 = 0
  ahead : HoldsBits s s.bp.toNat bs
  dstLen : s.dstLen = 0

section
variable {s₀ s u : State} {T : Option HTree} {bs : List Bit} {k : Nat}

/-- DECOMPRESS starts a run (R201). -/
theorem decompress_started (hb : busy u = false) (ha : Alone u) (hcap : u.srcLen.toNat ≤ u.srcCap)
    (hbits : HoldsBits u 0 bs) :
    ∃ s, commandRun .decompress u = runToEnd 8 s ∧ Decoding u .dTree bs s := by
  have hexec : exec .decompress u = .next (u.started .dTree) := by
    simp only [exec, execDecompress, command, hb, if_pos hcap, Res.outcome_ok, Bool.false_eq_true, if_false]
  exact ⟨u.started .dTree, by rw [commandRun, hexec], ⟨rfl, ha, rfl, rfl⟩, rfl, hbits.congr rfl rfl, rfl⟩

/-- D_TREE (R181). -/
theorem Decoding.dTree (h : Decoding s₀ .dTree (pad8 (treeField T) ++ bs) s) (hsize : ∀ x, T = some x → x.size ≤ 511) :
    ∃ t, runToEnd (k + 1) s = runToEnd k t ∧ Decoding s₀ .dLen bs t ∧ RootIs t T := by
  obtain ⟨hfield, hrest⟩ := holdsBits_append.1 h.ahead
  obtain ⟨t, ht, hroot, hbp, hframe⟩ := decTree_of_holds (holdsBits_append.1 hfield).1 hsize
  obtain ⟨hrun, hnext⟩ := h.running.step_of_kept (k := k) rfl (congrArg Res.outcome ht)
    (congrArg hostSide hframe :) (congrArg control hframe :)
  have hboundary : t.bp.toNat = s.bp.toNat + (pad8 (treeField T)).length := by
    have haligned := h.aligned
    rw [hbp, length_pad8]
    omega
  have hahead : HoldsBits t t.bp.toNat bs := by
    rw [hboundary]
    exact hrest.congr (congrArg State.src hframe :) (congrArg State.srcLen hframe :)
  exact ⟨t.advanced, hrun, ⟨hnext, show t.bp.toNat % 8 = 0 by omega, hahead.congr rfl rfl,
    Eq.trans (congrArg State.dstLen hframe :) h.dstLen⟩, rootIs_congr hroot rfl rfl⟩

/-- D_LEN (R182): the run of the empty container is DONE with it (R183). -/
theorem Decoding.dLen {L : Word64} (h : Decoding s₀ .dLen (bitsOf 64 L.toNat ++ bs) s) (hroot : RootIs s T)
    (hL : T = none → L = 0) :
    ∃ t, runToEnd (k + 1) s = runToEnd k t ∧ Decoding s₀ (if T = none then .done else .dSymbols) bs t ∧ RootIs t T ∧
      t.count = L := by
  obtain ⟨hfield, hrest⟩ := holdsBits_append.1 h.ahead
  obtain ⟨hlen, hbp⟩ := decLen_of_holds L h.aligned hfield
  rw [checkCount_of_imp (s := { s with count := L, bp := s.bp + 64 }) fun hr => hL (hroot.root_eq_NIL_iff.1 hr)] at hlen
  obtain ⟨hrun, hnext⟩ := h.running.step_of_kept (k := k) rfl (congrArg Res.outcome hlen) rfl rfl
  have hphase : nextPhase { s with phase := .dLen, count := L, bp := s.bp + 64 } = if T = none then .done else .dSymbols :=
    if_congr hroot.root_eq_NIL_iff rfl rfl
  have haligned := h.aligned
  rw [length_bitsOf, ← hbp] at hrest
  rw [← hphase]
  exact ⟨_, hrun, ⟨hnext, show (s.bp + 64).toNat % 8 = 0 by omega, hrest.congr rfl rfl, h.dstLen⟩,
    rootIs_congr hroot rfl rfl, rfl⟩

/-- D_SYMBOLS (R185): the pad bits after the last code are not examined (R186). -/
theorem Decoding.dSymbols {x : HTree} {codes : List (List Bit × Byte)}
    (h : Decoding s₀ .dSymbols (codes.flatMap Prod.fst ++ bs) s) (hroot : RootIs s (some x))
    (hc : ∀ c ∈ codes, x.codeAt c.1 = some c.2) (hn : s.count.toNat = codes.length)
    (hr : codes.length ≤ s₀.dstCap) (hcap : s₀.dstCap < 2 ^ 64) :
    ∃ t, runToEnd (k + 1) s = runToEnd k t ∧ Running s₀ .done t ∧ t.dstLen.toNat = codes.length ∧
      ∀ j (hj : j < codes.length), Table.get t.dst j = some codes[j].2 := by
  have hlen : s.dstLen.toNat = 0 := congrArg BitVec.toNat h.dstLen
  have hroom : RoomBytes s codes.length := by
    rw [RoomBytes, hlen, h.running.dstCap, Nat.zero_add]
    exact ⟨hr, hcap⟩
  obtain ⟨t, ht, -, -, htl, hbytes, -, hframe⟩ :=
    decSymbols_of_codes hroot hc (holdsBits_append.1 h.ahead).1 hn hroom
  obtain ⟨hrun, hnext⟩ := h.running.step_of_kept (k := k) rfl (congrArg Res.outcome ht)
    (congrArg hostSide hframe :) (congrArg control hframe :)
  rw [hlen, Nat.zero_add] at htl
  refine ⟨t.advanced, hrun, hnext, htl, fun j hj => ?_⟩
  have hbyte := hbytes j hj
  rwa [hlen, Nat.zero_add] at hbyte

/-- A DECOMPRESS run on a container ends DONE with the symbols of its codes (R180, R183). -/
theorem decompress_container {L : Word64} {codes : List (List Bit × Byte)} (hb : busy u = false) (ha : Alone u)
    (hcap : u.srcLen.toNat ≤ u.srcCap) (hbits : HoldsBits u 0 (container T L (codes.flatMap Prod.fst)))
    (hsize : ∀ x, T = some x → x.size ≤ 511) (hc : ∀ c ∈ codes, ∃ x, T = some x ∧ x.codeAt c.1 = some c.2)
    (hL : L.toNat = codes.length) (hr : codes.length ≤ u.dstCap) (hdst : u.dstCap < 2 ^ 64) :
    ∃ v, commandRun .decompress u = .next v ∧ Running u .done v ∧ v.dstLen = L ∧
      ∀ j (hj : j < codes.length), Table.get v.dst j = some codes[j].2 := by
  rw [container, List.append_assoc] at hbits
  obtain ⟨s₁, hrun₁, h₁⟩ := decompress_started hb ha hcap hbits
  obtain ⟨s₂, hrun₂, h₂, hroot₂⟩ := h₁.dTree (k := 7) hsize
  have hcodes : T = none → codes = [] := fun hT => List.eq_nil_iff_forall_not_mem.2 fun c hm => by
    obtain ⟨x, hx, -⟩ := hc c hm
    exact Option.some_ne_none x (hx.symm.trans hT)
  have hzero : T = none → L = 0 := fun hT => BitVec.eq_of_toNat_eq (by rw [hL, hcodes hT]; rfl)
  obtain ⟨s₃, hrun₃, h₃, hroot₃, hcount⟩ := h₂.dLen (k := 6) hroot₂ hzero
  cases T with
  | none =>
    refine ⟨s₃, ?_, h₃.running, h₃.dstLen.trans (hzero rfl).symm, fun j hj => ?_⟩
    · rw [hrun₁, hrun₂, hrun₃, h₃.running.runToEnd_of_done]
    · rw [hcodes rfl] at hj
      exact absurd hj (Nat.not_lt_zero j)
  | some x =>
    rw [if_neg (Option.some_ne_none x), pad8] at h₃
    have hcx : ∀ c ∈ codes, x.codeAt c.1 = some c.2 := fun c hm => by
      obtain ⟨y, hy, hat⟩ := hc c hm
      rwa [← Option.some.inj hy] at hat
    obtain ⟨v, hrun₄, hdone, hlen, hbytes⟩ := h₃.dSymbols (k := 5) hroot₃ hcx (by rw [hcount, hL]) hr hdst
    refine ⟨v, ?_, hdone, BitVec.eq_of_toNat_eq (hlen.trans hL.symm), hbytes⟩
    rw [hrun₁, hrun₂, hrun₃, hrun₄, hdone.runToEnd_of_done]

end

/-! ### The round trip (R188) -/

/-- The bytes of SRC, each with its code (R68). -/
def srcCodes (s : State) : List (List Bit × Byte) :=
  (List.range s.srcLen.toNat).map fun a => (codeBitsOf s ((Table.get s.src a).getD 0).toNat, (Table.get s.src a).getD 0)

theorem length_srcCodes (s : State) : (srcCodes s).length = s.srcLen.toNat := by
  rw [srcCodes, List.length_map, List.length_range]

theorem flatMap_srcCodes (s : State) : (srcCodes s).flatMap Prod.fst = codeStream s := by
  rw [srcCodes, List.flatMap_map]
  rfl

/-- The j-th code is that of the j-th byte. -/
theorem getElem_srcCodes {s : State} {j : Nat} (hs : SrcPlaced s) (h : j < (srcCodes s).length) :
    Table.get s.src j = some (srcCodes s)[j].2 := by
  obtain ⟨v, hv⟩ := Option.isSome_iff_exists.1 (hs j (by rwa [length_srcCodes] at h))
  simp only [srcCodes, List.getElem_map, List.getElem_range, hv, Option.getD_some]

/-- The codes of a coded input's bytes are paths of its tree (R130). -/
theorem Coded.codeAt_of_mem_srcCodes {s₀ s : State} {T : Option HTree} {cs : List Bit} (h : Coded s₀ T cs s)
    (hsrc : s.src = s₀.src) (hlen : s.srcLen = s₀.srcLen) (hs : SrcPlaced s) {c : List Bit × Byte} (hc : c ∈ srcCodes s) :
    ∃ x, T = some x ∧ x.codeAt c.1 = some c.2 := by
  obtain ⟨a, ha, rfl⟩ := List.mem_map.1 hc
  have hlt : a < s.srcLen.toNat := List.mem_range.1 ha
  obtain ⟨v, hv⟩ := Option.isSome_iff_exists.1 (hs a hlt)
  obtain ⟨x, hx, hm⟩ := h.mem a v (by rwa [← hlen]) (by rwa [← hsrc])
  refine ⟨x, hx, ?_⟩
  rw [hv]
  exact (h.codes x v hx hm).1

theorem TreeFor.size_le {s₀ s : State} {T : Option HTree} (h : TreeFor s₀ T s) : ∀ x, T = some x → x.size ≤ 511 := by
  intro x hx
  have hleaves := h.leaves x hx
  have hsize := x.size_eq
  omega

/-- What a COMPRESS run on a placed input leaves (R160). -/
theorem compress_encodes {s t : State} (hb : busy s = false) (ha : Alone s) (hcap : s.srcLen.toNat ≤ s.srcCap)
    (hs : SrcPlaced s) (hroom : 330 + 32 * s.srcLen.toNat ≤ s.dstCap) (hc : s.dstCap < 2 ^ 64)
    (hrun : commandRun .compress s = .next t) : ∃ T cs, Encoding s T cs .done (container T s.srcLen cs) t := by
  obtain ⟨k, T, cs, u, hto, hu⟩ := compress_to_eTree hb ha hcap hs
  have hle := hu.length_container_le
  obtain ⟨v, hv, hdone⟩ := hu.toEnd (k := k) hs (by omega) hc
  obtain rfl : t = v := by
    rw [hto, hv] at hrun
    cases hrun
    rfl
  exact ⟨T, cs, hdone⟩

/-- Settles O60: the COMPRESS run leaves the container of its input's codes (`compress_encodes`), which the DECOMPRESS run
reads back (`decompress_container`). -/
theorem roundTrip : Obligations.RoundTrip := by
  intro s t u hb ha hcap hs hroom hc hrun hbu hau hlen hcapu hcopy hroomu hcu
  obtain ⟨T, cs, hdone⟩ := compress_encodes hb ha hcap hs hroom hc hrun
  have hsrc := hdone.running.src
  have hsrcLen := hdone.running.srcLen
  have hplaced := hdone.running.srcPlaced hs
  have hcount : (srcCodes t).length = s.srcLen.toNat := by rw [length_srcCodes, hsrcLen]
  have hbits : HoldsBits u 0 (container T s.srcLen ((srcCodes t).flatMap Prod.fst)) := by
    rw [flatMap_srcCodes, hdone.coded.stream, ← hdone.packed.dstBits (by rw [length_container]; omega)]
    exact holdsBits_of_copied hlen hcopy hdone.packed.held
  obtain ⟨v, hv, hend, hvlen, hbytes⟩ := decompress_container hbu hau hcapu hbits hdone.coded.size_le
    (fun c hm => hdone.coded.codeAt_of_mem_srcCodes hsrc hsrcLen hplaced hm) hcount.symm (by rwa [hcount]) hcu
  refine ⟨v, hv, statusByte_of_done hend.phase hend.errKind, hvlen, fun a hlt => ?_⟩
  have hj : a < (srcCodes t).length := by rwa [hcount]
  rw [hbytes a hj, ← getElem_srcCodes hplaced hj, hsrc]

end Sys2Proof.Machine

/-! ## Proofs of the statements about the host's commands (46_host_commands.md) -/

namespace Sys2Proof.Machine

section
variable {s : State}

/-! ### A command -/

theorem exec_compress (s : State) : exec .compress s = (command .eCount s).outcome := rfl

theorem exec_decompress (s : State) : exec .decompress s = (command .dTree s).outcome := rfl

/-- While BUSY a command is lost (R202). -/
theorem command_of_busy (hb : busy s = true) (p : Phase) : command p s = .ok () s := if_pos hb

theorem exec_compress_of_busy (hb : busy s = true) : exec .compress s = .next s := by
  rw [exec_compress, command_of_busy hb, Res.outcome_ok]

theorem exec_decompress_of_busy (hb : busy s = true) : exec .decompress s = .next s := by
  rw [exec_decompress, command_of_busy hb, Res.outcome_ok]

theorem command_starts (hb : busy s = false) (hcap : s.srcLen.toNat ≤ s.srcCap) (p : Phase) :
    command p s = .ok () (s.started p) := by
  rw [command, hb, if_neg (by decide), if_pos hcap]

theorem statusByte_of_busy (hb : busy s = true) (he : s.errKind = .none) : statusByte s = 0x01#8 := by
  have hcode : stateCode s.phase = 1 := by simpa [busy, Phase.isBusy] using hb
  rw [statusByte, hcode, he]
  rfl

/-! ### A write of `CMD` -/

theorem decode_cmd_reserved {v : Byte} (h1 : v ≠ 0x01#8) (h2 : v ≠ 0x02#8) :
    decode .cmd (bitsOf 8 v.toNat) = .error .reservedCommand := by
  have hn1 : v.toNat ≠ 1 := fun h => h1 (BitVec.eq_of_toNat_eq h)
  have hn2 : v.toNat ≠ 2 := fun h => h2 (BitVec.eq_of_toNat_eq h)
  have htake : takeNat 8 (bitsOf 8 v.toNat) = .ok (v.toNat, []) := by
    simpa using takeNat_bitsOf v.isLt []
  simp only [decode, htake, decodeCmd, if_neg hn1, if_neg hn2]

/-- A reserved value is not a command (R203). -/
theorem writeCmd_reserved {v : Byte} (h1 : v ≠ 0x01#8) (h2 : v ≠ 0x02#8) (s : State) : writeCmd v s = .next s := by
  simp only [writeCmd, decode_cmd_reserved h1 h2, decoded]

/-- A write of `CMD` while BUSY is lost, be its value a command's or reserved (R202, R203). -/
theorem writeCmd_of_busy (hb : busy s = true) (v : Byte) : writeCmd v s = .next s := by
  by_cases h1 : v = 0x01#8
  · rw [h1]
    exact exec_compress_of_busy hb
  · by_cases h2 : v = 0x02#8
    · rw [h2]
      exact exec_decompress_of_busy hb
    · exact writeCmd_reserved h1 h2 s

theorem step_of_writeCmdReg {v : Word64} {hs : List HostAction} (h : s.host = .writeReg 0 v :: hs) :
    step s = writeCmd (v.setWidth 8) { s with host := hs } :=
  step_of_action h (by simp) (by simp)

end

/-! ### The statements -/

/-- Settles O10: outside a run, with `SRC_LEN` within `SRC_CAP`, both commands start (`command_starts`). -/
theorem commandsStartTheirRun : Obligations.CommandsStartTheirRun := by
  intro s hb hcap
  refine ⟨s.started .eCount, s.started .dTree, ?_, ?_, rfl, rfl, statusByte_of_busy rfl rfl, statusByte_of_busy rfl rfl⟩
  · rw [exec_compress, command_starts hb hcap, Res.outcome_ok]
  · rw [exec_decompress, command_starts hb hcap, Res.outcome_ok]

/-- Settles O11: a command is lost (`command_of_busy`), and so is what is written to `CMD` (`writeCmd_of_busy`). -/
theorem commandsIgnoredWhileBusy : Obligations.CommandsIgnoredWhileBusy := by
  intro s hb
  refine ⟨exec_compress_of_busy hb, exec_decompress_of_busy hb, fun v hs h => ?_⟩
  rw [step_of_writeCmdReg h]
  exact writeCmd_of_busy (s := { s with host := hs }) hb _

/-- Settles O12: the decoder refuses the value (`decode_cmd_reserved`), so that the write is no command. -/
theorem reservedCommandsChangeNothing : Obligations.ReservedCommandsChangeNothing := by
  intro s v hs h h1 h2
  rw [step_of_writeCmdReg h]
  exact writeCmd_reserved h1 h2 _

end Sys2Proof.Machine
